-- ==== Sys2Proof/Word.lean ====
section
/-! DEFINITION. The words the machine is made of: the widths of 00_scope.md R8 and the four-byte group of an ISP
transaction (30_encoding.md R96). -/

namespace Sys2Proof

/-- One byte: the width of every wire, body and control-stack element, of a sequence number and of a checksum (R8). -/
abbrev Byte := BitVec 8

/-- Sixteen bits: the width of a body length, of `clockSelector` and of a page number (R8, R24, R34). -/
abbrev Half := BitVec 16

/-- Thirty-two bits: the width of `currentAddress` and of the millisecond counter (R8, and CLOCK_BITS of R7). -/
abbrev Word := BitVec 32

/-- The time between two readings of the counter: less than half its range (60_exceptions.md R302). -/
abbrev Millis := BitVec 31

/-- The twelve slots of a TPI frame, slot `i` at bit `i` (30_encoding.md R105). -/
abbrev Frame := BitVec 12

/-- Four bytes in the order of a transaction: `b1` first (30_encoding.md R96). -/
structure Quad where
  b1 : Byte
  b2 : Byte
  b3 : Byte
  b4 : Byte
deriving DecidableEq, Repr, Inhabited

end Sys2Proof
end

