-- ==== Sys2Proof/Config.lean ====
section
/-! DEFINITION. The configuration record of 00_scope.md R7 at its reference configuration RC, and the free values: opaque
constants with no body, for what the spec calls a draw.
Every numeral of the reference configuration is PRESUMED (log 1, log 3): unsafe for a chip that has other values. -/

namespace Sys2Proof

/-- `BODY_MAX`: the ceiling of a body in bytes (R7, R28). -/
@[simp] def Config.bodyMax : Nat := 275
/-- `HDR_LEN`: the length of a header with its start marker (R7). -/
@[simp] def Config.hdrLen : Nat := 5
/-- `CS_LEN`: the length of the control stack in bytes (R7). -/
@[simp] def Config.csLen : Nat := 32
/-- `START` (R7, R75). -/
def Config.start : Byte := 0x1B#8
/-- `TOKEN` (R7, R75). -/
def Config.token : Byte := 0x0E#8

/-- `ST_OK` (R77). -/
def Config.stOk : Byte := 0x00#8
/-- `ST_FAILED` (R77). -/
def Config.stFailed : Byte := 0xC0#8
/-- `ST_CKSUM` (R77). -/
def Config.stCksum : Byte := 0xC1#8
/-- `ST_RDYBSY_TOUT` (R77). -/
def Config.stTimeout : Byte := 0x81#8
/-- `XST_OK` (R78). -/
def Config.xstOk : Byte := 0x00#8
/-- `XST_FAILED` (R78). -/
def Config.xstFailed : Byte := 0x01#8
/-- `XST_TOUT` (R78). -/
def Config.xstTimeout : Byte := 0x03#8
/-- `STATUS_OFFSET`: the body index of the status in a normal response (R7, 90_conflicts.md C1). -/
@[simp] def Config.statusOffset : Nat := 0
/-- `XSTATUS_OFFSET`: the body index of the status in an XPROG response (R7, 90_conflicts.md C1). -/
@[simp] def Config.xstatusOffset : Nat := 1
/-- `CKSUM_RESP_LEN`: the body length of the checksum-error response (R7, D6). -/
def Config.cksumRespLen : Half := 1#16

/-- `XPROG_CMD`: the command byte that introduces an XPROG request (R7, R84). -/
def Config.xprogCmd : Byte := 0x50#8
/-- `PARAM_CLOCK`: the one parameter id the engine supports (R88). -/
def Config.paramClock : Byte := 0x98#8

/-- `IspCmd.LOAD_FLASH_LO` (R98). -/
def Config.ispLoadFlashLo : Byte := 0x40#8
/-- `IspCmd.LOAD_FLASH_HI` (R98). -/
def Config.ispLoadFlashHi : Byte := 0x48#8
/-- `IspCmd.WRITE_FLASH_PAGE` (R98). -/
def Config.ispWriteFlashPage : Byte := 0x4C#8
/-- `IspCmd.READ_FLASH_LO` (R98). -/
def Config.ispReadFlashLo : Byte := 0x20#8
/-- `IspCmd.READ_FLASH_HI` (R98). -/
def Config.ispReadFlashHi : Byte := 0x28#8
/-- `IspCmd.LOAD_EXT` (R97, R98). -/
def Config.ispLoadExt : Byte := 0x4D#8
/-- `IspCmd.LOAD_EEPROM_PAGE` (R98). -/
def Config.ispLoadEepromPage : Byte := 0xC1#8
/-- `IspCmd.WRITE_EEPROM_PAGE` (R98). -/
def Config.ispWriteEepromPage : Byte := 0xC2#8
/-- `IspCmd.READ_EEPROM` (R98). -/
def Config.ispReadEeprom : Byte := 0xA0#8
/-- `IspCmd.POLL` (R98, R99). -/
def Config.ispPoll : Byte := 0xF0#8
/-- `ISP_LADDER`: the slower retries after the first ISP bring-up attempt (R7, D30). -/
@[simp] def Config.ispLadder : Nat := 3

/-- `HvCmd.CHIP_ERASE` (R102). -/
def Config.hvChipErase : Byte := 0x80#8
/-- `HvCmd.WRITE_FUSE` (R102). -/
def Config.hvWriteFuse : Byte := 0x40#8
/-- `HvCmd.WRITE_LOCK` (R102). -/
def Config.hvWriteLock : Byte := 0x20#8
/-- `HvCmd.WRITE_FLASH` (R102). -/
def Config.hvWriteFlash : Byte := 0x10#8
/-- `HvCmd.WRITE_EEPROM` (R102). -/
def Config.hvWriteEeprom : Byte := 0x11#8
/-- `HvCmd.READ_SIG_CAL` (R102). -/
def Config.hvReadSigCal : Byte := 0x08#8
/-- `HvCmd.READ_FUSE_LOCK` (R102). -/
def Config.hvReadFuseLock : Byte := 0x04#8
/-- `HvCmd.READ_FLASH` (R102). -/
def Config.hvReadFlash : Byte := 0x02#8
/-- `HvCmd.READ_EEPROM` (R102). -/
def Config.hvReadEeprom : Byte := 0x03#8
/-- `NeedExt(a)`: whether HV paging latches the third address byte (R7, D24). -/
def Config.needExt (a : Word) : Bool := a.getLsbD 23

/-- `TPI_ID`: the identity an XEnter expects (R7). -/
def Config.tpiId : Byte := 0x80#8
/-- `TPI_TIMEOUT_MS` (R7, D28). -/
def Config.tpiTimeout : Half := 100#16
/-- `TPI_WRITE_UNIT`: bytes written before each busy poll (R7, D41). -/
@[simp] def Config.tpiWriteUnit : Nat := 2
/-- `TpiCmd.NVM_CHIP_ERASE` (R108). -/
def Config.nvmChipErase : Byte := 0x10#8
/-- `TpiCmd.NVM_SECTION_ERASE` (R108). -/
def Config.nvmSectionErase : Byte := 0x14#8
/-- `TpiCmd.NVM_WORD_WRITE` (R108). -/
def Config.nvmWordWrite : Byte := 0x1D#8
/-- `TpiCmd.NVM_NOP` (R108); no rule writes it. -/
def Config.nvmNop : Byte := 0x00#8

/-- FREE VALUE: what the body byte at an index holds after reset, before anything is written there (70 R321, log 5). -/
opaque Config.bodyReset : Nat → Byte
/-- FREE VALUE: the millisecond counter at reset (70 R321, R302, log 7). -/
opaque Config.clockReset : Word
/-- FREE VALUE: the `k`th draw, where it is a byte the target returns or an unstated byte (R41, R264, log 6, log 19). -/
opaque Config.freeByte : Nat → Byte
/-- FREE VALUE: the `k`th draw, where it is the answer to an ISP transaction (R190, log 6). -/
opaque Config.freeQuad : Nat → Quad
/-- FREE VALUE: the `k`th draw, where it is a sample of an HV target's ready signal (R221, log 6). -/
opaque Config.freeReady : Nat → Bool
/-- FREE VALUE: the `k`th draw, where it is a received TPI frame (R263, log 6). -/
opaque Config.freeFrame : Nat → Frame
/-- FREE VALUE: the `k`th draw, where it is a time that passes on the millisecond counter (R302, log 7). -/
opaque Config.freeElapsed : Nat → Millis

end Sys2Proof
end

