-- ==== Sys2Proof/Syntax.lean ====
section
/-! DEFINITION. The host commands, one constructor for each row of spec/opcode_table.json, with the fields of the argument
layouts 30_encoding.md R88 to R94. A field the layout calls ignored is kept and read by no meaning. An ignored field
that may be absent (it lies past the least length of its layout) is an Option or a list. The byte count `N` of a
command that carries data is the length of its `data`. -/

namespace Sys2Proof

/-- A host command (10_state.md R21: the engine's instructions). -/
inductive Instr where
  -- session commands (R88)
  | setParameter (id value : Byte)
  | loadAddress (addr : Word)
  -- ISP layouts (R89, R90)
  | enterProgmodeIsp (timeout : Byte) (delays : Quad) (pollValue pollIndex : Byte) (e : Quad)
  | leaveProgmodeIsp (delays : List Byte)
  | chipEraseIsp (timeout pollMethod : Byte) (c : Quad)
  | programFlashIsp (mode timeout : Byte) (ignored data : List Byte)
  | readFlashIsp (n : Half) (readCmd : Option Byte)
  | programEepromIsp (mode timeout : Byte) (ignored data : List Byte)
  | readEepromIsp (n : Half) (readCmd : Option Byte)
  | programFuseIsp (c : Quad)
  | readFuseIsp (retIndex : Byte) (c : Quad)
  | programLockIsp (c : Quad)
  | readLockIsp (retIndex : Byte) (c : Quad)
  | readSignatureIsp (retIndex : Byte) (c : Quad)
  | readOsccalIsp (retIndex : Byte) (c : Quad)
  -- HVPP layouts (R91, R92)
  | enterProgmodePp (delays : List Byte)
  | leaveProgmodePp (delays : List Byte)
  | chipErasePp (pulseWidth timeout : Byte)
  | programFlashPp (mode timeout : Byte) (data : List Byte)
  | readFlashPp (n : Half)
  | programEepromPp (mode timeout : Byte) (data : List Byte)
  | readEepromPp (n : Half)
  | programFusePp (which value pulseWidth timeout : Byte)
  | readFusePp (which : Byte)
  | programLockPp (which value pulseWidth timeout : Byte)
  | readLockPp (which : Byte)
  | readSignaturePp (which : Byte)
  | readOsccalPp (which : Byte)
  -- session command (R88)
  | setControlStack (stack : List Byte)
  -- HVSP layouts (R92, R93)
  | enterProgmodeHvsp (delays : List Byte)
  | leaveProgmodeHvsp (delays : List Byte)
  | chipEraseHvsp (timeout : Byte) (eraseTime : Option Byte)
  | programFlashHvsp (mode timeout : Byte) (data : List Byte)
  | readFlashHvsp (n : Half)
  | programEepromHvsp (mode timeout : Byte) (data : List Byte)
  | readEepromHvsp (n : Half)
  | programFuseHvsp (which value timeout : Byte)
  | readFuseHvsp (which : Byte)
  | programLockHvsp (which value timeout : Byte)
  | readLockHvsp (which : Byte)
  | readSignatureHvsp (which : Byte)
  | readOsccalHvsp (which : Byte)
  -- XPROG layouts (R94)
  | xprgEnterProgmode
  | xprgLeaveProgmode
  | xprgErase (eraseMode : Byte) (addr : Word)
  | xprgWriteMem (memType pageMode : Byte) (addr : Word) (data : List Byte)
  | xprgReadMem (memType : Byte) (addr : Word) (n : Half)
  | xprgSetParam (params : List Byte)
deriving DecidableEq, Repr

end Sys2Proof
end

