-- ==== Sys2Proof/Decode.lean ====
section
/-! DEFINITION. Command decode (30_encoding.md R81) with the command maps R84, R85 and the argument layouts R88 to R94, total
on any bytes, and the encoder of the same layouts. The words of an instruction are its request body, first byte
`Buf[0]`; the message around it is `encodeMessage` (R71). Code values and field places: log 1, log 2. -/

namespace Sys2Proof

/-- A big-endian 16-bit field (20_memory.md R56). -/
def be16 (hi lo : Byte) : Half := hi ++ lo

/-- A big-endian 32-bit field (20_memory.md R56). -/
def be32 (b3 b2 b1 b0 : Byte) : Word := b3 ++ b2 ++ b1 ++ b0

/-- Bits 15:8 of a half word. -/
def hiByte (h : Half) : Byte := h.extractLsb' 8 8

/-- Bits 7:0 of a half word. -/
def loByte (h : Half) : Byte := h.extractLsb' 0 8

/-- Byte `k` of a word, byte 0 the least significant. -/
def byteOf (w : Word) (k : Nat) : Byte := w.extractLsb' (8 * k) 8

/-- The first `n` bytes of a list, where it has that many. -/
def takeExact : Nat → List Byte → Option (List Byte)
  | 0, _ => some []
  | _ + 1, [] => none
  | n + 1, b :: bs => (takeExact n bs).map (b :: ·)

/-- What decoding a request answers: an instruction, or the name of why there is none. -/
inductive Decoded where
  /-- The request is this command. -/
  | instr (i : Instr)
  /-- No map entry (R81 `Unknown`, R86); `xprog` says whether the request has the XPROG form (R141). -/
  | unknown (xprog : Bool)
  /-- The request is shorter than its layout (41_dispatch.md R151). -/
  | shortRequest
  /-- A count field names more data than the request carries (41_dispatch.md R151). -/
  | countTooLarge
deriving DecidableEq, Repr

/-- The data of a counted command: `n` bytes, which the request must carry (R151). DESIGN CHOICE (log 25): a flash count that is both
odd and more than the request carries is `countTooLarge`, decided here, before the odd count; the spec orders no two `Unmodelled`
reasons. -/
def withData (n : Half) (rest : List Byte) (k : List Byte → Instr) : Decoded :=
  match takeExact n.toNat rest with
  | some data => .instr (k data)
  | none => .countTooLarge

/-- `SetParameter` (R88). -/
def decodeSetParameter : List Byte → Decoded
  | id :: value :: _ => .instr (.setParameter id value)
  | _ => .shortRequest

/-- `LoadAddress` (R88). -/
def decodeLoadAddress : List Byte → Decoded
  | b3 :: b2 :: b1 :: b0 :: _ => .instr (.loadAddress (be32 b3 b2 b1 b0))
  | _ => .shortRequest

/-- `SetControlStack` (R88). -/
def decodeSetControlStack (args : List Byte) : Decoded :=
  match takeExact Config.csLen args with
  | some stack => .instr (.setControlStack stack)
  | none => .shortRequest

/-- `Enter(ISP)` (R89). -/
def decodeEnterIsp : List Byte → Decoded
  | t :: d1 :: d2 :: d3 :: d4 :: pv :: pi :: e1 :: e2 :: e3 :: e4 :: _ =>
    .instr (.enterProgmodeIsp t ⟨d1, d2, d3, d4⟩ pv pi ⟨e1, e2, e3, e4⟩)
  | _ => .shortRequest

/-- `ChipErase`, ISP layout (R89). -/
def decodeChipEraseIsp : List Byte → Decoded
  | t :: m :: c1 :: c2 :: c3 :: c4 :: _ => .instr (.chipEraseIsp t m ⟨c1, c2, c3, c4⟩)
  | _ => .shortRequest

/-- `ProgramFuse` and `ProgramLock`, ISP layout (R89). -/
def decodeQuad (k : Quad → Instr) : List Byte → Decoded
  | c1 :: c2 :: c3 :: c4 :: _ => .instr (k ⟨c1, c2, c3, c4⟩)
  | _ => .shortRequest

/-- `ReadFuse`, `ReadLock`, `ReadSignature`, `ReadOscCal`, ISP layout (R89). -/
def decodeIndexQuad (k : Byte → Quad → Instr) : List Byte → Decoded
  | i :: c1 :: c2 :: c3 :: c4 :: _ => .instr (k i ⟨c1, c2, c3, c4⟩)
  | _ => .shortRequest

/-- `ProgramFlash` and `ProgramEEPROM`, ISP layout (R90). -/
def decodeProgramIsp (k : Byte → Byte → List Byte → List Byte → Instr) : List Byte → Decoded
  | nh :: nl :: mode :: t :: i5 :: i6 :: i7 :: i8 :: i9 :: rest =>
    withData (be16 nh nl) rest (k mode t [i5, i6, i7, i8, i9])
  | _ => .shortRequest

/-- `ReadFlash` and `ReadEEPROM`, ISP layout (R90). -/
def decodeReadIsp (k : Half → Option Byte → Instr) : List Byte → Decoded
  | nh :: nl :: rest => .instr (k (be16 nh nl) rest.head?)
  | _ => .shortRequest

/-- `ProgramFlash` and `ProgramEEPROM`, HV layouts (R92). -/
def decodeProgramHv (k : Byte → Byte → List Byte → Instr) : List Byte → Decoded
  | nh :: nl :: mode :: t :: rest => withData (be16 nh nl) rest (k mode t)
  | _ => .shortRequest

/-- `ReadFlash` and `ReadEEPROM`, HV layouts (R92). -/
def decodeReadHv (k : Half → Instr) : List Byte → Decoded
  | nh :: nl :: _ => .instr (k (be16 nh nl))
  | _ => .shortRequest

/-- `ChipErase`, HVPP layout (R91). -/
def decodeChipErasePp : List Byte → Decoded
  | w :: t :: _ => .instr (.chipErasePp w t)
  | _ => .shortRequest

/-- `ChipErase`, HVSP layout (R93). -/
def decodeChipEraseHvsp : List Byte → Decoded
  | t :: rest => .instr (.chipEraseHvsp t rest.head?)
  | _ => .shortRequest

/-- `ProgramFuse` and `ProgramLock`, HVPP layout (R91). -/
def decodeWritePp (k : Byte → Byte → Byte → Byte → Instr) : List Byte → Decoded
  | which :: value :: w :: t :: _ => .instr (k which value w t)
  | _ => .shortRequest

/-- `ProgramFuse` and `ProgramLock`, HVSP layout (R93). -/
def decodeWriteHvsp (k : Byte → Byte → Byte → Instr) : List Byte → Decoded
  | which :: value :: t :: _ => .instr (k which value t)
  | _ => .shortRequest

/-- `ReadFuse`, `ReadLock`, `ReadSignature`, `ReadOscCal`, HV layouts (R91, R93). -/
def decodeWhich (k : Byte → Instr) : List Byte → Decoded
  | which :: _ => .instr (k which)
  | _ => .shortRequest

/-- `OpMap` (R84): the operation of a command code, its arguments read with its layout. -/
def decodeMain (code : Byte) (args : List Byte) : Decoded :=
  match code.toNat with
  | 0x02 => decodeSetParameter args
  | 0x06 => decodeLoadAddress args
  | 0x10 => decodeEnterIsp args
  | 0x11 => .instr (.leaveProgmodeIsp (args.take 2))
  | 0x12 => decodeChipEraseIsp args
  | 0x13 => decodeProgramIsp .programFlashIsp args
  | 0x14 => decodeReadIsp .readFlashIsp args
  | 0x15 => decodeProgramIsp .programEepromIsp args
  | 0x16 => decodeReadIsp .readEepromIsp args
  | 0x17 => decodeQuad .programFuseIsp args
  | 0x18 => decodeIndexQuad .readFuseIsp args
  | 0x19 => decodeQuad .programLockIsp args
  | 0x1A => decodeIndexQuad .readLockIsp args
  | 0x1B => decodeIndexQuad .readSignatureIsp args
  | 0x1C => decodeIndexQuad .readOsccalIsp args
  | 0x20 => .instr (.enterProgmodePp (args.take 7))
  | 0x21 => .instr (.leaveProgmodePp (args.take 2))
  | 0x22 => decodeChipErasePp args
  | 0x23 => decodeProgramHv .programFlashPp args
  | 0x24 => decodeReadHv .readFlashPp args
  | 0x25 => decodeProgramHv .programEepromPp args
  | 0x26 => decodeReadHv .readEepromPp args
  | 0x27 => decodeWritePp .programFusePp args
  | 0x28 => decodeWhich .readFusePp args
  | 0x29 => decodeWritePp .programLockPp args
  | 0x2A => decodeWhich .readLockPp args
  | 0x2B => decodeWhich .readSignaturePp args
  | 0x2C => decodeWhich .readOsccalPp args
  | 0x2D => decodeSetControlStack args
  | 0x30 => .instr (.enterProgmodeHvsp (args.take 8))
  | 0x31 => .instr (.leaveProgmodeHvsp (args.take 2))
  | 0x32 => decodeChipEraseHvsp args
  | 0x33 => decodeProgramHv .programFlashHvsp args
  | 0x34 => decodeReadHv .readFlashHvsp args
  | 0x35 => decodeProgramHv .programEepromHvsp args
  | 0x36 => decodeReadHv .readEepromHvsp args
  | 0x37 => decodeWriteHvsp .programFuseHvsp args
  | 0x38 => decodeWhich .readFuseHvsp args
  | 0x39 => decodeWriteHvsp .programLockHvsp args
  | 0x3A => decodeWhich .readLockHvsp args
  | 0x3B => decodeWhich .readSignatureHvsp args
  | 0x3C => decodeWhich .readOsccalHvsp args
  | _ => .unknown false

/-- `XErase` (R94). -/
def decodeXErase : List Byte → Decoded
  | m :: b3 :: b2 :: b1 :: b0 :: _ => .instr (.xprgErase m (be32 b3 b2 b1 b0))
  | _ => .shortRequest

/-- `XWriteMem` (R94). -/
def decodeXWriteMem : List Byte → Decoded
  | m :: p :: b3 :: b2 :: b1 :: b0 :: nh :: nl :: rest =>
    withData (be16 nh nl) rest (.xprgWriteMem m p (be32 b3 b2 b1 b0))
  | _ => .shortRequest

/-- `XReadMem` (R94). -/
def decodeXReadMem : List Byte → Decoded
  | m :: b3 :: b2 :: b1 :: b0 :: nh :: nl :: _ => .instr (.xprgReadMem m (be32 b3 b2 b1 b0) (be16 nh nl))
  | _ => .shortRequest

/-- `XOpMap` (R85): the bytes after `XPROG_CMD`; a request of that byte alone is `Unknown` (R81). -/
def decodeXprog : List Byte → Decoded
  | [] => .unknown true
  | sub :: args =>
    match sub.toNat with
    | 0x01 => .instr .xprgEnterProgmode
    | 0x02 => .instr .xprgLeaveProgmode
    | 0x03 => decodeXErase args
    | 0x04 => decodeXWriteMem args
    | 0x05 => decodeXReadMem args
    | 0x07 => .instr (.xprgSetParam args)
    | _ => .unknown true

/-- Whether `XOpMap` has an entry for a sub-code (R85). -/
def inXOpMap (sub : Byte) : Bool := [1, 2, 3, 4, 5, 7].contains sub.toNat

/-- The codes whose operation reads no argument byte and whose layout states `LEN ≥ 1` all the same: `Leave` of the ISP layout and
the HV Enters (R89, R91, R93). The layouts of the other two `Leave` codes state no least length. -/
def statesOneByte (code : Byte) : Bool := [0x11, 0x20, 0x30].contains code.toNat

/-- `Decode(Buf)` (R81): `body` is `Buf[0..LEN-1]` and `stale` is `Buf[0]`, which a request of no bytes leaves as it was
(R119). Such a request has the code `stale`, through `OpMap` only, and no argument bytes: it is short where the operation reads one
(R151) or the layout states `LEN ≥ 1` (log 15), and otherwise it is the command. -/
def decodeRequest (stale : Byte) : List Byte → Decoded
  | [] => if statesOneByte stale then .shortRequest else decodeMain stale []
  | code :: args => if code = Config.xprogCmd then decodeXprog args else decodeMain code args

/-- The bytes of a four-byte group. -/
def Quad.bytes (q : Quad) : List Byte := [q.b1, q.b2, q.b3, q.b4]

/-- A 32-bit field as sent (R56). -/
def wordBytes (w : Word) : List Byte := [byteOf w 3, byteOf w 2, byteOf w 1, byteOf w 0]

/-- A 16-bit field as sent (R56). -/
def halfBytes (h : Half) : List Byte := [hiByte h, loByte h]

/-- The byte count of a list of data, as a field. -/
def countOf (data : List Byte) : Half := BitVec.ofNat 16 data.length

/-- The request body of a command (R84, R85, R88 to R94). -/
def encode : Instr → List Byte
  | .setParameter id value => [0x02#8, id, value]
  | .loadAddress addr => 0x06#8 :: wordBytes addr
  | .enterProgmodeIsp t d pv pi e => 0x10#8 :: t :: d.bytes ++ pv :: pi :: e.bytes
  | .leaveProgmodeIsp d => 0x11#8 :: d
  | .chipEraseIsp t m c => 0x12#8 :: t :: m :: c.bytes
  | .programFlashIsp mode t ign data => 0x13#8 :: halfBytes (countOf data) ++ mode :: t :: ign ++ data
  | .readFlashIsp n rc => 0x14#8 :: halfBytes n ++ rc.toList
  | .programEepromIsp mode t ign data => 0x15#8 :: halfBytes (countOf data) ++ mode :: t :: ign ++ data
  | .readEepromIsp n rc => 0x16#8 :: halfBytes n ++ rc.toList
  | .programFuseIsp c => 0x17#8 :: c.bytes
  | .readFuseIsp i c => 0x18#8 :: i :: c.bytes
  | .programLockIsp c => 0x19#8 :: c.bytes
  | .readLockIsp i c => 0x1A#8 :: i :: c.bytes
  | .readSignatureIsp i c => 0x1B#8 :: i :: c.bytes
  | .readOsccalIsp i c => 0x1C#8 :: i :: c.bytes
  | .enterProgmodePp d => 0x20#8 :: d
  | .leaveProgmodePp d => 0x21#8 :: d
  | .chipErasePp w t => [0x22#8, w, t]
  | .programFlashPp mode t data => 0x23#8 :: halfBytes (countOf data) ++ mode :: t :: data
  | .readFlashPp n => 0x24#8 :: halfBytes n
  | .programEepromPp mode t data => 0x25#8 :: halfBytes (countOf data) ++ mode :: t :: data
  | .readEepromPp n => 0x26#8 :: halfBytes n
  | .programFusePp which value w t => [0x27#8, which, value, w, t]
  | .readFusePp which => [0x28#8, which]
  | .programLockPp which value w t => [0x29#8, which, value, w, t]
  | .readLockPp which => [0x2A#8, which]
  | .readSignaturePp which => [0x2B#8, which]
  | .readOsccalPp which => [0x2C#8, which]
  | .setControlStack stack => 0x2D#8 :: stack
  | .enterProgmodeHvsp d => 0x30#8 :: d
  | .leaveProgmodeHvsp d => 0x31#8 :: d
  | .chipEraseHvsp t et => 0x32#8 :: t :: et.toList
  | .programFlashHvsp mode t data => 0x33#8 :: halfBytes (countOf data) ++ mode :: t :: data
  | .readFlashHvsp n => 0x34#8 :: halfBytes n
  | .programEepromHvsp mode t data => 0x35#8 :: halfBytes (countOf data) ++ mode :: t :: data
  | .readEepromHvsp n => 0x36#8 :: halfBytes n
  | .programFuseHvsp which value t => [0x37#8, which, value, t]
  | .readFuseHvsp which => [0x38#8, which]
  | .programLockHvsp which value t => [0x39#8, which, value, t]
  | .readLockHvsp which => [0x3A#8, which]
  | .readSignatureHvsp which => [0x3B#8, which]
  | .readOsccalHvsp which => [0x3C#8, which]
  | .xprgEnterProgmode => [0x50#8, 0x01#8]
  | .xprgLeaveProgmode => [0x50#8, 0x02#8]
  | .xprgErase m addr => 0x50#8 :: 0x03#8 :: m :: wordBytes addr
  | .xprgWriteMem m p addr data => 0x50#8 :: 0x04#8 :: m :: p :: wordBytes addr ++ halfBytes (countOf data) ++ data
  | .xprgReadMem m addr n => 0x50#8 :: 0x05#8 :: m :: wordBytes addr ++ halfBytes n
  | .xprgSetParam params => 0x50#8 :: 0x07#8 :: params

/-- The exclusive or of a list of bytes, from a start value (R73). -/
def xorAll (c : Byte) (bs : List Byte) : Byte := bs.foldl (· ^^^ ·) c

/-- A message without its trailing checksum (R71). -/
def messageHead (seq : Byte) (body : List Byte) : List Byte :=
  Config.start :: seq :: halfBytes (countOf body) ++ Config.token :: body

/-- A message: START, SEQ, LEN_HI, LEN_LO, TOKEN, the body and the checksum (R71, R73); requests and responses alike (R72). -/
def encodeMessage (seq : Byte) (body : List Byte) : List Byte :=
  messageHead seq body ++ [xorAll 0x00#8 (messageHead seq body)]

/-- Byte `k` of a number, byte 0 the least significant. -/
def natByte (w k : Nat) : Byte := BitVec.ofNat 8 (w >>> (8 * k))

/-- `n` bytes of a number from byte `k` on, least significant first. -/
def natBytes (w : Nat) : Nat → Nat → List Byte
  | _, 0 => []
  | k, n + 1 => natByte w k :: natBytes w (k + 1) n

/-- The body, `BODY_MAX` bytes, of an opcode-table word. The table numbers an XPROG row over both bytes `Buf[0..1]` read as one
number, `XPROG_CMD` at bits 15:8 and the sub-code at bits 7:0, and every other row with `Buf[0]` at bits 7:0 (log 13). -/
def tableBody (nbits w : Nat) : List Byte :=
  let v := w % 2 ^ nbits
  let plain := natBytes v 0 Config.bodyMax
  if 16 ≤ nbits ∧ natByte v 1 = Config.xprogCmd ∧ inXOpMap (natByte v 0) then
    Config.xprogCmd :: natByte v 0 :: natBytes v 2 (Config.bodyMax - 2)
  else plain

/-- The instruction the decoder reads from an opcode-table word: none where it refuses. -/
def decodeTableWord (nbits w : Nat) : Option Instr :=
  match decodeRequest 0x00#8 (tableBody nbits w) with
  | .instr i => some i
  | .unknown _ | .shortRequest | .countTooLarge => none

end Sys2Proof
end

