-- ==== Sys2Proof/Machine/State.lean ====
section
/-! DEFINITION. The state of the engine: every register, buffer and port of 10_state.md, as plain data, and the state after
reset (70_reset_and_hazards.md R321). INVENTORY.md lists each field with its rule and its reset value. -/

namespace Sys2Proof.Machine

/-- The framer state `FS` (R22). -/
inductive FramerState where
  | idle
  | header
  | body
  | complete
deriving DecidableEq, Repr

/-- The sequencer families (R32). -/
inductive Family where
  | isp
  | hvsp
  | hvpp
  | tpi
deriving DecidableEq, Repr

/-- The memories a paged operation names (R34). -/
inductive Mem where
  | flash
  | eeprom
deriving DecidableEq, Repr

/-- `PageKey`: a memory and a 16-bit page number (R34, 42_driver_common.md R168). -/
structure PageKey where
  mem : Mem
  page : Half
deriving DecidableEq, Repr

/-- The HV signals (30_encoding.md R100). -/
inductive Signal where
  | loadAddr
  | loadData
  | loadCmd
  | commit
  | enableRead
  | pageLoad
  | init
deriving DecidableEq, Repr

/-- The HV byte-selects (30_encoding.md R100). -/
inductive Select where
  | low
  | high
  | ext
  | ext2
deriving DecidableEq, Repr

/-- The status an operation ends with (41_dispatch.md R142, 30_encoding.md R78). -/
inductive Status where
  | ok
  | failed
  | timeout
deriving DecidableEq, Repr

/-- A received TPI byte: `Byte(d)` or the sentinel `Invalid` (45_tpi.md R263). -/
inductive TpiByte where
  | byte (d : Byte)
  | invalid
deriving DecidableEq, Repr

/-- The events of `TRACE`, one for each target transaction (43_isp.md R190, 44_hv.md R221, 45_tpi.md R261). `p` is the pin
pattern of an HVPP transaction, absent for HVSP (R222). -/
inductive Event where
  | ispXfer (rung : Nat) (out : Quad)
  | ispBringUp
  | ispRelease
  | hvLoad (s : Signal) (k : Select) (v : Byte) (p : Option Byte)
  | hvStrobe (s : Signal) (k : Select) (p : Option Byte)
  | hvRead (k : Select) (p : Option Byte)
  | hvReady
  | hvBringUp (f : Family)
  | hvRelease (f : Family)
  | tpiBringUp
  | tpiRelease
  | tpiReadId
  | tpiNvmCmd (c : Byte)
  | tpiWrite (a : Word) (v : Byte)
  | tpiRead (a : Word)
  | tpiBusy
deriving DecidableEq, Repr

/-- What `FeedByte` returns (R42). -/
inductive FeedResult where
  | incomplete
  | headerError
  | checksumError
  | command (c : Byte)
deriving DecidableEq, Repr

/-- A port operation the engine's caller calls (10_state.md R21, 30_encoding.md R109, 41_dispatch.md R141, log 10). -/
inductive PortCall where
  | feedByte
  | sendResponse (status : Byte) (n : Half)
  | sendXprogResponse (status : Byte) (n : Half)
deriving DecidableEq, Repr

/-- The faults: the marks for a call or a request the spec gives no meaning (60_exceptions.md R298), and one of the model's
own. Each is SAFE: the machine stops, so nothing can be proved of a run past it. -/
inductive Fault where
  /-- `FeedByte` with `FS = Complete` (40_framing.md R112). Raised by `feedByte`. Safe. -/
  | feedWhileComplete
  /-- A response longer than `BODY_MAX` (40_framing.md R124). Raised by `sendResponse` and `sendXprogResponse`. Safe. -/
  | responseTooLong
  /-- `Unmodelled(short request)` (41_dispatch.md R151). Raised by the dispatch of `step`. Safe. -/
  | shortRequest
  /-- `Unmodelled(count too large)` (41_dispatch.md R151). Raised by the dispatch of `step` for data a request does not
  carry, and by the read commands for data a response cannot hold. Safe. -/
  | countTooLarge
  /-- `Unmodelled(odd flash count)` (42_driver_common.md R163). Raised by the flash commands. Safe. -/
  | oddFlashCount
  /-- `Unmodelled(ISP poll index)` (43_isp.md R194). Raised by `Enter(ISP)`. Safe. -/
  | ispPollIndex
  /-- `Unmodelled(ISP return index)` (43_isp.md R204). Raised by the ISP-layout read commands. Safe. -/
  | ispReturnIndex
  /-- An index of `HDR` or `Buf` that does not exist (20_memory.md R51). Raised by `feedByte` in states no run reaches
  (log 17). Safe. -/
  | noSuchIndex
deriving DecidableEq, Repr

/-- The refusals. -/
inductive Refusal where
  /-- The instruction has no meaning in this model; raised by an arm of `exec`, for no instruction of this table. Safe. -/
  | notModelled (mnemonic : String)
deriving DecidableEq, Repr

/-- The body buffer: (index, byte) pairs in canonical form. -/
abbrev Memory := List Host.Cell

/-- The canonical form: indices strictly rising, each one that exists. An index that is not listed has not been written
since reset (log 5). -/
abbrev Memory.wf (m : Memory) : Prop :=
  m.Pairwise (fun x y => x.1 < y.1) ∧ ∀ c ∈ m, c.1 < Config.bodyMax

/-- The state of the engine with its ports. -/
structure State where
  /-- `FS` (R22). -/
  fs : FramerState
  /-- `HDR[0..4]` (R23). -/
  hdr : List Byte
  /-- `NREAD` (R24). -/
  nread : Half
  /-- `NWANT` (R24). -/
  nwant : Half
  /-- `CKS` (R25). -/
  cks : Byte
  /-- `SEQ` (R26). -/
  seq : Byte
  /-- `LEN` (R27). -/
  len : Half
  /-- `Buf[0..274]` (R28). -/
  buf : Memory
  /-- `currentAddress` (R29). -/
  currentAddress : Word
  /-- `clockSelector` (R30). -/
  clockSelector : Half
  /-- `controlStack[0..31]` (R31). -/
  controlStack : List Byte
  /-- `activeFamily` (R32). -/
  activeFamily : Family
  /-- `inMode` (R33). -/
  inMode : Bool
  /-- `prevPage` (R34); none is INVALID. -/
  prevPage : Option PageKey
  /-- `ispRung` (R35). -/
  ispRung : Nat
  /-- `FAULT` (R36, log 9). -/
  faultMark : Option Fault
  /-- `TRACE`, the first event first (R40). -/
  trace : List Event
  /-- The host receive port: the bytes not yet polled, the first one first (R37). -/
  rx : List Byte
  /-- The host transmit stream, the first byte first (R38). -/
  tx : List Byte
  /-- What `FeedByte` returned last (R42, log 11). -/
  feedResult : Option FeedResult
  /-- What the millisecond counter read last (R39, R302, log 7). -/
  clock : Word
  /-- INPUT: the time that passes before each coming reading of the counter (R302, log 7). -/
  elapsed : List Millis
  /-- INPUT: the target's coming answers to ISP transactions (R41, log 6). -/
  ispAnswers : List Quad
  /-- INPUT: the bytes an HV target will return (R41, log 6). -/
  hvBytes : List Byte
  /-- INPUT: the coming samples of an HV target's ready signal (R41, log 6). -/
  hvReadies : List Bool
  /-- INPUT: the frames a TPI target will send (R41, log 6). -/
  tpiFrames : List Frame
  /-- The port operations the caller has called and that are not performed yet, the first one first: the response the dispatch
  loop owes for the operation just performed (41_dispatch.md R141), and, as an INPUT, calls of the caller's own (log 10). -/
  calls : List PortCall
  /-- MODEL: how many draws have been made; it indexes the free values (log 6). -/
  drawn : Nat
deriving DecidableEq, Repr

/-- The machine after reset (70_reset_and_hazards.md R321). -/
def State.reset : State where
  fs := .idle
  hdr := [0#8, 0#8, 0#8, 0#8, 0#8]
  nread := 0#16
  nwant := 0#16
  cks := 0#8
  seq := 0#8
  len := 0#16
  buf := []
  currentAddress := 0#32
  clockSelector := 0#16
  controlStack := List.replicate 32 0#8
  activeFamily := .isp
  inMode := false
  prevPage := none
  ispRung := 0
  faultMark := none
  trace := []
  rx := []
  tx := []
  feedResult := none
  clock := Config.clockReset
  elapsed := []
  ispAnswers := []
  hvBytes := []
  hvReadies := []
  tpiFrames := []
  calls := []
  drawn := 0

end Sys2Proof.Machine
end

