-- ==== Sys2Proof/Machine/Operands.lean ====
section
/-! DEFINITION. Operand forms: the fields of addresses and modes, the HV index tables, and the wire forms of ISP bytes and TPI
frames (30_encoding.md R95 to R107). -/

namespace Sys2Proof.Machine

/-- The "commit page" flag of a paged write's `mode` byte (R95). -/
def commitFlag (mode : Byte) : Bool := mode.getLsbD 7

/-- An 8-bit timeout argument in milliseconds (R174). -/
def timeoutOf (t : Byte) : Half := t.setWidth 16

/-- An ISP transaction that carries an address: bits 15:8, then bits 7:0 (R96). -/
def addressed (cmd : Byte) (a : Word) (data : Byte) : Quad := ⟨cmd, byteOf a 1, byteOf a 0, data⟩

/-- The "load extended address" transaction (R97). -/
def loadExtended (x : Byte) : Quad := ⟨Config.ispLoadExt, 0x00#8, x, 0x00#8⟩

/-- The status-readback transaction (R99). -/
def pollTransaction : Quad := ⟨Config.ispPoll, 0x00#8, 0x00#8, 0x00#8⟩

/-- `r[i]` for `i` in 1..4 (R194, R204); none outside. -/
def quadSelect (r : Quad) (i : Byte) : Option Byte :=
  match i.toNat with
  | 1 => some r.b1
  | 2 => some r.b2
  | 3 => some r.b3
  | 4 => some r.b4
  | _ => none

/-- Whether an ISP poll index or return index is one of 1..4 (R194, R204). -/
def validIndex (i : Byte) : Bool := 1 ≤ i.toNat && i.toNat ≤ 4

/-- The bits of a byte as an ISP transaction sends them, the most significant first (20_memory.md R58, R96). -/
def ispByteBits (b : Byte) : List Bool :=
  [b.getLsbD 7, b.getLsbD 6, b.getLsbD 5, b.getLsbD 4, b.getLsbD 3, b.getLsbD 2, b.getLsbD 1, b.getLsbD 0]

/-- The bits of an ISP transaction on the data line, in the order sent (R96). -/
def ispWireBits (q : Quad) : List Bool :=
  ispByteBits q.b1 ++ ispByteBits q.b2 ++ ispByteBits q.b3 ++ ispByteBits q.b4

/-- The number of a signal (R100). -/
def Signal.number : Signal → Nat
  | .loadAddr => 0
  | .loadData => 1
  | .loadCmd => 2
  | .commit => 3
  | .enableRead => 4
  | .pageLoad => 5
  | .init => 6

/-- The number of a byte-select (R100). -/
def Select.number : Select → Nat
  | .low => 0
  | .high => 1
  | .ext => 2
  | .ext2 => 3

/-- `CsIndex(s, k) = 4*s + k` (R101). -/
def csIndex (s : Signal) (k : Select) : Nat := 4 * s.number + k.number

/-- `FuseWSel`; none for `which > 2` (R103). -/
def fuseWriteSelect (which : Byte) : Option Select :=
  match which.toNat with
  | 0 => some .low
  | 1 => some .high
  | 2 => some .ext
  | _ => none

/-- `FuseRSel`; none for `which > 2` (R103). -/
def fuseReadSelect (which : Byte) : Option Select :=
  match which.toNat with
  | 0 => some .low
  | 1 => some .ext2
  | 2 => some .ext
  | _ => none

/-- `PageKey(mem, a) = (mem, a[23:8])` (R168). -/
def pageKey (mem : Mem) (a : Word) : PageKey := ⟨mem, a.extractLsb' 8 16⟩

/-- The units of a transfer of `n` bytes: words for flash, bytes for EEPROM (R163). -/
def unitsOf (mem : Mem) (n : Nat) : Nat :=
  match mem with
  | .flash => n / 2
  | .eeprom => n

/-- The write command an HV paged write begins with (R228). -/
def hvWriteCmd : Mem → Byte
  | .flash => Config.hvWriteFlash
  | .eeprom => Config.hvWriteEeprom

/-- The read command an HV paged read begins with (R229). -/
def hvReadCmd : Mem → Byte
  | .flash => Config.hvReadFlash
  | .eeprom => Config.hvReadEeprom

/-- The NVM command of an erase (R269). -/
def eraseCmd (eraseMode : Byte) : Byte :=
  if eraseMode = 0x01#8 then Config.nvmChipErase else Config.nvmSectionErase

/-- The code of a status in a normal response (R77). -/
def Status.code : Status → Byte
  | .ok => Config.stOk
  | .failed => Config.stFailed
  | .timeout => Config.stTimeout

/-- `XS`: the code of a status in an XPROG response (R78, 41_dispatch.md R141). -/
def Status.xcode : Status → Byte
  | .ok => Config.xstOk
  | .failed => Config.xstFailed
  | .timeout => Config.xstTimeout

end Sys2Proof.Machine
end

