-- ==== Sys2Proof/Machine/Flags.lean ====
section
/-! DEFINITION. The conditions the engine computes. It has no flag register (COVERAGE: the `FeedByte` result and the status
codes are its condition outputs); what decides an outcome is the parity of a TPI frame, a ready sample, the deadline
test and the checks of a count. -/

namespace Sys2Proof.Machine

/-- TPI parity: the nine bits d0..d7, p hold an even number of ones (30_encoding.md R106). -/
def parity (d : Byte) : Bool :=
  d.getLsbD 0 ^^ d.getLsbD 1 ^^ d.getLsbD 2 ^^ d.getLsbD 3 ^^ d.getLsbD 4 ^^ d.getLsbD 5 ^^ d.getLsbD 6 ^^ d.getLsbD 7

/-- The frame of a data byte: slot 0 the start bit 0, slots 1..8 the data bits from the least significant, slot 9 the parity,
slots 10 and 11 the stop bits 1 (R105, 45_tpi.md R262). -/
def tpiFrame (d : Byte) : Frame := 0b11#2 ++ BitVec.ofBool (parity d) ++ d ++ 0b0#1

/-- What a received frame decodes to; slots 0, 10 and 11 are not checked (R107, 45_tpi.md R263). -/
def tpiDecode (f : Frame) : TpiByte :=
  let d : Byte := f.extractLsb' 1 8
  if f.getLsbD 9 = parity d then .byte d else .invalid

/-- The ISP ready test on the answer to the status-readback transaction (R99, 43_isp.md R197). -/
def ispReady (r : Quad) : Bool := !r.b4.getLsbD 0

/-- The TPI ready test on the NVM status byte; `Invalid` is busy (45_tpi.md R265). -/
def tpiReady : TpiByte → Bool
  | .byte x => !x.getLsbD 7
  | .invalid => false

/-- `signed_W(t - deadline) >= 0`: the reading has reached the deadline (42_driver_common.md R172). -/
def expired (t deadline : Word) : Bool := !(t - deadline).msb

/-- The check of a read count: `base + N` bytes must fit in a response (41_dispatch.md R151); an odd flash count has no meaning
(20_memory.md R61). Both are decided before any other check (60_exceptions.md R297, log 14). DESIGN CHOICE (log 25): of the two the
count that does not fit comes first. -/
def readFault (base : Nat) (mem : Mem) (n : Half) : Option Fault :=
  if Config.bodyMax < base + n.toNat then some .countTooLarge
  else if mem = .flash ∧ n.toNat % 2 = 1 then some .oddFlashCount
  else none

/-- The check of a write count: an odd flash count has no meaning (20_memory.md R61). DESIGN CHOICE (log 25): the decoder has refused
a count beyond the request before this check. -/
def writeFault (mem : Mem) (data : List Byte) : Option Fault :=
  if mem = .flash ∧ data.length % 2 = 1 then some .oddFlashCount else none

/-- The check of an ISP return index (43_isp.md R204, log 14). -/
def returnIndexFault (i : Byte) : Option Fault :=
  if validIndex i then none else some .ispReturnIndex

/-- The check of an ISP poll index (43_isp.md R194). -/
def pollIndexFault (i : Byte) : Option Fault :=
  if validIndex i then none else some .ispPollIndex

end Sys2Proof.Machine
end

