-- ==== Sys2Proof/Machine/Ops.lean ====
section
/-! DEFINITION. The named operations every meaning is written with: the body buffer, the ports, the draws, the deadline poll,
the two response operations and the routing of an operation to the driver of the active family. -/

namespace Sys2Proof.Machine

/-- What a step or a meaning answers. -/
abbrev Result := Host.Outcome State Fault Refusal

/-! ### The body buffer -/

/-- The byte written at an index, where one has been written. -/
def Memory.lookup : Memory → Nat → Option Byte
  | [], _ => none
  | (k, v) :: m, a => if k = a then some v else Memory.lookup m a

/-- Write a byte at an index, in canonical form. -/
def Memory.write : Memory → Nat → Byte → Memory
  | [], a, b => [(a, b)]
  | (k, v) :: m, a, b =>
    if a < k then (a, b) :: (k, v) :: m
    else if a = k then (a, b) :: m
    else (k, v) :: Memory.write m a b

/-- `Buf[a]`: what was written there last; the free value of that index where nothing has been (70 R321, log 5). -/
def State.bodyByte (s : State) (a : Nat) : Byte := (Memory.lookup s.buf a).getD (Config.bodyReset a)

/-- `Buf[a .. a+n-1]`. -/
def State.bodyFrom (s : State) : Nat → Nat → List Byte
  | _, 0 => []
  | a, n + 1 => s.bodyByte a :: State.bodyFrom s (a + 1) n

/-- `Buf[a] <- b`. -/
def State.writeBody (s : State) (a : Nat) (b : Byte) : State := { s with buf := Memory.write s.buf a b }

/-- `Buf[a], Buf[a+1], ... <- bs`. -/
def State.writeBodyFrom (s : State) : Nat → List Byte → State
  | _, [] => s
  | a, b :: bs => State.writeBodyFrom (s.writeBody a b) (a + 1) bs

/-! ### Ports and draws -/

/-- Append an event to `TRACE` (10_state.md R40). -/
def State.log (s : State) (e : Event) : State := { s with trace := s.trace ++ [e] }

/-- `TxEmit` of each byte in order (10_state.md R38). -/
def State.transmit (s : State) (bs : List Byte) : State := { s with tx := s.tx ++ bs }

/-- The answer the target gives the next ISP transaction (R41). -/
def State.ispAnswer (s : State) : Quad := s.ispAnswers.headD (Config.freeQuad s.drawn)

/-- The draw of an ISP answer is made. -/
def State.takeIsp (s : State) : State := { s with ispAnswers := s.ispAnswers.tail, drawn := s.drawn + 1 }

/-- The byte the next HV read returns (R41). -/
def State.hvByte (s : State) : Byte := s.hvBytes.headD (Config.freeByte s.drawn)

/-- The draw of an HV byte is made. -/
def State.takeHvByte (s : State) : State := { s with hvBytes := s.hvBytes.tail, drawn := s.drawn + 1 }

/-- The next sample of an HV target's ready signal (R41). -/
def State.hvSample (s : State) : Bool := s.hvReadies.headD (Config.freeReady s.drawn)

/-- The draw of a ready sample is made. -/
def State.takeHvSample (s : State) : State := { s with hvReadies := s.hvReadies.tail, drawn := s.drawn + 1 }

/-- The byte of the next TPI frame the target sends (R41, 45_tpi.md R261, R263). -/
def State.tpiAnswer (s : State) : TpiByte := tpiDecode (s.tpiFrames.headD (Config.freeFrame s.drawn))

/-- The draw of a TPI frame is made. -/
def State.takeTpi (s : State) : State := { s with tpiFrames := s.tpiFrames.tail, drawn := s.drawn + 1 }

/-- A draw that no input names is made (R264). -/
def State.takeFree (s : State) : State := { s with drawn := s.drawn + 1 }

/-- What `Now()` reads next: the counter after the time that passes before the reading, modulo its width (R302). -/
def State.nextReading (s : State) : Word :=
  s.clock + (s.elapsed.headD (Config.freeElapsed s.drawn)).setWidth 32

/-- `Now()` is read; the reading is the new `clock`. -/
def State.tick (s : State) : State :=
  { s with clock := s.nextReading, elapsed := s.elapsed.tail, drawn := s.drawn + 1 }

/-- The time that passes before a reading that is fair to a deadline: a free amount of those that reach it and stay below half the
counter's range, the bound of R302 (42_driver_common.md R175, log 8). -/
def State.fairElapsed (s : State) (deadline : Word) : Millis :=
  let left := (deadline - s.clock).toNat
  BitVec.ofNat 31 (left + (Config.freeElapsed s.drawn).toNat % (2 ^ 31 - left))

/-- `Now()` is read when the listed readings have run out: fairness of the clock, the reading has reached the deadline
(42_driver_common.md R175, log 8). -/
def State.tickFair (s : State) (deadline : Word) : State :=
  { s with clock := s.clock + (s.fairElapsed deadline).setWidth 32, drawn := s.drawn + 1 }

/-! ### Session updates -/

/-- `prevPage <- INVALID` (42_driver_common.md R170). -/
def State.invalidatePage (s : State) : State := { s with prevPage := none }

/-- `currentAddress <- (currentAddress + 1) mod 2^32` (42_driver_common.md R163). -/
def State.advance (s : State) : State := { s with currentAddress := s.currentAddress + 1#32 }

/-! ### Target transactions -/

/-- `T.Xfer` at a rung (43_isp.md R190): the answer and the state after it. -/
def ispXferAt (rung : Nat) (out : Quad) (s : State) : Quad × State :=
  (s.ispAnswer, (s.log (.ispXfer rung out)).takeIsp)

/-- `T.Xfer` at the rung the last Enter reached (43_isp.md R190). -/
def ispXfer (out : Quad) (s : State) : Quad × State := ispXferAt s.ispRung out s

/-- The pin pattern of an HV transaction: the control-stack byte for HVPP, none for HVSP (44_hv.md R222, R223). -/
def hvPattern (s : State) (sig : Signal) (k : Select) : Option Byte :=
  match s.activeFamily with
  | .hvpp => some (s.controlStack.getD (csIndex sig k) 0x00#8)
  | .isp | .hvsp | .tpi => none

/-- `T.HvLoad` (44_hv.md R221). -/
def hvLoad (sig : Signal) (k : Select) (v : Byte) (s : State) : State :=
  s.log (.hvLoad sig k v (hvPattern s sig k))

/-- `T.HvStrobe` (44_hv.md R221). -/
def hvStrobe (sig : Signal) (k : Select) (s : State) : State := s.log (.hvStrobe sig k (hvPattern s sig k))

/-- `T.HvRead` (44_hv.md R221). -/
def hvRead (k : Select) (s : State) : Byte × State :=
  (s.hvByte, (s.log (.hvRead k (hvPattern s .enableRead k))).takeHvByte)

/-- `T.HvReady` (44_hv.md R221). -/
def hvReadySample (s : State) : Bool × State := (s.hvSample, (s.log .hvReady).takeHvSample)

/-- `T.TpiSetNvmCmd` (45_tpi.md R261). -/
def tpiSetNvmCmd (c : Byte) (s : State) : State := s.log (.tpiNvmCmd c)

/-- `T.TpiWrite` (45_tpi.md R261). -/
def tpiWrite (a : Word) (v : Byte) (s : State) : State := s.log (.tpiWrite a v)

/-- A TPI transaction that returns a byte (45_tpi.md R261). -/
def tpiReceive (e : Event) (s : State) : TpiByte × State := (s.tpiAnswer, (s.log e).takeTpi)

/-! ### The deadline poll -/

/-- `ReadySample` of the active family (R173; 43_isp.md R197, 44_hv.md R226, 45_tpi.md R265). -/
def readySample (s : State) : Bool × State :=
  match s.activeFamily with
  | .isp => ((ispReady (ispXfer pollTransaction s).1), (ispXfer pollTransaction s).2)
  | .hvsp => hvReadySample s
  | .hvpp => hvReadySample s
  | .tpi => ((tpiReady (tpiReceive .tpiBusy s).1), (tpiReceive .tpiBusy s).2)

/-- The loop of `PollReady` (42_driver_common.md R171): sample, then test the deadline. It recurs on the listed readings of the
clock; true is Ready, false is Timeout. -/
def pollLoop (deadline : Word) : List Millis → State → Bool × State
  | [], s =>
    if (readySample s).1 then (true, (readySample s).2)
    else (false, (readySample s).2.tickFair deadline)
  | _ :: es, s =>
    if (readySample s).1 then (true, (readySample s).2)
    else if expired (readySample s).2.nextReading deadline then (false, (readySample s).2.tick)
    else pollLoop deadline es (readySample s).2.tick

/-- `PollReady_F(timeout)` (42_driver_common.md R171). -/
def pollReady (timeout : Half) (s : State) : Bool × State :=
  pollLoop (s.tick.clock + timeout.setWidth 32) s.tick.elapsed s.tick

/-! ### How an operation ends -/

/-- The end of an operation (41_dispatch.md R142): the status, the response data and the state. `Respond(ST_OK, d)` and
`Respond(ST_FAILED, 0)` are the statuses `ok` and `failed`; `TimeoutAbort`, which ends `AlreadyResponded`, is the status `timeout`
with no data (42_driver_common.md R176, log 24). -/
structure Done where
  status : Status
  data : List Byte
  state : State
deriving DecidableEq, Repr

/-- `Respond(ST_OK, 0)`. -/
def doneOk (s : State) : Done := ⟨.ok, [], s⟩

/-- `Respond(ST_OK, d)` with its data. -/
def doneData (data : List Byte) (s : State) : Done := ⟨.ok, data, s⟩

/-- `Respond(ST_FAILED, 0)`: command failed, the state as it is (60_exceptions.md R292, R296). -/
def doneFailed (s : State) : Done := ⟨.failed, [], s⟩

/-- `TimeoutAbort()` (42_driver_common.md R176). -/
def doneTimeout (s : State) : Done := ⟨.timeout, [], s⟩

/-- Poll, then `Respond(ST_OK, 0)`, or `TimeoutAbort()` (R171, R176). -/
def pollThenOk (timeout : Half) (s : State) : Done :=
  if (pollReady timeout s).1 then doneOk (pollReady timeout s).2 else doneTimeout (pollReady timeout s).2

/-- The frame `EmitFrame` sends, its checksum accumulated as R122 and R123 say. -/
def responseFrame (seq : Byte) (n : Half) (body : List Byte) : List Byte :=
  [Config.start, seq, hiByte n, loByte n, Config.token] ++ body
    ++ [xorAll (Config.start ^^^ Config.token ^^^ seq) (hiByte n :: loByte n :: body)]

/-- `EmitFrame(n)` (40_framing.md R122). -/
def State.emitFrame (s : State) (n : Half) : State := s.transmit (responseFrame s.seq n (s.bodyFrom 0 n.toNat))

/-- `SendResponse(status, n)` (40_framing.md R122, R124). -/
def sendResponse (status : Byte) (n : Half) (s : State) : Result :=
  if Config.bodyMax < n.toNat then .fault .responseTooLong
  else .next { (s.writeBody Config.statusOffset status).emitFrame n with fs := .idle }

/-- `SendXPROGResponse(status, n)` (40_framing.md R125, R124). -/
def sendXprogResponse (status : Byte) (n : Half) (s : State) : Result :=
  if Config.bodyMax < n.toNat then .fault .responseTooLong
  else .next { (s.writeBody Config.xstatusOffset status).emitFrame n with fs := .idle }

/-- The dispatch loop calls a port operation next (41_dispatch.md R141, log 10). -/
def State.call (s : State) (c : PortCall) : State := { s with calls := c :: s.calls }

/-- The end of an operation of a request of the normal form. `Respond(s, d)`: the data stand at `Buf[1..d]`, and the loop's next
call is `SendResponse(s, 1 + d)`, an operation of its own (00_scope.md R11, 30_encoding.md R80, 41_dispatch.md R141, R142). After a
timeout the response has been sent inside the operation (42_driver_common.md R176). -/
def respond (d : Done) : Result :=
  match d.status with
  | .timeout => sendResponse d.status.code 1#16 d.state
  | .ok | .failed =>
    .next ((d.state.writeBodyFrom 1 d.data).call (.sendResponse d.status.code (BitVec.ofNat 16 (1 + d.data.length))))

/-- The same of an XPROG request: the data at `Buf[2..d+1]`, and `SendXPROGResponse(XS(s), 2 + d)` (30_encoding.md R80,
41_dispatch.md R141, R142, 42_driver_common.md R176). -/
def respondX (d : Done) : Result :=
  match d.status with
  | .timeout => sendXprogResponse d.status.xcode 2#16 d.state
  | .ok | .failed =>
    .next ((d.state.writeBodyFrom 2 d.data).call
      (.sendXprogResponse d.status.xcode (BitVec.ofNat 16 (2 + d.data.length))))

/-- An `Unmodelled` condition stops the machine before any state change (R151); with none the operation runs. -/
def checkThen (f : Option Fault) (r : Result) : Result :=
  match f with
  | some why => .fault why
  | none => r

/-! ### Routing -/

/-- The driver of the active family performs the operation; TPI lacks it (41_dispatch.md R144, R145). -/
def routed (isp hv : State → Done) (s : State) : Done :=
  match s.activeFamily with
  | .isp => isp s
  | .hvsp => hv s
  | .hvpp => hv s
  | .tpi => doneFailed s

/-- The TPI driver performs the operation; the other families lack it (41_dispatch.md R144, R145). -/
def routedTpi (op : State → Done) (s : State) : Done :=
  match s.activeFamily with
  | .tpi => op s
  | .isp | .hvsp | .hvpp => doneFailed s

/-- `Enter(F)` and `XEnter`: the family is selected, the driver's EnterProgmode runs, and `inMode` says whether it answered
`ST_OK` (41_dispatch.md R143). -/
def entering (f : Family) (op : State → Done) (s : State) : Done :=
  let d := op { s with activeFamily := f }
  { d with state := { d.state with inMode := decide (d.status = .ok) } }

/-- An `Unknown` request: no state change but R170's, `Respond(ST_FAILED, 0)` in the form of the request (41_dispatch.md R150,
R141). -/
def performUnknown (xprog : Bool) (s : State) : Result :=
  if xprog then respondX (doneFailed s.invalidatePage) else respond (doneFailed s.invalidatePage)

/-- `Decode(Buf)` of the request the framer holds (30_encoding.md R81). -/
def fetchRequest (s : State) : Decoded := decodeRequest (s.bodyByte 0) (s.bodyFrom 0 s.len.toNat)

/-- The state a fault leaves: `FAULT` set, nothing else changed (10_state.md R36, log 9). -/
def State.raise (s : State) (r : Fault) : State := { s with faultMark := some r }

end Sys2Proof.Machine
end

