-- ==== Sys2Proof/Machine/Drivers.lean ====
section
/-! DEFINITION. What the sequencers do: the shapes they share (42_driver_common.md) and the ISP, HV and TPI drivers
(43_isp.md, 44_hv.md, 45_tpi.md). Each operation answers how it ends; the meanings of the commands call them. -/

namespace Sys2Proof.Machine

/-! ### Paged shapes -/

/-- Load each word of the data, then advance (R163, R164). -/
def eachWord (load : Byte → Byte → State → State) : List Byte → State → State
  | lo :: hi :: rest, s => eachWord load rest (load lo hi s).advance
  | [_], s => s
  | [], s => s

/-- Load each byte of the data, then advance (R163, R164). -/
def eachByte (load : Byte → State → State) : List Byte → State → State
  | b :: rest, s => eachByte load rest (load b s).advance
  | [], s => s

/-- `PagedWrite_F` (R164): load the units; with the commit flag set, commit the page of the start address and poll. -/
def pagedWrite (load : State → State) (commit : Word → State → State) (mode : Byte) (timeout : Half) (s : State) : Done :=
  if commitFlag mode then pollThenOk timeout (commit s.currentAddress (load s)) else doneOk (load s)

/-- Read `u` words, low byte first, advancing after each (R163, R167). -/
def readWords (read : State → (Byte × Byte) × State) : Nat → State → List Byte × State
  | 0, s => ([], s)
  | u + 1, s =>
    let (w, s1) := read s
    let (rest, s2) := readWords read u s1.advance
    (w.1 :: w.2 :: rest, s2)

/-- Read `u` bytes, advancing after each (R163, R167). -/
def readBytes (read : State → Byte × State) : Nat → State → List Byte × State
  | 0, s => ([], s)
  | u + 1, s =>
    let (b, s1) := read s
    let (rest, s2) := readBytes read u s1.advance
    (b :: rest, s2)

/-- `Respond(ST_OK, N)` with the data read. -/
def pagedRead (r : List Byte × State) : Done := doneData r.1 r.2

/-! ### ISP -/

/-- `ExtCheck()` (43_isp.md R192). -/
def extCheck (s : State) : State :=
  if byteOf s.currentAddress 3 ≠ byteOf s.currentAddress 2 then
    let s1 := (ispXfer (loadExtended (byteOf s.currentAddress 2)) s).2
    { s1 with currentAddress := byteOf s.currentAddress 2 ++ s.currentAddress.extractLsb' 0 24 }
  else s

/-- The ladder of `Enter(ISP)` (R194): `left` more rungs from rung `k` on; the rung that matched. -/
def ispLadder (pollValue pollIndex : Byte) (e : Quad) : Nat → Nat → State → Option Nat × State
  | 0, _, s => (none, s)
  | left + 1, k, s =>
    let (r, s1) := ispXferAt k e s
    if quadSelect r pollIndex = some pollValue then (some k, s1)
    else ispLadder pollValue pollIndex e left (k + 1) s1

/-- `Enter_ISP` (R194). -/
def ispEnter (pollValue pollIndex : Byte) (e : Quad) (s : State) : Done :=
  match ispLadder pollValue pollIndex e (Config.ispLadder + 1) 0 (s.log .ispBringUp) with
  | (some k, s1) => doneOk { s1 with ispRung := k }
  | (none, s1) => doneFailed (s1.log .ispRelease)

/-- `Leave` (R195). -/
def ispLeave (s : State) : Done := doneOk { s.log .ispRelease with inMode := false }

/-- `ChipErase` (R196). -/
def ispChipErase (timeout : Half) (c : Quad) (s : State) : Done := pollThenOk timeout (ispXfer c s).2

/-- `LoadUnit(FLASH)` (R198). -/
def ispLoadWord (lo hi : Byte) (s : State) : State :=
  let s1 := extCheck s
  let a := s1.currentAddress
  let s2 := (ispXfer (addressed Config.ispLoadFlashLo a lo) s1).2
  (ispXfer (addressed Config.ispLoadFlashHi a hi) s2).2

/-- `LoadUnit(EEPROM)` (R200). -/
def ispLoadByte (b : Byte) (s : State) : State :=
  (ispXfer (addressed Config.ispLoadEepromPage s.currentAddress b) s).2

/-- `Commit` (R198, R200): the page-write command with the start address. -/
def ispCommit (cmd : Byte) (a0 : Word) (s : State) : State := (ispXfer (addressed cmd a0 0x00#8) s).2

/-- `ReadUnit(FLASH)` (R199). -/
def ispReadWord (s : State) : (Byte × Byte) × State :=
  let s1 := extCheck s
  let a := s1.currentAddress
  let (lo, s2) := ispXfer (addressed Config.ispReadFlashLo a 0x00#8) s1
  let (hi, s3) := ispXfer (addressed Config.ispReadFlashHi a 0x00#8) s2
  ((lo.b4, hi.b4), s3)

/-- `ReadUnit(EEPROM)` (R201). -/
def ispReadByte (s : State) : Byte × State :=
  let (r, s1) := ispXfer (addressed Config.ispReadEeprom s.currentAddress 0x00#8) s
  (r.b4, s1)

/-- `ProgramFlash` and `ProgramEEPROM` (R198, R200). -/
def ispProgram (mem : Mem) (mode : Byte) (timeout : Half) (data : List Byte) (s : State) : Done :=
  match mem with
  | .flash => pagedWrite (eachWord ispLoadWord data) (ispCommit Config.ispWriteFlashPage) mode timeout s
  | .eeprom => pagedWrite (eachByte ispLoadByte data) (ispCommit Config.ispWriteEepromPage) mode timeout s

/-- `ReadFlash` and `ReadEEPROM` (R199, R201). -/
def ispRead (mem : Mem) (n : Nat) (s : State) : Done :=
  match mem with
  | .flash => pagedRead (readWords ispReadWord (unitsOf .flash n) s)
  | .eeprom => pagedRead (readBytes ispReadByte (unitsOf .eeprom n) s)

/-- `ProgramFuse` and `ProgramLock` (R202, R203). -/
def ispWriteConfig (c : Quad) (s : State) : Done := doneOk (ispXfer c s).2

/-- `ReadFuse`, `ReadLock`, `ReadSignature`, `ReadOscCal` (R204 to R207); an index outside 1..4 has been turned away before. -/
def ispReadConfig (retIndex : Byte) (c : Quad) (s : State) : Done :=
  let (r, s1) := ispXfer c s
  doneData [(quadSelect r retIndex).getD 0x00#8] s1

/-! ### HVSP and HVPP -/

/-- `Enter(HVSP)`, `Enter(HVPP)` (44_hv.md R224). -/
def hvEnter (s : State) : Done := doneOk (hvStrobe .init .low (s.log (.hvBringUp s.activeFamily)))

/-- `Leave` (R225). -/
def hvLeave (s : State) : Done := doneOk { s.log (.hvRelease s.activeFamily) with inMode := false }

/-- `ChipErase` (R227). -/
def hvChipErase (timeout : Half) (s : State) : Done :=
  pollThenOk timeout (hvStrobe .commit .low (hvLoad .loadCmd .low Config.hvChipErase s))

/-- `LoadUnit(FLASH)` (R228). -/
def hvLoadWord (lo hi : Byte) (s : State) : State :=
  hvStrobe .pageLoad .low
    (hvLoad .loadData .high hi
      (hvLoad .loadData .low lo
        (hvLoad .loadAddr .low (byteOf s.currentAddress 0) s)))

/-- `LoadUnit(EEPROM)` (R228). -/
def hvLoadByte (b : Byte) (s : State) : State :=
  hvStrobe .pageLoad .low (hvLoad .loadData .low b (hvLoad .loadAddr .low (byteOf s.currentAddress 0) s))

/-- Latch the high-order bits of an address: HIGH, and EXT where `NeedExt` says so (R228, R229). -/
def hvLatchHigh (a : Word) (s : State) : State :=
  let s1 := hvLoad .loadAddr .high (byteOf a 1) s
  if Config.needExt a then hvLoad .loadAddr .ext (byteOf a 2) s1 else s1

/-- `Commit` (R228). -/
def hvCommit (a0 : Word) (s : State) : State := hvStrobe .commit .low (hvLatchHigh a0 s)

/-- `ProgramFlash` and `ProgramEEPROM` (R228). -/
def hvProgram (mem : Mem) (mode : Byte) (timeout : Half) (data : List Byte) (s : State) : Done :=
  match mem with
  | .flash =>
    pagedWrite (fun t => eachWord hvLoadWord data (hvLoad .loadCmd .low (hvWriteCmd .flash) t)) hvCommit mode timeout s
  | .eeprom =>
    pagedWrite (fun t => eachByte hvLoadByte data (hvLoad .loadCmd .low (hvWriteCmd .eeprom) t)) hvCommit mode timeout s

/-- Latch the high-order address of a read unit unless the previous-page cache holds its page (42_driver_common.md R169). -/
def hvLatchPage (mem : Mem) (s : State) : State :=
  if s.prevPage ≠ some (pageKey mem s.currentAddress) then
    { hvLatchHigh s.currentAddress s with prevPage := some (pageKey mem s.currentAddress) }
  else s

/-- `ReadUnit(FLASH)` (R229). -/
def hvReadWord (s : State) : (Byte × Byte) × State :=
  let s1 := hvLatchPage .flash s
  let (lo, s2) := hvRead .low (hvLoad .loadAddr .low (byteOf s1.currentAddress 0) s1)
  let (hi, s3) := hvRead .high s2
  ((lo, hi), s3)

/-- `ReadUnit(EEPROM)` (R229). -/
def hvReadByte (s : State) : Byte × State :=
  let s1 := hvLatchPage .eeprom s
  hvRead .low (hvLoad .loadAddr .low (byteOf s1.currentAddress 0) s1)

/-- `ReadFlash` and `ReadEEPROM` (R229). -/
def hvReadMem (mem : Mem) (n : Nat) (s : State) : Done :=
  let s1 := hvLoad .loadCmd .low (hvReadCmd mem) s
  match mem with
  | .flash => pagedRead (readWords hvReadWord (unitsOf .flash n) s1)
  | .eeprom => pagedRead (readBytes hvReadByte (unitsOf .eeprom n) s1)

/-- `ProgramFuse` (R230). -/
def hvProgramFuse (which value : Byte) (timeout : Half) (s : State) : Done :=
  match fuseWriteSelect which with
  | none => doneFailed s
  | some k =>
    pollThenOk timeout
      (hvStrobe .commit k (hvLoad .loadData .low value (hvLoad .loadCmd .low Config.hvWriteFuse s)))

/-- `ProgramLock` (R231). -/
def hvProgramLock (value : Byte) (timeout : Half) (s : State) : Done :=
  pollThenOk timeout
    (hvStrobe .commit .low (hvLoad .loadData .low value (hvLoad .loadCmd .low Config.hvWriteLock s)))

/-- A one-byte answer from an HV read. -/
def doneByte (r : Byte × State) : Done := doneData [r.1] r.2

/-- `ReadFuse` (R232). -/
def hvReadFuse (which : Byte) (s : State) : Done :=
  match fuseReadSelect which with
  | none => doneFailed s
  | some k => doneByte (hvRead k (hvLoad .loadCmd .low Config.hvReadFuseLock s))

/-- `ReadLock` (R233). -/
def hvReadLock (s : State) : Done := doneByte (hvRead .high (hvLoad .loadCmd .low Config.hvReadFuseLock s))

/-- `ReadSignature` (R234). -/
def hvReadSignature (which : Byte) (s : State) : Done :=
  doneByte (hvRead .low (hvLoad .loadAddr .low which (hvLoad .loadCmd .low Config.hvReadSigCal s)))

/-- `ReadOscCal` (R235). -/
def hvReadOsccal (which : Byte) (s : State) : Done :=
  doneByte (hvRead .high (hvLoad .loadAddr .low which (hvLoad .loadCmd .low Config.hvReadSigCal s)))

/-! ### TPI -/

/-- `XEnter` (45_tpi.md R267). -/
def tpiEnter (s : State) : Done :=
  let (id, s1) := tpiReceive .tpiReadId (s.log .tpiBringUp)
  if id = .byte Config.tpiId then doneOk s1 else doneFailed (s1.log .tpiRelease)

/-- `XLeave` (R268). -/
def tpiLeave (s : State) : Done := doneOk { s.log .tpiRelease with inMode := false }

/-- `XErase` (R269). -/
def tpiErase (eraseMode : Byte) (addr : Word) (s : State) : Done :=
  pollThenOk Config.tpiTimeout (tpiWrite addr 0x00#8 (tpiSetNvmCmd (eraseCmd eraseMode) s))

/-- The loop of `XWriteMem` (R270): `i` bytes are written, these are left; true when no poll timed out. -/
def tpiWriteLoop (addr : Word) : Nat → List Byte → State → Bool × State
  | _, [], s => (true, s)
  | i, b :: rest, s =>
    let s1 := tpiWrite (addr + BitVec.ofNat 32 i) b s
    if (i + 1) % Config.tpiWriteUnit = 0 ∨ rest = [] then
      if (pollReady Config.tpiTimeout s1).1 then tpiWriteLoop addr (i + 1) rest (pollReady Config.tpiTimeout s1).2
      else (false, (pollReady Config.tpiTimeout s1).2)
    else tpiWriteLoop addr (i + 1) rest s1

/-- `XWriteMem` (R270). -/
def tpiWriteMem (addr : Word) (data : List Byte) (s : State) : Done :=
  match tpiWriteLoop addr 0 data (tpiSetNvmCmd Config.nvmWordWrite s) with
  | (true, s1) => doneOk s1
  | (false, s1) => doneTimeout s1

/-- The response data byte of a received TPI byte: `Invalid` gives a draw (R264, log 19). -/
def tpiDataByte (v : TpiByte) (s : State) : Byte × State :=
  match v with
  | .byte x => (x, s)
  | .invalid => (Config.freeByte s.drawn, s.takeFree)

/-- The loop of `XReadMem` (R271): `n` bytes from an address on. -/
def tpiReadLoop : Word → Nat → State → List Byte × State
  | _, 0, s => ([], s)
  | a, n + 1, s =>
    let (v, s1) := tpiReceive (.tpiRead a) s
    let (b, s2) := tpiDataByte v s1
    let (rest, s3) := tpiReadLoop (a + 1#32) n s2
    (b :: rest, s3)

/-- `XReadMem` (R271). -/
def tpiReadMem (addr : Word) (n : Nat) (s : State) : Done := pagedRead (tpiReadLoop addr n s)

end Sys2Proof.Machine
end

