-- ==== Sys2Proof/Machine/Hvpp.lean ====
section
/-! DEFINITION. The commands of the HVPP layouts (codes 0x20 to 0x2C). Each is performed by the driver of the active family with
the operands of its own layout (41_dispatch.md R144); the ISP driver needs transaction bytes these layouts lack for
erase, fuse, lock, signature and calibration (R153), and TPI lacks them all (R145). `Unmodelled` is decided first
(60_exceptions.md R297, log 14); then 42_driver_common.md R170 invalidates the previous page, except for the two reads. -/

namespace Sys2Proof.Machine

/-- ENTER_PROGMODE_PP (44_hv.md R224, 41_dispatch.md R143). -/
def execEnterProgmodePp (s : State) : Result := respond (entering .hvpp hvEnter s.invalidatePage)

/-- LEAVE_PROGMODE_PP (44_hv.md R225, 43_isp.md R195). -/
def execLeaveProgmodePp (s : State) : Result := respond (routed ispLeave hvLeave s.invalidatePage)

/-- CHIP_ERASE_PP (44_hv.md R227); the ISP driver needs `c1..c4` (41_dispatch.md R153). -/
def execChipErasePp (timeout : Byte) (s : State) : Result :=
  respond (routed doneFailed (hvChipErase (timeoutOf timeout)) s.invalidatePage)

/-- PROGRAM_FLASH_PP (44_hv.md R228, 43_isp.md R198). -/
def execProgramFlashPp (mode timeout : Byte) (data : List Byte) (s : State) : Result :=
  checkThen (writeFault .flash data)
    (respond (routed (ispProgram .flash mode (timeoutOf timeout) data) (hvProgram .flash mode (timeoutOf timeout) data)
      s.invalidatePage))

/-- READ_FLASH_PP (44_hv.md R229, 43_isp.md R199). -/
def execReadFlashPp (n : Half) (s : State) : Result :=
  checkThen (readFault 1 .flash n) (respond (routed (ispRead .flash n.toNat) (hvReadMem .flash n.toNat) s))

/-- PROGRAM_EEPROM_PP (44_hv.md R228, 43_isp.md R200). -/
def execProgramEepromPp (mode timeout : Byte) (data : List Byte) (s : State) : Result :=
  checkThen (writeFault .eeprom data)
    (respond (routed (ispProgram .eeprom mode (timeoutOf timeout) data) (hvProgram .eeprom mode (timeoutOf timeout) data)
      s.invalidatePage))

/-- READ_EEPROM_PP (44_hv.md R229, 43_isp.md R201). -/
def execReadEepromPp (n : Half) (s : State) : Result :=
  checkThen (readFault 1 .eeprom n) (respond (routed (ispRead .eeprom n.toNat) (hvReadMem .eeprom n.toNat) s))

/-- PROGRAM_FUSE_PP (44_hv.md R230); the ISP driver needs `c1..c4` (41_dispatch.md R153). -/
def execProgramFusePp (which value timeout : Byte) (s : State) : Result :=
  respond (routed doneFailed (hvProgramFuse which value (timeoutOf timeout)) s.invalidatePage)

/-- READ_FUSE_PP (44_hv.md R232); the ISP driver needs `retIndex` and `c1..c4` (41_dispatch.md R153). -/
def execReadFusePp (which : Byte) (s : State) : Result :=
  respond (routed doneFailed (hvReadFuse which) s.invalidatePage)

/-- PROGRAM_LOCK_PP (44_hv.md R231); the ISP driver needs `c1..c4` (41_dispatch.md R153). -/
def execProgramLockPp (value timeout : Byte) (s : State) : Result :=
  respond (routed doneFailed (hvProgramLock value (timeoutOf timeout)) s.invalidatePage)

/-- READ_LOCK_PP (44_hv.md R233); the ISP driver needs `retIndex` and `c1..c4` (41_dispatch.md R153). -/
def execReadLockPp (s : State) : Result := respond (routed doneFailed hvReadLock s.invalidatePage)

/-- READ_SIGNATURE_PP (44_hv.md R234); the ISP driver needs `retIndex` and `c1..c4` (41_dispatch.md R153). -/
def execReadSignaturePp (which : Byte) (s : State) : Result :=
  respond (routed doneFailed (hvReadSignature which) s.invalidatePage)

/-- READ_OSCCAL_PP (44_hv.md R235); the ISP driver needs `retIndex` and `c1..c4` (41_dispatch.md R153). -/
def execReadOsccalPp (which : Byte) (s : State) : Result :=
  respond (routed doneFailed (hvReadOsccal which) s.invalidatePage)

end Sys2Proof.Machine
end

