-- ==== Sys2Proof/Machine/Isp.lean ====
section
/-! DEFINITION. The commands of the ISP layouts (codes 0x10 to 0x1C). Each is performed by the driver of the active family with
the operands of its own layout (41_dispatch.md R144); a driver whose operands the layout lacks answers `ST_FAILED`
(R153), and TPI lacks them all (R145). `Unmodelled` is decided first (60_exceptions.md R297, log 14); then
42_driver_common.md R170 invalidates the previous page, except for the two reads. -/

namespace Sys2Proof.Machine

/-- ENTER_PROGMODE_ISP (43_isp.md R194, 41_dispatch.md R143). -/
def execEnterProgmodeIsp (pollValue pollIndex : Byte) (e : Quad) (s : State) : Result :=
  checkThen (pollIndexFault pollIndex)
    (respond (entering .isp (ispEnter pollValue pollIndex e) s.invalidatePage))

/-- LEAVE_PROGMODE_ISP (43_isp.md R195, 44_hv.md R225). -/
def execLeaveProgmodeIsp (s : State) : Result := respond (routed ispLeave hvLeave s.invalidatePage)

/-- CHIP_ERASE_ISP (43_isp.md R196, 44_hv.md R227). -/
def execChipEraseIsp (timeout : Byte) (c : Quad) (s : State) : Result :=
  respond (routed (ispChipErase (timeoutOf timeout) c) (hvChipErase (timeoutOf timeout)) s.invalidatePage)

/-- PROGRAM_FLASH_ISP (43_isp.md R198, 44_hv.md R228). -/
def execProgramFlashIsp (mode timeout : Byte) (data : List Byte) (s : State) : Result :=
  checkThen (writeFault .flash data)
    (respond (routed (ispProgram .flash mode (timeoutOf timeout) data) (hvProgram .flash mode (timeoutOf timeout) data)
      s.invalidatePage))

/-- READ_FLASH_ISP (43_isp.md R199, 44_hv.md R229). -/
def execReadFlashIsp (n : Half) (s : State) : Result :=
  checkThen (readFault 1 .flash n) (respond (routed (ispRead .flash n.toNat) (hvReadMem .flash n.toNat) s))

/-- PROGRAM_EEPROM_ISP (43_isp.md R200, 44_hv.md R228). -/
def execProgramEepromIsp (mode timeout : Byte) (data : List Byte) (s : State) : Result :=
  checkThen (writeFault .eeprom data)
    (respond (routed (ispProgram .eeprom mode (timeoutOf timeout) data) (hvProgram .eeprom mode (timeoutOf timeout) data)
      s.invalidatePage))

/-- READ_EEPROM_ISP (43_isp.md R201, 44_hv.md R229). -/
def execReadEepromIsp (n : Half) (s : State) : Result :=
  checkThen (readFault 1 .eeprom n) (respond (routed (ispRead .eeprom n.toNat) (hvReadMem .eeprom n.toNat) s))

/-- PROGRAM_FUSE_ISP (43_isp.md R202); the HV drivers need `which` and `value` (41_dispatch.md R153). -/
def execProgramFuseIsp (c : Quad) (s : State) : Result :=
  respond (routed (ispWriteConfig c) doneFailed s.invalidatePage)

/-- READ_FUSE_ISP (43_isp.md R204); the HV drivers need `which` (41_dispatch.md R153). -/
def execReadFuseIsp (retIndex : Byte) (c : Quad) (s : State) : Result :=
  checkThen (returnIndexFault retIndex) (respond (routed (ispReadConfig retIndex c) doneFailed s.invalidatePage))

/-- PROGRAM_LOCK_ISP (43_isp.md R203); the HV drivers need `which` and `value` (41_dispatch.md R153). -/
def execProgramLockIsp (c : Quad) (s : State) : Result :=
  respond (routed (ispWriteConfig c) doneFailed s.invalidatePage)

/-- READ_LOCK_ISP (43_isp.md R205); the HV drivers' ReadLock uses no operand (41_dispatch.md R153, 44_hv.md R233). -/
def execReadLockIsp (retIndex : Byte) (c : Quad) (s : State) : Result :=
  checkThen (returnIndexFault retIndex) (respond (routed (ispReadConfig retIndex c) hvReadLock s.invalidatePage))

/-- READ_SIGNATURE_ISP (43_isp.md R206); the HV drivers need `which` (41_dispatch.md R153). -/
def execReadSignatureIsp (retIndex : Byte) (c : Quad) (s : State) : Result :=
  checkThen (returnIndexFault retIndex) (respond (routed (ispReadConfig retIndex c) doneFailed s.invalidatePage))

/-- READ_OSCCAL_ISP (43_isp.md R207); the HV drivers need `which` (41_dispatch.md R153). -/
def execReadOsccalIsp (retIndex : Byte) (c : Quad) (s : State) : Result :=
  checkThen (returnIndexFault retIndex) (respond (routed (ispReadConfig retIndex c) doneFailed s.invalidatePage))

end Sys2Proof.Machine
end

