-- ==== Sys2Proof/Machine/Session.lean ====
section
/-! DEFINITION. The session commands (41_dispatch.md R146 to R148). Each first applies 42_driver_common.md R170. -/

namespace Sys2Proof.Machine

/-- `SetParameter` (R148). -/
def setParameter (id value : Byte) (s : State) : Done :=
  if id = Config.paramClock then doneOk { s with clockSelector := value.setWidth 16 } else doneFailed s

/-- `LoadAddress` (R146). -/
def loadAddress (addr : Word) (s : State) : Done := doneOk { s with currentAddress := addr }

/-- `SetControlStack` (R147). -/
def setControlStack (stack : List Byte) (s : State) : Done := doneOk { s with controlStack := stack }

/-- SET_PARAMETER (R148). -/
def execSetParameter (id value : Byte) (s : State) : Result := respond (setParameter id value s.invalidatePage)

/-- LOAD_ADDRESS (R146). -/
def execLoadAddress (addr : Word) (s : State) : Result := respond (loadAddress addr s.invalidatePage)

/-- SET_CONTROL_STACK (R147). A stack that is not of 32 bytes is no request of this layout (R88, R151). -/
def execSetControlStack (stack : List Byte) (s : State) : Result :=
  checkThen (if stack.length = Config.csLen then none else some .shortRequest)
    (respond (setControlStack stack s.invalidatePage))

end Sys2Proof.Machine
end

