-- ==== Sys2Proof/Machine/Tpi.lean ====
section
/-! DEFINITION. The XPROG commands (45_tpi.md R267 to R272). Only the TPI driver has them (41_dispatch.md R145); each answers in
the XPROG form (R141). `Unmodelled` is decided first (60_exceptions.md R297); then 42_driver_common.md R170 applies. -/

namespace Sys2Proof.Machine

/-- XPRG_ENTER_PROGMODE (R267, 41_dispatch.md R143). -/
def execXprgEnterProgmode (s : State) : Result := respondX (entering .tpi tpiEnter s.invalidatePage)

/-- XPRG_LEAVE_PROGMODE (R268). -/
def execXprgLeaveProgmode (s : State) : Result := respondX (routedTpi tpiLeave s.invalidatePage)

/-- XPRG_ERASE (R269). -/
def execXprgErase (eraseMode : Byte) (addr : Word) (s : State) : Result :=
  respondX (routedTpi (tpiErase eraseMode addr) s.invalidatePage)

/-- XPRG_WRITE_MEM (R270). -/
def execXprgWriteMem (addr : Word) (data : List Byte) (s : State) : Result :=
  respondX (routedTpi (tpiWriteMem addr data) s.invalidatePage)

/-- XPRG_READ_MEM (R271). -/
def execXprgReadMem (addr : Word) (n : Half) (s : State) : Result :=
  checkThen (readFault 2 .eeprom n) (respondX (routedTpi (tpiReadMem addr n.toNat) s.invalidatePage))

/-- XPRG_SET_PARAM: no transaction, no state change (R272). -/
def execXprgSetParam (s : State) : Result := respondX (routedTpi doneOk s.invalidatePage)

end Sys2Proof.Machine
end

