-- ==== Sys2Proof/Machine/Dispatch.lean ====
section
/-! DEFINITION. The meaning of each command: one arm for each constructor of `Instr`, one direct call. -/

namespace Sys2Proof.Machine

def exec (i : Instr) (s : State) : Host.Outcome State Fault Refusal :=
  match i with
  | .setParameter id value => Sys2Proof.Machine.execSetParameter id value s
  | .loadAddress addr => Sys2Proof.Machine.execLoadAddress addr s
  | .enterProgmodeIsp _ _ pollValue pollIndex e => Sys2Proof.Machine.execEnterProgmodeIsp pollValue pollIndex e s
  | .leaveProgmodeIsp _ => Sys2Proof.Machine.execLeaveProgmodeIsp s
  | .chipEraseIsp timeout _ c => Sys2Proof.Machine.execChipEraseIsp timeout c s
  | .programFlashIsp mode timeout _ data => Sys2Proof.Machine.execProgramFlashIsp mode timeout data s
  | .readFlashIsp n _ => Sys2Proof.Machine.execReadFlashIsp n s
  | .programEepromIsp mode timeout _ data => Sys2Proof.Machine.execProgramEepromIsp mode timeout data s
  | .readEepromIsp n _ => Sys2Proof.Machine.execReadEepromIsp n s
  | .programFuseIsp c => Sys2Proof.Machine.execProgramFuseIsp c s
  | .readFuseIsp retIndex c => Sys2Proof.Machine.execReadFuseIsp retIndex c s
  | .programLockIsp c => Sys2Proof.Machine.execProgramLockIsp c s
  | .readLockIsp retIndex c => Sys2Proof.Machine.execReadLockIsp retIndex c s
  | .readSignatureIsp retIndex c => Sys2Proof.Machine.execReadSignatureIsp retIndex c s
  | .readOsccalIsp retIndex c => Sys2Proof.Machine.execReadOsccalIsp retIndex c s
  | .enterProgmodePp _ => Sys2Proof.Machine.execEnterProgmodePp s
  | .leaveProgmodePp _ => Sys2Proof.Machine.execLeaveProgmodePp s
  | .chipErasePp _ timeout => Sys2Proof.Machine.execChipErasePp timeout s
  | .programFlashPp mode timeout data => Sys2Proof.Machine.execProgramFlashPp mode timeout data s
  | .readFlashPp n => Sys2Proof.Machine.execReadFlashPp n s
  | .programEepromPp mode timeout data => Sys2Proof.Machine.execProgramEepromPp mode timeout data s
  | .readEepromPp n => Sys2Proof.Machine.execReadEepromPp n s
  | .programFusePp which value _ timeout => Sys2Proof.Machine.execProgramFusePp which value timeout s
  | .readFusePp which => Sys2Proof.Machine.execReadFusePp which s
  | .programLockPp _ value _ timeout => Sys2Proof.Machine.execProgramLockPp value timeout s
  | .readLockPp _ => Sys2Proof.Machine.execReadLockPp s
  | .readSignaturePp which => Sys2Proof.Machine.execReadSignaturePp which s
  | .readOsccalPp which => Sys2Proof.Machine.execReadOsccalPp which s
  | .setControlStack stack => Sys2Proof.Machine.execSetControlStack stack s
  | .enterProgmodeHvsp _ => Sys2Proof.Machine.execEnterProgmodeHvsp s
  | .leaveProgmodeHvsp _ => Sys2Proof.Machine.execLeaveProgmodeHvsp s
  | .chipEraseHvsp timeout _ => Sys2Proof.Machine.execChipEraseHvsp timeout s
  | .programFlashHvsp mode timeout data => Sys2Proof.Machine.execProgramFlashHvsp mode timeout data s
  | .readFlashHvsp n => Sys2Proof.Machine.execReadFlashHvsp n s
  | .programEepromHvsp mode timeout data => Sys2Proof.Machine.execProgramEepromHvsp mode timeout data s
  | .readEepromHvsp n => Sys2Proof.Machine.execReadEepromHvsp n s
  | .programFuseHvsp which value timeout => Sys2Proof.Machine.execProgramFuseHvsp which value timeout s
  | .readFuseHvsp which => Sys2Proof.Machine.execReadFuseHvsp which s
  | .programLockHvsp _ value timeout => Sys2Proof.Machine.execProgramLockHvsp value timeout s
  | .readLockHvsp _ => Sys2Proof.Machine.execReadLockHvsp s
  | .readSignatureHvsp which => Sys2Proof.Machine.execReadSignatureHvsp which s
  | .readOsccalHvsp which => Sys2Proof.Machine.execReadOsccalHvsp which s
  | .xprgEnterProgmode => Sys2Proof.Machine.execXprgEnterProgmode s
  | .xprgLeaveProgmode => Sys2Proof.Machine.execXprgLeaveProgmode s
  | .xprgErase eraseMode addr => Sys2Proof.Machine.execXprgErase eraseMode addr s
  | .xprgWriteMem _ _ addr data => Sys2Proof.Machine.execXprgWriteMem addr data s
  | .xprgReadMem _ addr n => Sys2Proof.Machine.execXprgReadMem addr n s
  | .xprgSetParam _ => Sys2Proof.Machine.execXprgSetParam s

end Sys2Proof.Machine
end

