-- ==== Sys2Proof/Machine/Framer.lean ====
section
/-! DEFINITION. The receive step of the framer (40_framing.md R111 to R121) and the port operations a caller may ask for. -/

namespace Sys2Proof.Machine

/-- `FeedByte` ends with a result (10_state.md R42). -/
def State.returning (s : State) (r : FeedResult) : State := { s with feedResult := some r }

/-- A byte in `Idle` (R113, R114). -/
def feedIdle (b : Byte) (s : State) : Result :=
  if b ≠ Config.start then .next (s.returning .headerError)
  else
    .next ({ s with
      hdr := s.hdr.set 0 b
      cks := 0x00#8 ^^^ b
      nread := 1#16
      nwant := BitVec.ofNat 16 Config.hdrLen
      fs := .header }.returning .incomplete)

/-- The fifth header byte has arrived: token, then length, then acceptance (R116, R117). -/
def acceptHeader (s : State) : Result :=
  let l := be16 (s.hdr.getD 2 0x00#8) (s.hdr.getD 3 0x00#8)
  if s.hdr.getD 4 0x00#8 ≠ Config.token then .next ({ s with fs := .idle }.returning .headerError)
  else if Config.bodyMax < l.toNat then .next ({ s with fs := .idle }.returning .headerError)
  else
    .next ({ s with
      seq := s.hdr.getD 1 0x00#8
      len := l
      nread := 0#16
      nwant := l + 1#16
      fs := .body }.returning .incomplete)

/-- A byte in `Header` (R115 to R117). -/
def feedHeader (b : Byte) (s : State) : Result :=
  if Config.hdrLen ≤ s.nread.toNat then .fault .noSuchIndex
  else
    let s1 := { s with hdr := s.hdr.set s.nread.toNat b, cks := s.cks ^^^ b, nread := s.nread + 1#16 }
    if s1.nread < s1.nwant then .next (s1.returning .incomplete) else acceptHeader s1

/-- The checksum error: the response inside the same step (R120). -/
def checksumError (s : State) : Result :=
  match sendResponse Config.stCksum Config.cksumRespLen s with
  | .next t => .next (t.returning .checksumError)
  | .fault r => .fault r
  | .refused r => .refused r

/-- The last body byte has been folded in (R119, R120). -/
def endBody (s : State) : Result :=
  if s.cks = 0x00#8 then .next ({ s with fs := .complete }.returning (.command (s.bodyByte 0)))
  else checksumError s

/-- A byte in `Body` (R118 to R120). -/
def feedBody (b : Byte) (s : State) : Result :=
  if s.nread < s.len ∧ Config.bodyMax ≤ s.nread.toNat then .fault .noSuchIndex
  else
    let s1 := if s.nread < s.len then s.writeBody s.nread.toNat b else s
    let s2 := { s1 with cks := s1.cks ^^^ b, nread := s1.nread + 1#16 }
    if s2.nread < s2.nwant then .next (s2.returning .incomplete) else endBody s2

/-- `FeedByte()` (R111). -/
def feedByte (s : State) : Result :=
  match s.fs, s.rx with
  | .complete, _ => .fault .feedWhileComplete
  | .idle, [] => .next (s.returning .incomplete)
  | .header, [] => .next (s.returning .incomplete)
  | .body, [] => .next (s.returning .incomplete)
  | .idle, b :: rest => feedIdle b { s with rx := rest }
  | .header, b :: rest => feedHeader b { s with rx := rest }
  | .body, b :: rest => feedBody b { s with rx := rest }

/-- A port operation the caller asked for (10_state.md R21, 30_encoding.md R109). -/
def portCall (c : PortCall) (s : State) : Result :=
  match c with
  | .feedByte => feedByte s
  | .sendResponse status n => sendResponse status n s
  | .sendXprogResponse status n => sendXprogResponse status n s

end Sys2Proof.Machine
end

