-- ==== Sys2Proof/Machine/Step.lean ====
section
/-! DEFINITION. One step of the machine is one operation (00_scope.md R11): a port operation that its caller, the dispatch loop of
41_dispatch.md R141, has called; or a `FeedByte`; or, when the framer holds a request, the operation the request names. The loop's
call of the response comes in the step after it. -/

namespace Sys2Proof.Machine

/-- `Perform(Decode(Buf))`, and the call of the response that the loop makes next (41_dispatch.md R141). -/
def dispatch (s : State) : Host.Outcome State Fault Refusal :=
  match fetchRequest s with
  | .instr i => exec i s
  | .unknown xprog => performUnknown xprog s
  | .shortRequest => .fault .shortRequest
  | .countTooLarge => .fault .countTooLarge

/-- One step. A faulted machine stays stopped (10_state.md R36). -/
def step (s : State) : Host.Outcome State Fault Refusal :=
  match s.faultMark with
  | some r => .fault r
  | none =>
    match s.calls with
    | c :: rest => portCall c { s with calls := rest }
    | [] => if s.fs = .complete then dispatch s else feedByte s

/-- The body buffer holding these bytes from index 0 on. -/
def cellsFrom : Nat → List Byte → Memory
  | _, [] => []
  | a, b :: bs => (a, b) :: cellsFrom (a + 1) bs

/-- The machine with an instruction received: the framer holds a request of `BODY_MAX` bytes, the instruction and zeros after
it, and neither a fault nor a caller's port operation stands before its dispatch (log 12). -/
def State.withFetchWord (s : State) (nbits w : Nat) : State :=
  { s with
    fs := .complete
    len := BitVec.ofNat 16 Config.bodyMax
    buf := cellsFrom 0 (tableBody nbits w)
    calls := []
    faultMark := none }

end Sys2Proof.Machine
end

