-- ==== Sys2Proof/Safety.lean ====
section
/-! DEFINITION. The terms in which claims speak: what a good state is, what a state keeps of another, what a response is, and
the events and addresses of the paged transfers written out from the rules. -/

namespace Sys2Proof.Machine

/-! ### Good states -/

/-- The framer's registers fit each other: the counts of the phase it is in (R24, R114 to R118), a body that fits (R27). -/
def FramerInv (s : State) : Prop :=
  s.hdr.length = 5 ∧ s.len.toNat ≤ 275 ∧
  (s.fs = .header → s.nwant.toNat = 5 ∧ 1 ≤ s.nread.toNat ∧ s.nread.toNat < 5) ∧
  (s.fs = .body → s.nwant.toNat = s.len.toNat + 1 ∧ s.nread.toNat ≤ s.len.toNat)

/-- The session registers are in their ranges: 32 control-stack bytes (R31), a rung of the ladder (R35), and a page is cached
only while an HV family is active (R170, R229). -/
def SessionInv (s : State) : Prop :=
  s.controlStack.length = 32 ∧ s.ispRung ≤ Config.ispLadder ∧
  (s.prevPage ≠ none → s.activeFamily = .hvsp ∨ s.activeFamily = .hvpp)

/-- The invariant of the machine. -/
def Inv (s : State) : Prop := Memory.wf s.buf ∧ FramerInv s ∧ SessionInv s

/-- The receive checksum accumulates every byte of the message so far: the header bytes that have arrived, and in the body
phase the header and the body bytes (R25). -/
def ChecksumInv (s : State) : Prop :=
  (s.fs = .header → s.cks = xorAll 0#8 (s.hdr.take s.nread.toNat)) ∧
  (s.fs = .body → s.cks = xorAll 0#8 (s.hdr ++ s.bodyFrom 0 s.nread.toNat)) ∧
  (s.fs = .body → s.hdr.head? = some Config.start ∧ s.hdr.getD 1 0#8 = s.seq ∧
    be16 (s.hdr.getD 2 0#8) (s.hdr.getD 3 0#8) = s.len ∧ s.hdr.getD 4 0#8 = Config.token) ∧
  (s.fs = .header → s.hdr.head? = some Config.start)

/-! ### What one state keeps of another -/

/-- The framer's registers but `FS` and `Buf`, the receive port and the fault mark are the same. -/
def FramerKept (s t : State) : Prop :=
  t.hdr = s.hdr ∧ t.nread = s.nread ∧ t.nwant = s.nwant ∧ t.cks = s.cks ∧ t.seq = s.seq ∧ t.len = s.len ∧
  t.rx = s.rx ∧ t.faultMark = s.faultMark ∧ t.feedResult = s.feedResult

/-- The session registers and the ISP rung are the same; `prevPage` is spoken of apart. -/
def SessionKept (s t : State) : Prop :=
  t.currentAddress = s.currentAddress ∧ t.clockSelector = s.clockSelector ∧ t.controlStack = s.controlStack ∧
  t.activeFamily = s.activeFamily ∧ t.inMode = s.inMode ∧ t.ispRung = s.ispRung

/-- No draw is made between the states: the clock and the inputs are the same. -/
def DrawsKept (s t : State) : Prop :=
  t.clock = s.clock ∧ t.elapsed = s.elapsed ∧ t.ispAnswers = s.ispAnswers ∧ t.hvBytes = s.hvBytes ∧
  t.hvReadies = s.hvReadies ∧ t.tpiFrames = s.tpiFrames ∧ t.drawn = s.drawn

/-- `t` is the expected state `e` in every field but those that the end of an operation writes, `FS`, `Buf`, the transmit stream and
the caller's calls; of them `Answered`, `TimedOut` and `Ended` and their XPROG forms say all. -/
def Kept (e t : State) : Prop :=
  FramerKept e t ∧ SessionKept e t ∧ DrawsKept e t ∧ t.prevPage = e.prevPage ∧ t.trace = e.trace

/-! ### How an operation ends -/

/-- A normal operation ended `Respond(status, data.length)` (41_dispatch.md R142): the data stand in the buffer from index 1 on,
nothing is sent yet, and the dispatch loop's next call is `SendResponse` (R80, R141). -/
def Answered (s t : State) (status : Byte) (data : List Byte) : Prop :=
  t.fs = s.fs ∧ t.tx = s.tx ∧ t.calls = .sendResponse status (BitVec.ofNat 16 (1 + data.length)) :: s.calls ∧
  ∀ a, t.bodyByte a = if 1 ≤ a ∧ a ≤ data.length then data.getD (a - 1) 0#8 else s.bodyByte a

/-- The same of an XPROG operation: the data from index 2 on, and `SendXPROGResponse` (R80, R141). -/
def AnsweredX (s t : State) (status : Byte) (data : List Byte) : Prop :=
  t.fs = s.fs ∧ t.tx = s.tx ∧ t.calls = .sendXprogResponse status (BitVec.ofNat 16 (2 + data.length)) :: s.calls ∧
  ∀ a, t.bodyByte a = if 2 ≤ a ∧ a ≤ data.length + 1 then data.getD (a - 2) 0#8 else s.bodyByte a

/-- A normal operation was aborted by a timeout: its response is sent and no call is owed (42_driver_common.md R176). -/
def TimedOut (s t : State) : Prop :=
  t.fs = .idle ∧ t.tx = s.tx ++ encodeMessage s.seq [Config.stTimeout] ∧ t.calls = s.calls ∧
  ∀ a, t.bodyByte a = if a = 0 then Config.stTimeout else s.bodyByte a

/-- The same of an XPROG operation, whose response leaves `Buf[0]` in place (42_driver_common.md R176, 40_framing.md R125). -/
def TimedOutX (s t : State) : Prop :=
  t.fs = .idle ∧ t.tx = s.tx ++ encodeMessage s.seq [s.bodyByte 0, Config.xstTimeout] ∧ t.calls = s.calls ∧
  ∀ a, t.bodyByte a = if a = 1 then Config.xstTimeout else s.bodyByte a

/-- A normal operation ended with this status and these data. -/
def Ended (s t : State) (status : Status) (data : List Byte) : Prop :=
  match status with
  | .ok => Answered s t Config.stOk data
  | .failed => Answered s t Config.stFailed data
  | .timeout => TimedOut s t

/-- An XPROG operation ended with this status and these data. -/
def EndedX (s t : State) (status : Status) (data : List Byte) : Prop :=
  match status with
  | .ok => AnsweredX s t Config.xstOk data
  | .failed => AnsweredX s t Config.xstFailed data
  | .timeout => TimedOutX s t

/-! ### Families of commands -/

/-- An HV family is active. -/
def HvActive (s : State) : Prop := s.activeFamily = .hvsp ∨ s.activeFamily = .hvpp

/-- The commands that select a family: the only ones that are not routed by it (41_dispatch.md R143). -/
def entersFamily : Instr → Option Family
  | .enterProgmodeIsp _ _ _ _ _ => some .isp
  | .enterProgmodePp _ => some .hvpp
  | .enterProgmodeHvsp _ => some .hvsp
  | .xprgEnterProgmode => some .tpi
  | _ => none

/-- The commands of the XPROG form but XEnter (R144). -/
def isXprogDriver : Instr → Bool
  | .xprgLeaveProgmode | .xprgErase _ _ | .xprgWriteMem _ _ _ _ | .xprgReadMem _ _ _ | .xprgSetParam _ => true
  | _ => false

/-- The commands of the normal form that a driver performs, but the Enters (R144). -/
def isNormalDriver : Instr → Bool
  | .setParameter _ _ | .loadAddress _ | .setControlStack _ => false
  | .enterProgmodeIsp _ _ _ _ _ | .enterProgmodePp _ | .enterProgmodeHvsp _ | .xprgEnterProgmode => false
  | .xprgLeaveProgmode | .xprgErase _ _ | .xprgWriteMem _ _ _ _ | .xprgReadMem _ _ _ | .xprgSetParam _ => false
  | _ => true

/-- The three codes of `Leave` (R84). -/
def isLeave : Instr → Bool
  | .leaveProgmodeIsp _ | .leaveProgmodePp _ | .leaveProgmodeHvsp _ => true
  | _ => false

/-- The memory, `mode`, `timeout` and data of a paged write, in each of the three layouts (R90, R92). -/
def pagedWriteOf : Instr → Option (Mem × Byte × Byte × List Byte)
  | .programFlashIsp mode t _ data | .programFlashPp mode t data | .programFlashHvsp mode t data =>
    some (.flash, mode, t, data)
  | .programEepromIsp mode t _ data | .programEepromPp mode t data | .programEepromHvsp mode t data =>
    some (.eeprom, mode, t, data)
  | _ => none

/-- The memory and the byte count of a paged read, in each of the three layouts (R90, R92). -/
def pagedReadOf : Instr → Option (Mem × Half)
  | .readFlashIsp n _ | .readFlashPp n | .readFlashHvsp n => some (.flash, n)
  | .readEepromIsp n _ | .readEepromPp n | .readEepromHvsp n => some (.eeprom, n)
  | _ => none

/-- The memory and the count of data bytes of a paged command. -/
def pagedOf : Instr → Option (Mem × Nat)
  | .programFlashIsp _ _ _ data | .programFlashPp _ _ data | .programFlashHvsp _ _ data => some (.flash, data.length)
  | .programEepromIsp _ _ _ data | .programEepromPp _ _ data | .programEepromHvsp _ _ data =>
    some (.eeprom, data.length)
  | .readFlashIsp n _ | .readFlashPp n | .readFlashHvsp n => some (.flash, n.toNat)
  | .readEepromIsp n _ | .readEepromPp n | .readEepromHvsp n => some (.eeprom, n.toNat)
  | _ => none

/-- The `timeout` of a chip erase, which every layout carries (R153). -/
def chipEraseTimeoutOf : Instr → Option Byte
  | .chipEraseIsp t _ _ | .chipErasePp _ t | .chipEraseHvsp t _ => some t
  | _ => none

/-- `which`, `value` and `timeout` of a fuse write in an HV layout (R91, R93). -/
def hvFuseWriteOf : Instr → Option (Byte × Byte × Byte)
  | .programFusePp which value _ t | .programFuseHvsp which value t => some (which, value, t)
  | _ => none

/-- `value` and `timeout` of a lock write in an HV layout (R91, R93). -/
def hvLockWriteOf : Instr → Option (Byte × Byte)
  | .programLockPp _ value _ t | .programLockHvsp _ value t => some (value, t)
  | _ => none

/-- `which` of a fuse read in an HV layout (R91, R93). -/
def hvFuseReadOf : Instr → Option Byte
  | .readFusePp which | .readFuseHvsp which => some which
  | _ => none

/-- The lock reads: the HV driver uses no operand of any layout (R153, R233). -/
def isLockRead : Instr → Bool
  | .readLockIsp _ _ | .readLockPp _ | .readLockHvsp _ => true
  | _ => false

/-- `which` of a signature read in an HV layout (R91, R93). -/
def hvSignatureReadOf : Instr → Option Byte
  | .readSignaturePp which | .readSignatureHvsp which => some which
  | _ => none

/-- `which` of a calibration read in an HV layout (R91, R93). -/
def hvOsccalReadOf : Instr → Option Byte
  | .readOsccalPp which | .readOsccalHvsp which => some which
  | _ => none

/-- The transaction of a fuse or lock write in the ISP layout (R89). -/
def ispConfigWriteOf : Instr → Option Quad
  | .programFuseIsp c | .programLockIsp c => some c
  | _ => none

/-- The return index and the transaction of a fuse, lock, signature or calibration read in the ISP layout (R89). -/
def ispConfigReadOf : Instr → Option (Byte × Quad)
  | .readFuseIsp i c | .readLockIsp i c | .readSignatureIsp i c | .readOsccalIsp i c => some (i, c)
  | _ => none

/-- The commands whose layout lacks an operand the driver of the family uses (41_dispatch.md R153). -/
def layoutMismatch : Family → Instr → Bool
  | .isp, .chipErasePp _ _ | .isp, .chipEraseHvsp _ _ | .isp, .programFusePp _ _ _ _ | .isp, .programFuseHvsp _ _ _
  | .isp, .programLockPp _ _ _ _ | .isp, .programLockHvsp _ _ _ | .isp, .readFusePp _ | .isp, .readFuseHvsp _
  | .isp, .readLockPp _ | .isp, .readLockHvsp _ | .isp, .readSignaturePp _ | .isp, .readSignatureHvsp _
  | .isp, .readOsccalPp _ | .isp, .readOsccalHvsp _ => true
  | .hvsp, .programFuseIsp _ | .hvsp, .programLockIsp _ | .hvsp, .readFuseIsp _ _ | .hvsp, .readSignatureIsp _ _
  | .hvsp, .readOsccalIsp _ _ => true
  | .hvpp, .programFuseIsp _ | .hvpp, .programLockIsp _ | .hvpp, .readFuseIsp _ _ | .hvpp, .readSignatureIsp _ _
  | .hvpp, .readOsccalIsp _ _ => true
  | _, _ => false

/-! ### Requests, from the maps and layouts -/

/-- The codes that `OpMap` has an operation for (R84). -/
def opMapCodes : List Byte :=
  [0x02#8, 0x06#8, 0x10#8, 0x11#8, 0x12#8, 0x13#8, 0x14#8, 0x15#8, 0x16#8, 0x17#8, 0x18#8, 0x19#8, 0x1A#8, 0x1B#8, 0x1C#8,
    0x20#8, 0x21#8, 0x22#8, 0x23#8, 0x24#8, 0x25#8, 0x26#8, 0x27#8, 0x28#8, 0x29#8, 0x2A#8, 0x2B#8, 0x2C#8, 0x2D#8,
    0x30#8, 0x31#8, 0x32#8, 0x33#8, 0x34#8, 0x35#8, 0x36#8, 0x37#8, 0x38#8, 0x39#8, 0x3A#8, 0x3B#8, 0x3C#8]

/-- The sub-codes that `XOpMap` has an operation for (R85). -/
def xOpMapCodes : List Byte := [0x01#8, 0x02#8, 0x03#8, 0x04#8, 0x05#8, 0x07#8]

/-- The least `LEN` of a code's layout, without the data of a counted command (R88 to R93). -/
def leastLength (code : Byte) : Nat :=
  match code.toNat with
  | 0x02 => 3
  | 0x06 => 5
  | 0x10 => 12
  | 0x12 => 7
  | 0x13 | 0x15 => 10
  | 0x14 | 0x16 => 3
  | 0x17 | 0x19 => 5
  | 0x18 | 0x1A | 0x1B | 0x1C => 6
  | 0x22 => 3
  | 0x23 | 0x25 | 0x33 | 0x35 => 5
  | 0x24 | 0x26 | 0x34 | 0x36 => 3
  | 0x27 | 0x29 => 5
  | 0x28 | 0x2A | 0x2B | 0x2C | 0x38 | 0x3A | 0x3B | 0x3C => 2
  | 0x2D => 33
  | 0x32 => 2
  | 0x37 | 0x39 => 4
  | _ => 1

/-- The least `LEN` of a sub-code's layout, without the data of XWriteMem (R94). -/
def xLeastLength (sub : Byte) : Nat :=
  match sub.toNat with
  | 0x03 => 7
  | 0x04 => 10
  | 0x05 => 9
  | _ => 2

/-- The body index at which the data of a counted command begin (R90, R92). -/
def dataBase (code : Byte) : Option Nat :=
  match code.toNat with
  | 0x13 | 0x15 => some 10
  | 0x23 | 0x25 | 0x33 | 0x35 => some 5
  | _ => none

/-- The two paged reads, which R170 excepts from the invalidation of the previous page. -/
def isPagedRead : Instr → Bool
  | .readFlashIsp _ _ | .readEepromIsp _ _ | .readFlashPp _ | .readEepromPp _ | .readFlashHvsp _ | .readEepromHvsp _ => true
  | _ => false

/-- The `Unmodelled` fault a command's own operands give, whatever the state (60_exceptions.md R297, R298, log 14); of a read count both
too large and odd it is `countTooLarge` (DESIGN CHOICE, log 25). -/
def operandFault : Instr → Option Fault
  | .enterProgmodeIsp _ _ _ i _ => if 1 ≤ i.toNat ∧ i.toNat ≤ 4 then none else some .ispPollIndex
  | .readFuseIsp i _ | .readLockIsp i _ | .readSignatureIsp i _ | .readOsccalIsp i _ =>
    if 1 ≤ i.toNat ∧ i.toNat ≤ 4 then none else some .ispReturnIndex
  | .programFlashIsp _ _ _ d | .programFlashPp _ _ d | .programFlashHvsp _ _ d =>
    if d.length % 2 = 1 then some .oddFlashCount else none
  | .readFlashIsp n _ | .readFlashPp n | .readFlashHvsp n =>
    if 275 < 1 + n.toNat then some .countTooLarge else if n.toNat % 2 = 1 then some .oddFlashCount else none
  | .readEepromIsp n _ | .readEepromPp n | .readEepromHvsp n => if 275 < 1 + n.toNat then some .countTooLarge else none
  | .xprgReadMem _ _ n => if 275 < 2 + n.toNat then some .countTooLarge else none
  | .setControlStack stack => if stack.length = 32 then none else some .shortRequest
  | _ => none

/-! ### Events of the paged transfers, from the rules -/

/-- The HVPP pattern of a signal and select, none for HVSP (R101, R222, R223). -/
def patternIn (f : Family) (cs : List Byte) (sig : Nat) (sel : Nat) : Option Byte :=
  if f = .hvpp then some (cs.getD (4 * sig + sel) 0#8) else none

/-- The events of the units of an HV flash write from address `a` on (44_hv.md R228). -/
def hvFlashUnits (p : Nat → Nat → Option Byte) : Word → List Byte → List Event
  | a, lo :: hi :: rest =>
    .hvLoad .loadAddr .low (byteOf a 0) (p 0 0) :: .hvLoad .loadData .low lo (p 1 0) ::
    .hvLoad .loadData .high hi (p 1 1) :: .hvStrobe .pageLoad .low (p 5 0) :: hvFlashUnits p (a + 1#32) rest
  | _, _ => []

/-- The events of the units of an HV EEPROM write from address `a` on (44_hv.md R228). -/
def hvEepromUnits (p : Nat → Nat → Option Byte) : Word → List Byte → List Event
  | a, b :: rest =>
    .hvLoad .loadAddr .low (byteOf a 0) (p 0 0) :: .hvLoad .loadData .low b (p 1 0) ::
    .hvStrobe .pageLoad .low (p 5 0) :: hvEepromUnits p (a + 1#32) rest
  | _, [] => []

/-- The events that latch the high-order bits of an address: HIGH, and EXT where the parameter `NeedExt` holds (R228). -/
def hvHighEvents (p : Nat → Nat → Option Byte) (a : Word) : List Event :=
  .hvLoad .loadAddr .high (byteOf a 1) (p 0 1) ::
    (if Config.needExt a then [.hvLoad .loadAddr .ext (byteOf a 2) (p 0 2)] else [])

/-- The events of a paged HV read of `u` units from address `a` on with the cache holding `c`, each unit read with the given
events after its low-order address (44_hv.md R229). -/
def hvReadEvents (p : Nat → Nat → Option Byte) (mem : Mem) (reads : List Event) : Nat → Word → Option PageKey → List Event
  | 0, _, _ => []
  | u + 1, a, c =>
    (if c = some ⟨mem, a.extractLsb' 8 16⟩ then [] else hvHighEvents p a) ++
    .hvLoad .loadAddr .low (byteOf a 0) (p 0 0) :: reads ++
    hvReadEvents p mem reads u (a + 1#32) (some ⟨mem, a.extractLsb' 8 16⟩)

/-- The address after `ExtCheck`: bits 31:24 equal bits 23:16 (43_isp.md R192). -/
def extAddress (a : Word) : Word := byteOf a 2 ++ a.extractLsb' 0 24

/-- The event of `ExtCheck` at an address: one LOAD_EXT where bits 31:24 differ from bits 23:16 (43_isp.md R192, R97). -/
def extEvents (rung : Nat) (a : Word) : List Event :=
  if byteOf a 3 = byteOf a 2 then [] else [.ispXfer rung ⟨Config.ispLoadExt, 0x00#8, byteOf a 2, 0x00#8⟩]

/-- The events of the units of an ISP flash write from address `a` on (43_isp.md R198). -/
def ispFlashUnits (rung : Nat) : Word → List Byte → List Event
  | a, lo :: hi :: rest =>
    extEvents rung a ++
    .ispXfer rung ⟨Config.ispLoadFlashLo, byteOf a 1, byteOf a 0, lo⟩ ::
    .ispXfer rung ⟨Config.ispLoadFlashHi, byteOf a 1, byteOf a 0, hi⟩ ::
    ispFlashUnits rung (extAddress a + 1#32) rest
  | _, _ => []

/-- The address after `u` units of an ISP flash transfer: each unit checks the extended byte, then steps (R192, R193). -/
def ispFlashAddress : Nat → Word → Word
  | 0, a => a
  | u + 1, a => ispFlashAddress u (extAddress a + 1#32)

/-- The events of the units of an ISP flash read from address `a` on (43_isp.md R199). -/
def ispFlashReads (rung : Nat) : Nat → Word → List Event
  | 0, _ => []
  | u + 1, a =>
    extEvents rung a ++
    .ispXfer rung ⟨Config.ispReadFlashLo, byteOf a 1, byteOf a 0, 0x00#8⟩ ::
    .ispXfer rung ⟨Config.ispReadFlashHi, byteOf a 1, byteOf a 0, 0x00#8⟩ ::
    ispFlashReads rung u (extAddress a + 1#32)

/-- Which of the coming answers hold the data bytes of an ISP flash read of `u` units from address `a` on, with `j` answers drawn
before: two for each unit, and the answer to a LOAD_EXT is passed over (43_isp.md R192, R199). -/
def ispFlashPlaces : Nat → Word → Nat → List Nat
  | 0, _, _ => []
  | u + 1, a, j =>
    let k := if byteOf a 3 = byteOf a 2 then j else j + 1
    k :: (k + 1) :: ispFlashPlaces u (extAddress a + 1#32) (k + 2)

/-- How many answers an ISP flash transfer of `u` units from address `a` on draws (43_isp.md R192, R199). -/
def ispFlashAnswers : Nat → Word → Nat
  | 0, _ => 0
  | u + 1, a => (if byteOf a 3 = byteOf a 2 then 2 else 3) + ispFlashAnswers u (extAddress a + 1#32)

/-- The events of the units of an ISP EEPROM write from address `a` on (43_isp.md R200). -/
def ispEepromUnits (rung : Nat) : Word → List Byte → List Event
  | a, b :: rest => .ispXfer rung ⟨Config.ispLoadEepromPage, byteOf a 1, byteOf a 0, b⟩ :: ispEepromUnits rung (a + 1#32) rest
  | _, [] => []

/-- The events of the units of an ISP EEPROM read from address `a` on (43_isp.md R201). -/
def ispEepromReads (rung : Nat) : Nat → Word → List Event
  | 0, _ => []
  | u + 1, a => .ispXfer rung ⟨Config.ispReadEeprom, byteOf a 1, byteOf a 0, 0x00#8⟩ :: ispEepromReads rung u (a + 1#32)

/-- The events of an XWriteMem of these bytes from address `a` on, with the count `i` of bytes written before, where the polls take
these numbers of samples: a poll after each second byte and after the last (45_tpi.md R270). -/
def tpiWriteEvents : List Nat → Nat → Word → List Byte → List Event
  | _, _, _, [] => []
  | ks, i, a, b :: rest =>
    if i % 2 = 1 ∨ rest = [] then
      .tpiWrite a b :: List.replicate (ks.headD 0) .tpiBusy ++ tpiWriteEvents ks.tail (i + 1) (a + 1#32) rest
    else .tpiWrite a b :: tpiWriteEvents ks (i + 1) (a + 1#32) rest

/-- The events of an XReadMem of `n` bytes from address `a` on (45_tpi.md R271). -/
def tpiReadEvents : Nat → Word → List Event
  | 0, _ => []
  | n + 1, a => .tpiRead a :: tpiReadEvents n (a + 1#32)

/-- The busy polls of an XWriteMem of `n` bytes: one after each unit of two and one after an odd last byte (R270, D41). -/
def tpiPolls (n : Nat) : Nat := (n + 1) / 2

/-- The time that passes in a list of readings, in milliseconds. -/
def msSum (es : List Millis) : Nat := (es.map BitVec.toNat).sum

/-! ### Polls, from the rules -/

/-- Whether an ISP answer shows a ready target (30_encoding.md R99). -/
def ispReadyBit (r : Quad) : Bool := r.b4.getLsbD 0 == false

/-- Whether a TPI frame shows a ready target: right parity and bit 7 of its byte clear (45_tpi.md R263, R265). -/
def tpiReadyBit (f : Frame) : Bool := tpiDecode f != .invalid && f.getLsbD 8 == false

/-- The coming ready samples of the active family, as far as the inputs list them (42_driver_common.md R173). -/
def samplesOf (s : State) : List Bool :=
  match s.activeFamily with
  | .isp => s.ispAnswers.map ispReadyBit
  | .hvsp | .hvpp => s.hvReadies
  | .tpi => s.tpiFrames.map tpiReadyBit

/-- The event of one ready sample of the active family (R173). -/
def sampleEventOf (s : State) : Event :=
  match s.activeFamily with
  | .isp => .ispXfer s.ispRung ⟨Config.ispPoll, 0x00#8, 0x00#8, 0x00#8⟩
  | .hvsp | .hvpp => .hvReady
  | .tpi => .tpiBusy

/-- A poll with this timeout takes `k` samples: all but the last are busy and the last one is `ready`. The first listed time is
of the reading that starts the poll; the ones after it are of the readings after the busy samples, and only the last of
those may reach the timeout, and does where the poll ends busy (42_driver_common.md R171, R172, R174). -/
def PollEnds (samples : List Bool) (elapsed : List Millis) (timeout : Nat) (ready : Bool) (k : Nat) : Prop :=
  1 ≤ k ∧ samples.take k = List.replicate (k - 1) false ++ [ready] ∧
  (if ready then k else k + 1) ≤ elapsed.length ∧
  (k = 1 ∨ msSum (elapsed.tail.take (k - 1)) < timeout) ∧
  (ready = false → timeout ≤ msSum (elapsed.tail.take k))

/-- Polls one after another, each with this timeout and each ready, that take these numbers of samples. -/
def PollsReady (samples : List Bool) (elapsed : List Millis) (timeout : Nat) : List Nat → Prop
  | [] => True
  | k :: ks =>
    PollEnds samples elapsed timeout true k ∧ PollsReady (samples.drop k) (elapsed.drop k) timeout ks

/-- The state after such a poll: `k` samples in TRACE, and the draws of the samples and of the clock readings made. -/
def afterPoll (ready : Bool) (k : Nat) (s : State) : State :=
  let readings := if ready then k else k + 1
  { s with
    trace := s.trace ++ List.replicate k (sampleEventOf s)
    clock := s.clock + BitVec.ofNat 32 (msSum (s.elapsed.take readings))
    elapsed := s.elapsed.drop readings
    ispAnswers := if s.activeFamily = .isp then s.ispAnswers.drop k else s.ispAnswers
    hvReadies := if s.activeFamily = .hvsp ∨ s.activeFamily = .hvpp then s.hvReadies.drop k else s.hvReadies
    tpiFrames := if s.activeFamily = .tpi then s.tpiFrames.drop k else s.tpiFrames
    drawn := s.drawn + k + readings }

end Sys2Proof.Machine
end

