-- ==== Sys2Proof/WellFormed.lean ====
section
/-! DEFINITION. What a host command must satisfy to be sent: each list has a length its layout has room for, and the whole
body fits in `BODY_MAX` bytes (30_encoding.md R74, R88 to R94). Values of the fields that the spec gives a fault or a
failed status (an odd flash count, an ISP index outside 1..4, a count too large to answer, a fuse index past 2) are
well formed: their meanings say what happens. -/

namespace Sys2Proof

/-- Data of a command whose layout puts them at body index `base` fit in the body buffer. -/
def dataFits (base : Nat) (data : List Byte) : Bool := base + data.length ≤ Config.bodyMax

/-- The checks of each layout. -/
def Instr.wf : Instr → Bool
  | .setControlStack stack => stack.length == Config.csLen
  | .leaveProgmodeIsp delays => delays.length ≤ 2
  | .leaveProgmodePp delays => delays.length ≤ 2
  | .leaveProgmodeHvsp delays => delays.length ≤ 2
  | .enterProgmodePp delays => delays.length ≤ 7
  | .enterProgmodeHvsp delays => delays.length ≤ 8
  | .programFlashIsp _ _ ignored data => ignored.length == 5 && dataFits 10 data
  | .programEepromIsp _ _ ignored data => ignored.length == 5 && dataFits 10 data
  | .programFlashPp _ _ data => dataFits 5 data
  | .programEepromPp _ _ data => dataFits 5 data
  | .programFlashHvsp _ _ data => dataFits 5 data
  | .programEepromHvsp _ _ data => dataFits 5 data
  | .xprgWriteMem _ _ _ data => dataFits 10 data
  | .xprgSetParam params => dataFits 2 params
  | .setParameter _ _ | .loadAddress _ | .enterProgmodeIsp _ _ _ _ _ | .chipEraseIsp _ _ _ | .readFlashIsp _ _
  | .readEepromIsp _ _ | .programFuseIsp _ | .readFuseIsp _ _ | .programLockIsp _ | .readLockIsp _ _
  | .readSignatureIsp _ _ | .readOsccalIsp _ _ | .chipErasePp _ _ | .readFlashPp _ | .readEepromPp _
  | .programFusePp _ _ _ _ | .readFusePp _ | .programLockPp _ _ _ _ | .readLockPp _ | .readSignaturePp _
  | .readOsccalPp _ | .chipEraseHvsp _ _ | .readFlashHvsp _ | .readEepromHvsp _ | .programFuseHvsp _ _ _
  | .readFuseHvsp _ | .programLockHvsp _ _ _ | .readLockHvsp _ | .readSignatureHvsp _ | .readOsccalHvsp _
  | .xprgEnterProgmode | .xprgLeaveProgmode | .xprgErase _ _ | .xprgReadMem _ _ _ => true

end Sys2Proof
end

