-- ==== Sys2Proof/Certificates/Slice0/Obligations.lean ====
section
/-! DEFINITION. The statements for the provers: what the rules of spec/ say the framer, the dispatch and each command do. In each
statement about a command the expected state is written out, and `Kept` says that the next state is that state in every field
but `FS`, `Buf`, the transmit stream and the caller's calls, of which `Answered`, `TimedOut` or `Ended`, or its XPROG form, says
all: an operation that ends `Respond` sends nothing yet and leaves its response to the loop's next call, one aborted by a timeout
has sent its own (00_scope.md R11, 41_dispatch.md R141, R142, 42_driver_common.md R176). The parameters of 00_scope.md R7 are named
as `Config.…`; their values are the reference configuration's (PRESUMED, log 1 and log 3), and one statement lists them. The
lists of coming answers and times, the calls and the count `drawn` are the model's own fields (log 6, log 7, log 10). -/

section
open Sys2Proof Sys2Proof.Machine

/-! ### Encoding and decoding -/

/-- Decoding the body of a well-formed command gives the command back, whatever the buffer held before (30_encoding.md R81,
R84, R85, R88 to R94; the codes and layouts are PRESUMED, log 1 and log 2). -/
def Obligations.DecodeOfEncode : Prop :=
  ∀ (i : Instr) (stale : Byte), i.wf = true → decodeRequest stale (encode i) = .instr i

/-- A request that decodes to a command is a well-formed command, and begins with the bytes of that command's encoding: no bit of a
field is read as another. A request of no bytes is a command only where the stale code alone encodes it (30_encoding.md R81, R88 to
R94; the codes and layouts are PRESUMED, log 1 and log 2). -/
def Obligations.DecodeAcceptsOnlyEncodings : Prop :=
  ∀ (stale : Byte) (body : List Byte) (i : Instr), body.length ≤ 275 → decodeRequest stale body = .instr i →
    i.wf = true ∧ (encode i <+: body ∨ body = [] ∧ encode i = [stale])

/-- Five request bodies decode to the commands they stand for: the address of the example of 41_dispatch.md R146, and four bodies of
95_test_vectors.md (the codes and layouts are PRESUMED, log 1 and log 2). -/
def Obligations.SpecRequestsDecode : Prop :=
  decodeRequest 0x00#8 [0x06#8, 0x80#8, 0x00#8, 0x01#8, 0x00#8] = .instr (.loadAddress 0x80000100#32) ∧
  decodeRequest 0x00#8 [0x1B#8, 0x04#8, 0x30#8, 0x00#8, 0x00#8, 0x00#8]
    = .instr (.readSignatureIsp 0x04#8 ⟨0x30#8, 0x00#8, 0x00#8, 0x00#8⟩) ∧
  decodeRequest 0x00#8 [0x23#8, 0x00#8, 0x04#8, 0x80#8, 0x0A#8, 0x11#8, 0x22#8, 0x33#8, 0x44#8]
    = .instr (.programFlashPp 0x80#8 0x0A#8 [0x11#8, 0x22#8, 0x33#8, 0x44#8]) ∧
  decodeRequest 0x00#8 [0x37#8, 0x01#8, 0xDF#8, 0x0A#8] = .instr (.programFuseHvsp 0x01#8 0xDF#8 0x0A#8) ∧
  decodeRequest 0x00#8 [0x50#8, 0x05#8, 0x01#8, 0x00#8, 0x00#8, 0x3F#8, 0xC0#8, 0x00#8, 0x03#8]
    = .instr (.xprgReadMem 0x01#8 0x00003FC0#32 0x0003#16)

/-- Which requests have no operation: a code or an XPROG sub-code that its map has no entry for, XPROG_CMD alone, and a request of
no bytes whose stale code `OpMap` lacks. Every code of the maps has one, so that no request of such a code is unknown, a request of
no bytes with such a stale code among them (30_encoding.md R81, R84, R85, R86; the codes are PRESUMED, log 1). -/
def Obligations.UnknownRequests : Prop :=
  (∀ (stale code : Byte) (args : List Byte), code ∉ opMapCodes → code ≠ 0x50#8 →
    decodeRequest stale (code :: args) = .unknown false) ∧
  (∀ stale : Byte, decodeRequest stale [0x50#8] = .unknown true) ∧
  (∀ (stale sub : Byte) (args : List Byte), sub ∉ xOpMapCodes →
    decodeRequest stale (0x50#8 :: sub :: args) = .unknown true) ∧
  (∀ stale : Byte, (decodeRequest stale [] = .unknown false ↔ stale ∉ opMapCodes) ∧ decodeRequest stale [] ≠ .unknown true) ∧
  (∀ (stale code : Byte) (args : List Byte) (x : Bool), code ∈ opMapCodes →
    decodeRequest stale (code :: args) ≠ .unknown x) ∧
  (∀ (stale sub : Byte) (args : List Byte) (x : Bool), sub ∈ xOpMapCodes →
    decodeRequest stale (0x50#8 :: sub :: args) ≠ .unknown x)

/-- Which requests are too short for their layout, and which name more data than they carry (41_dispatch.md R151 with the layouts
R88 to R94, which are PRESUMED, log 2). A request of no bytes has its stale code: the two `Leave` codes whose layouts state no least
length run, and every other code of `OpMap` is too short; that the ones whose layouts state `LEN ≥ 1` and read no argument are short is
the model's reading of R89, R91, R93 and R151 (DEDUCED, log 15). That a request both short and over-counted is short, and a flash write
count both odd and more than is carried is too large, is the model's choice of the order of the reasons (DESIGN CHOICE, log 25). -/
def Obligations.ShortRequests : Prop :=
  (∀ stale : Byte, decodeRequest stale [] = .shortRequest ↔ stale ∈ opMapCodes ∧ stale ≠ 0x21#8 ∧ stale ≠ 0x31#8) ∧
  (decodeRequest 0x21#8 [] = .instr (.leaveProgmodePp []) ∧ decodeRequest 0x31#8 [] = .instr (.leaveProgmodeHvsp [])) ∧
  (∀ (stale code : Byte) (args : List Byte), code ∈ opMapCodes →
    (decodeRequest stale (code :: args) = .shortRequest ↔ args.length + 1 < leastLength code)) ∧
  (∀ (stale sub : Byte) (args : List Byte), sub ∈ xOpMapCodes →
    (decodeRequest stale (0x50#8 :: sub :: args) = .shortRequest ↔ args.length + 2 < xLeastLength sub)) ∧
  (∀ (stale code nh nl : Byte) (rest : List Byte) (base : Nat), dataBase code = some base → base ≤ rest.length + 3 →
    (decodeRequest stale (code :: nh :: nl :: rest) = .countTooLarge ↔ rest.length + 3 < base + (nh ++ nl).toNat)) ∧
  (∀ (stale m p a b c d nh nl : Byte) (rest : List Byte),
    (decodeRequest stale (0x50#8 :: 0x04#8 :: m :: p :: a :: b :: c :: d :: nh :: nl :: rest) = .countTooLarge ↔
      rest.length < (nh ++ nl).toNat))

/-- The numerals of the reference configuration, which the other statements name as parameters: the model's argument and no claim
of the source (00_scope.md R7; PRESUMED, log 1 and log 3). -/
def Obligations.ReferenceConfiguration : Prop :=
  (Config.start = 0x1B#8 ∧ Config.token = 0x0E#8 ∧ Config.xprogCmd = 0x50#8 ∧ Config.paramClock = 0x98#8) ∧
  (Config.stOk = 0x00#8 ∧ Config.stFailed = 0xC0#8 ∧ Config.stCksum = 0xC1#8 ∧ Config.stTimeout = 0x81#8) ∧
  (Config.xstOk = 0x00#8 ∧ Config.xstFailed = 0x01#8 ∧ Config.xstTimeout = 0x03#8) ∧
  (Config.ispLoadFlashLo = 0x40#8 ∧ Config.ispLoadFlashHi = 0x48#8 ∧ Config.ispWriteFlashPage = 0x4C#8 ∧
    Config.ispReadFlashLo = 0x20#8 ∧ Config.ispReadFlashHi = 0x28#8 ∧ Config.ispLoadExt = 0x4D#8 ∧
    Config.ispLoadEepromPage = 0xC1#8 ∧ Config.ispWriteEepromPage = 0xC2#8 ∧ Config.ispReadEeprom = 0xA0#8 ∧
    Config.ispPoll = 0xF0#8) ∧
  (Config.hvChipErase = 0x80#8 ∧ Config.hvWriteFuse = 0x40#8 ∧ Config.hvWriteLock = 0x20#8 ∧
    Config.hvWriteFlash = 0x10#8 ∧ Config.hvWriteEeprom = 0x11#8 ∧ Config.hvReadSigCal = 0x08#8 ∧
    Config.hvReadFuseLock = 0x04#8 ∧ Config.hvReadFlash = 0x02#8 ∧ Config.hvReadEeprom = 0x03#8) ∧
  (Config.tpiId = 0x80#8 ∧ Config.nvmChipErase = 0x10#8 ∧ Config.nvmSectionErase = 0x14#8 ∧
    Config.nvmWordWrite = 0x1D#8 ∧ Config.tpiTimeout = 100#16 ∧ Config.tpiWriteUnit = 2 ∧ Config.ispLadder = 3) ∧
  (∀ a : Word, Config.needExt a = a.getLsbD 23)

/-! ### The framer -/

/-- `FeedByte` in `Idle`: a byte that is not the start marker is discarded; the start marker opens a message (40_framing.md R113,
R114). -/
def Obligations.FeedByteIdle : Prop :=
  ∀ (s : State) (b : Byte) (rest : List Byte), s.fs = .idle → s.rx = b :: rest →
    (b ≠ Config.start → feedByte s = .next { s with rx := rest, feedResult := some .headerError }) ∧
    (b = Config.start → feedByte s = .next { s with
      rx := rest, hdr := s.hdr.set 0 Config.start, cks := Config.start, nread := 1#16, nwant := 5#16, fs := .header,
      feedResult := some .incomplete })

/-- `FeedByte` in `Header`: the second to fourth byte, and the fifth one rejected for the token, rejected for the length, or
accepted (40_framing.md R115, R116, R117). -/
def Obligations.FeedByteHeader : Prop :=
  ∀ (s : State) (b : Byte) (rest : List Byte), s.fs = .header → s.rx = b :: rest → s.hdr.length = 5 →
    s.nwant = 5#16 → s.nread.toNat < 5 →
    let h := s.hdr.set s.nread.toNat b
    let e := { s with rx := rest, hdr := h, cks := s.cks ^^^ b, nread := s.nread + 1#16 }
    let l : Half := s.hdr.getD 2 0x00#8 ++ s.hdr.getD 3 0x00#8
    (s.nread.toNat < 4 → feedByte s = .next { e with feedResult := some .incomplete }) ∧
    (s.nread.toNat = 4 → b ≠ Config.token → feedByte s = .next { e with fs := .idle, feedResult := some .headerError }) ∧
    (s.nread.toNat = 4 → b = Config.token → 275 < l.toNat →
      feedByte s = .next { e with fs := .idle, feedResult := some .headerError }) ∧
    (s.nread.toNat = 4 → b = Config.token → l.toNat ≤ 275 → feedByte s = .next { e with
      seq := s.hdr.getD 1 0x00#8, len := l, nread := 0#16, nwant := l + 1#16, fs := .body,
      feedResult := some .incomplete })

/-- `FeedByte` in `Body`: a body byte is stored, the last byte is not; a good checksum completes the request, a bad one is answered
inside the step (40_framing.md R118, R119, R120). -/
def Obligations.FeedByteBody : Prop :=
  ∀ (s : State) (b : Byte) (rest : List Byte), s.fs = .body → s.rx = b :: rest → s.len.toNat ≤ 275 →
    s.nwant = s.len + 1#16 → s.nread.toNat ≤ s.len.toNat →
    (s.nread.toNat < s.len.toNat → ∃ t, feedByte s = .next t ∧
      t = { s with
        rx := rest, buf := t.buf, cks := s.cks ^^^ b, nread := s.nread + 1#16, feedResult := some .incomplete } ∧
      ∀ a, t.bodyByte a = if a = s.nread.toNat then b else s.bodyByte a) ∧
    (s.nread = s.len → s.cks ^^^ b = 0x00#8 → feedByte s = .next { s with
      rx := rest, cks := 0x00#8, nread := s.nread + 1#16, fs := .complete,
      feedResult := some (.command (s.bodyByte 0)) }) ∧
    (s.nread = s.len → s.cks ^^^ b ≠ 0x00#8 → ∃ t, feedByte s = .next t ∧
      t = { s with
        rx := rest, buf := t.buf, cks := s.cks ^^^ b, nread := s.nread + 1#16, fs := .idle,
        tx := s.tx ++ encodeMessage s.seq [Config.stCksum], feedResult := some .checksumError } ∧
      ∀ a, t.bodyByte a = if a = 0 then Config.stCksum else s.bodyByte a)

/-- `FeedByte` with an empty port changes nothing but what it returns; in `Complete` it has no meaning (40_framing.md R111,
R112). -/
def Obligations.FeedByteWaits : Prop :=
  ∀ s : State,
    (s.fs ≠ .complete → s.rx = [] → feedByte s = .next { s with feedResult := some .incomplete }) ∧
    (s.fs = .complete → feedByte s = .fault .feedWhileComplete)

/-- A header error changes `FS`, `HDR`, `NREAD`, `NWANT` and `CKS` and takes one byte, and nothing else: nothing is sent, and no
session register, `SEQ`, `LEN` or buffer byte changes (60_exceptions.md R293). -/
def Obligations.HeaderErrorChangesOnly : Prop :=
  ∀ s t : State, feedByte s = .next t → t.feedResult = some .headerError →
    ∃ b rest, s.rx = b :: rest ∧ t = { s with
      fs := .idle, hdr := t.hdr, nread := t.nread, nwant := t.nwant, cks := t.cks, rx := rest,
      feedResult := some .headerError }

/-- A checksum error changes `Buf[0]`, `FS`, `CKS`, `NREAD` and `HDR`, takes one byte and sends exactly one response with the
request's sequence number, and nothing else: no session register changes and no transaction is made (60_exceptions.md R294). -/
def Obligations.ChecksumErrorChangesOnly : Prop :=
  ∀ s t : State, FramerInv s → feedByte s = .next t → t.feedResult = some .checksumError →
    ∃ b rest, s.rx = b :: rest ∧ t = { s with
      fs := .idle, buf := t.buf, hdr := t.hdr, nread := t.nread, cks := t.cks, rx := rest,
      tx := s.tx ++ encodeMessage s.seq [Config.stCksum], feedResult := some .checksumError } ∧
    ∀ a, t.bodyByte a = if a = 0 then Config.stCksum else s.bodyByte a

/-- Round trip: a message fed to an engine in `Idle` is `Incomplete` until its last byte and is then reported with its sequence
number and body; nothing else of the buffer or the session changes (40_framing.md R126). -/
def Obligations.MessageRoundTrip : Prop :=
  ∀ (s : State) (seq : Byte) (body more : List Byte), s.fs = .idle → s.faultMark = none → s.calls = [] →
    s.hdr.length = 5 → body.length ≤ 275 → s.rx = encodeMessage seq body ++ more →
    (∀ k, 1 ≤ k → k < body.length + 6 →
      ∃ u : State, Sys2Proof.core.run k s = .next u ∧ u.feedResult = some .incomplete) ∧
    ∃ t : State, Sys2Proof.core.run (body.length + 6) s = .next t ∧
      t.fs = .complete ∧ t.feedResult = some (.command (t.bodyByte 0)) ∧
      t.seq = seq ∧ t.len.toNat = body.length ∧ t.bodyFrom 0 body.length = body ∧
      (∀ a, body.length ≤ a → t.bodyByte a = s.bodyByte a) ∧
      t.rx = more ∧ t.tx = s.tx ∧ SessionKept s t ∧ DrawsKept s t ∧ t.prevPage = s.prevPage ∧ t.trace = s.trace

/-- Corruption: one changed byte of a valid message. A changed body, checksum or sequence byte is a checksum error, answered and
never accepted; a changed start or token byte, or a length byte that makes the length exceed 275, is a header error that sends
nothing; another changed length changes the framing (40_framing.md R127). -/
def Obligations.CorruptionDetected : Prop :=
  ∀ (s : State) (seq : Byte) (body more : List Byte) (j : Nat) (b : Byte),
    s.fs = .idle → s.faultMark = none → s.calls = [] → s.hdr.length = 5 → body.length ≤ 275 →
    j < body.length + 6 → (encodeMessage seq body)[j]? ≠ some b →
    s.rx = (encodeMessage seq body).set j b ++ more →
    let l : Half := (if j = 2 then b else hiByte (countOf body)) ++ (if j = 3 then b else loByte (countOf body))
    (j = 1 ∨ 5 ≤ j → ∃ t : State, Sys2Proof.core.run (body.length + 6) s = .next t ∧
      t.feedResult = some .checksumError ∧ t.fs = .idle ∧ t.rx = more ∧
      t.tx = s.tx ++ encodeMessage (if j = 1 then b else seq) [Config.stCksum] ∧
      SessionKept s t ∧ t.prevPage = s.prevPage ∧ t.trace = s.trace) ∧
    (j = 0 → ∃ t : State, Sys2Proof.core.run 1 s = .next t ∧
      t.feedResult = some .headerError ∧ t.fs = .idle ∧ t.tx = s.tx) ∧
    (j = 4 ∨ (j = 2 ∨ j = 3) ∧ 275 < l.toNat → ∃ t : State, Sys2Proof.core.run 5 s = .next t ∧
      t.feedResult = some .headerError ∧ t.fs = .idle ∧ t.tx = s.tx) ∧
    ((j = 2 ∨ j = 3) ∧ l.toNat ≤ 275 → ∃ t : State, Sys2Proof.core.run 5 s = .next t ∧
      t.fs = .body ∧ t.len = l ∧ t.len.toNat ≠ body.length)

/-- `SendResponse`: the status goes to `Buf[0]`, one message of the first `n` body bytes is sent with the sequence number of the
last request, and the framer is idle again, whatever it was doing; a length past the buffer has no meaning (40_framing.md R122,
R124). -/
def Obligations.SendResponseEmits : Prop :=
  ∀ (s : State) (status : Byte) (n : Half),
    (n.toNat ≤ 275 → ∃ t, sendResponse status n s = .next t ∧
      t = { s with fs := .idle, buf := t.buf, tx := t.tx } ∧
      (∀ a, t.bodyByte a = if a = 0 then status else s.bodyByte a) ∧
      t.tx = s.tx ++ encodeMessage s.seq (t.bodyFrom 0 n.toNat)) ∧
    (275 < n.toNat → sendResponse status n s = .fault .responseTooLong)

/-- `SendXPROGResponse`: as `SendResponse`, the status at `Buf[1]` (40_framing.md R125). -/
def Obligations.SendXprogResponseEmits : Prop :=
  ∀ (s : State) (status : Byte) (n : Half),
    (n.toNat ≤ 275 → ∃ t, sendXprogResponse status n s = .next t ∧
      t = { s with fs := .idle, buf := t.buf, tx := t.tx } ∧
      (∀ a, t.bodyByte a = if a = 1 then status else s.bodyByte a) ∧
      t.tx = s.tx ++ encodeMessage s.seq (t.bodyFrom 0 n.toNat)) ∧
    (275 < n.toNat → sendXprogResponse status n s = .fault .responseTooLong)

/-- The checksum of a message is the exclusive or of all its bytes before it, so that a whole message gives zero; a response is
such a message, of `n + 6` bytes (30_encoding.md R73, 40_framing.md R123). -/
def Obligations.MessagesXorToZero : Prop :=
  (∀ (seq : Byte) (body : List Byte),
    (encodeMessage seq body).getLast? = some (xorAll 0x00#8 ((encodeMessage seq body).dropLast)) ∧
    xorAll 0x00#8 (encodeMessage seq body) = 0x00#8) ∧
  (∀ (s t : State) (status : Byte) (n : Half),
    sendResponse status n s = .next t ∨ sendXprogResponse status n s = .next t →
    ∃ m, t.tx = s.tx ++ m ∧ m.length = n.toNat + 6 ∧ xorAll 0x00#8 m = 0x00#8)

/-! ### The step -/

/-- A step of an engine that holds a request is the operation that the body `Buf[0 .. LEN-1]` names, or for a request of no bytes the
stale `Buf[0]`; a request with no meaning stops it (30_encoding.md R81, 41_dispatch.md R141, R151). -/
def Obligations.StepRunsDecodedRequest : Prop :=
  ∀ s : State, s.faultMark = none → s.calls = [] → s.fs = .complete →
    let request := decodeRequest (s.bodyByte 0) (s.bodyFrom 0 s.len.toNat)
    fetchRequest s = request ∧
    (∀ i, request = .instr i → step s = exec i s) ∧
    (request = .shortRequest → step s = .fault .shortRequest) ∧
    (request = .countTooLarge → step s = .fault .countTooLarge)

/-- What the other steps are: a faulted engine stays faulted, a caller's port operation is performed first, and an engine that holds
no request feeds a byte (10_state.md R36, 00_scope.md R11; the order is the model's, log 10). -/
def Obligations.StepOtherwise : Prop :=
  ∀ s : State,
    (∀ r, s.faultMark = some r → step s = .fault r) ∧
    (∀ rest, s.faultMark = none → s.calls = .feedByte :: rest → step s = feedByte { s with calls := rest }) ∧
    (∀ status n rest, s.faultMark = none → s.calls = .sendResponse status n :: rest →
      step s = sendResponse status n { s with calls := rest }) ∧
    (∀ status n rest, s.faultMark = none → s.calls = .sendXprogResponse status n :: rest →
      step s = sendXprogResponse status n { s with calls := rest }) ∧
    (s.faultMark = none → s.calls = [] → s.fs ≠ .complete → step s = feedByte s)

/-- An unknown request changes no state but the previous page and ends command-failed, the response in the form of the request
called next (41_dispatch.md R150). -/
def Obligations.UnknownRequestAnswered : Prop :=
  ∀ (s : State) (x : Bool), s.faultMark = none → s.calls = [] → s.fs = .complete →
    decodeRequest (s.bodyByte 0) (s.bodyFrom 0 s.len.toNat) = .unknown x →
    ∃ t, step s = .next t ∧ Kept { s with prevPage := none } t ∧
      (x = false → Answered s t Config.stFailed []) ∧ (x = true → AnsweredX s t Config.xstFailed [])

/-- End to end: the message of a well-formed command, fed to an engine in `Idle`, is received, and the step after its last byte
performs exactly that command. -/
def Obligations.MessageThenOperation : Prop :=
  ∀ (s : State) (seq : Byte) (i : Instr) (more : List Byte), s.fs = .idle → s.faultMark = none → s.calls = [] →
    s.hdr.length = 5 → i.wf = true → s.rx = encodeMessage seq (encode i) ++ more →
    ∃ t : State, Sys2Proof.core.run ((encode i).length + 6) s = .next t ∧ step t = exec i t ∧
      t.fs = .complete ∧ t.seq = seq ∧ t.rx = more ∧ t.tx = s.tx ∧ SessionKept s t ∧ DrawsKept s t ∧
      t.prevPage = s.prevPage ∧ t.trace = s.trace

/-- Every request that is performed gets exactly one response, a whole message with the request's sequence number. Either the
operation has called it, sends nothing itself, and the next step sends it; or a timeout sent it inside the operation and none is
called. No host byte is consumed, and the framer is idle after it. The message of a called response is the status and the data that
the operation ended with (41_dispatch.md R141, R142, 42_driver_common.md R176, 20_memory.md R62). -/
def Obligations.OneResponsePerRequest : Prop :=
  (∀ s t : State, s.faultMark = none → s.calls = [] → s.fs = .complete → step s = .next t →
    t.rx = s.rx ∧
    ((t.fs = .complete ∧ t.tx = s.tx ∧ ∃ c u body, t.calls = [c] ∧ c ≠ .feedByte ∧ step t = .next u ∧
        1 ≤ body.length ∧ body.length ≤ 275 ∧
        u = { t with fs := .idle, calls := [], buf := u.buf, tx := s.tx ++ encodeMessage s.seq body }) ∨
      (t.fs = .idle ∧ t.calls = [] ∧ ∃ body, t.tx = s.tx ++ encodeMessage s.seq body ∧
        (body = [Config.stTimeout] ∨ body = [s.bodyByte 0, Config.xstTimeout])))) ∧
  (∀ (s t : State) (status : Byte) (data : List Byte), Answered s t status data → data.length ≤ 274 →
    t.faultMark = none → s.calls = [] → t.seq = s.seq → ∃ u, step t = .next u ∧
      u = { t with fs := .idle, calls := [], buf := u.buf, tx := s.tx ++ encodeMessage s.seq (status :: data) } ∧
      ∀ a, u.bodyByte a = if a = 0 then status else t.bodyByte a) ∧
  (∀ (s t : State) (status : Byte) (data : List Byte), AnsweredX s t status data → data.length ≤ 273 →
    t.faultMark = none → s.calls = [] → t.seq = s.seq → ∃ u, step t = .next u ∧
      u = { t with
        fs := .idle, calls := [], buf := u.buf, tx := s.tx ++ encodeMessage s.seq (s.bodyByte 0 :: status :: data) } ∧
      ∀ a, u.bodyByte a = if a = 1 then status else t.bodyByte a)

/-- Every step keeps the invariant: the buffer's canonical form, framer counts that fit their phase, a length within the ceiling, 32
control-stack bytes, a rung of the ladder, and a page cached only while an HV family is active. -/
def Obligations.StepKeepsInvariant : Prop :=
  ∀ s t : State, Inv s → step s = .next t → Inv t

/-- The machine after reset has the invariant, and its receive checksum is consistent. -/
def Obligations.ResetHasInvariant : Prop :=
  Inv State.reset ∧ ChecksumInv State.reset

/-- Every step keeps the receive checksum what the message so far makes it, and the accepted header the one SEQ and LEN were read
from (10_state.md R25, R26, R27). -/
def Obligations.StepKeepsChecksum : Prop :=
  ∀ s t : State, Inv s → ChecksumInv s → step s = .next t → ChecksumInv t

/-- TRACE and the transmit stream only grow, the receive port only loses bytes from its front, and no step that answers a next
state leaves a fault mark (10_state.md R36, R37, R38, R40). -/
def Obligations.StreamsOnlyGrow : Prop :=
  ∀ s t : State, step s = .next t →
    s.trace <+: t.trace ∧ s.tx <+: t.tx ∧ t.rx <:+ s.rx ∧ t.faultMark = none

/-- Which command writes which session register; no command writes a register of the framer but `FS` and `Buf`, and each either
calls one response in front of the calls before it or has answered a timeout itself (10_state.md R29 to R35, 41_dispatch.md R141,
R142, R152, 45_tpi.md R266). -/
def Obligations.SessionRegisterWriters : Prop :=
  ∀ (i : Instr) (s t : State), exec i s = .next t →
    FramerKept s t ∧
    (t.fs = s.fs ∧
        (∃ status n, t.calls = .sendResponse status n :: s.calls ∨ t.calls = .sendXprogResponse status n :: s.calls) ∨
      t.fs = .idle ∧ t.calls = s.calls) ∧
    (t.clockSelector = s.clockSelector ∨ ∃ value, i = .setParameter Config.paramClock value) ∧
    (t.controlStack = s.controlStack ∨ ∃ stack, i = .setControlStack stack) ∧
    t.activeFamily = (entersFamily i).getD s.activeFamily ∧
    (t.ispRung = s.ispRung ∨ entersFamily i = some .isp) ∧
    (t.inMode = s.inMode ∨ (entersFamily i).isSome ∨ isLeave i ∨ i = .xprgLeaveProgmode) ∧
    (t.currentAddress = s.currentAddress ∨ (∃ addr, i = .loadAddress addr) ∨
      (pagedOf i).isSome ∧ s.activeFamily ≠ .tpi)

/-- Every command but the two paged reads leaves the previous-page cache invalid; a paged read of a family that does not use the
cache leaves it as it was (42_driver_common.md R168, R170; for a read that TPI lacks, the model's reading, log 16). -/
def Obligations.PreviousPageInvalidated : Prop :=
  ∀ (i : Instr) (s t : State), exec i s = .next t →
    (isPagedRead i = false → t.prevPage = none) ∧
    (isPagedRead i = true → ¬ HvActive s → t.prevPage = s.prevPage)

/-- Every command either has an operand that the rules give no meaning, and stops with that fault in every state, or answers a next
state in every state, whatever the target and the clock do (41_dispatch.md R151, 42_driver_common.md R163, 43_isp.md R194, R204,
60_exceptions.md R298). That the check comes first in every family is the model's reading (DEDUCED, log 14); that a flash read count
both odd and too large stops with `countTooLarge` is its choice (DESIGN CHOICE, log 25); that a poll ends where the target stays busy
is the fairness of the clock (DEDUCED, log 8). -/
def Obligations.CommandsComplete : Prop :=
  ∀ (i : Instr) (s : State),
    match operandFault i with
    | none => ∃ t, exec i s = .next t
    | some r => exec i s = .fault r

/-- In a state with the invariant the only faults are those of 60_exceptions.md R298, each with its cause; of several `Unmodelled`
reasons of one request the one raised is the model's choice (DESIGN CHOICE, log 25). -/
def Obligations.FaultsHaveCauses : Prop :=
  ∀ (s : State) (r : Fault), Inv s → s.faultMark = none → step s = .fault r →
    (∃ rest, s.calls = .feedByte :: rest ∧ s.fs = .complete ∧ r = .feedWhileComplete) ∨
    (∃ status n rest, (s.calls = .sendResponse status n :: rest ∨ s.calls = .sendXprogResponse status n :: rest) ∧
      275 < n.toNat ∧ r = .responseTooLong) ∨
    (s.calls = [] ∧ s.fs = .complete ∧
      let request := decodeRequest (s.bodyByte 0) (s.bodyFrom 0 s.len.toNat)
      (request = .shortRequest ∧ r = .shortRequest ∨ request = .countTooLarge ∧ r = .countTooLarge ∨
        ∃ i, request = .instr i ∧ operandFault i = some r))

/-- What reset leaves, for every register the spec gives a reset value (70_reset_and_hazards.md R321). -/
def Obligations.ResetValues : Prop :=
  State.reset.fs = .idle ∧ State.reset.seq = 0x00#8 ∧ State.reset.len = 0x0000#16 ∧
  State.reset.currentAddress = 0x00000000#32 ∧ State.reset.clockSelector = 0x0000#16 ∧
  State.reset.controlStack.length = 32 ∧ (∀ k, State.reset.controlStack.getD k 0x00#8 = 0x00#8) ∧
  State.reset.activeFamily = .isp ∧ State.reset.inMode = false ∧ State.reset.prevPage = none ∧
  State.reset.ispRung = 0 ∧ State.reset.faultMark = none ∧ State.reset.trace = [] ∧ State.reset.tx = []

/-! ### Session commands -/

/-- `SetParameter` writes the clock selector for the one supported id and fails for every other (41_dispatch.md R148). -/
def Obligations.SetParameterResult : Prop :=
  ∀ (s : State) (id value : Byte),
    (id = Config.paramClock → ∃ t, exec (.setParameter id value) s = .next t ∧
      Kept { s with clockSelector := 0x00#8 ++ value, prevPage := none } t ∧ Answered s t Config.stOk []) ∧
    (id ≠ Config.paramClock → ∃ t, exec (.setParameter id value) s = .next t ∧
      Kept { s with prevPage := none } t ∧ Answered s t Config.stFailed [])

/-- `LoadAddress` stores all 32 bits and invalidates the previous page (41_dispatch.md R146). -/
def Obligations.LoadAddressResult : Prop :=
  ∀ (s : State) (addr : Word), ∃ t, exec (.loadAddress addr) s = .next t ∧
    Kept { s with currentAddress := addr, prevPage := none } t ∧ Answered s t Config.stOk []

/-- `SetControlStack` stores its 32 bytes (41_dispatch.md R147). The layout carries 32 bytes: `Instr.wf` says so of the list. -/
def Obligations.SetControlStackResult : Prop :=
  ∀ (s : State) (stack : List Byte), stack.length = 32 → ∃ t, exec (.setControlStack stack) s = .next t ∧
    Kept { s with controlStack := stack, prevPage := none } t ∧ Answered s t Config.stOk []

/-! ### Entering and leaving programming mode -/

/-- `Enter(ISP)`: bring-up, then the same transaction at rung 0, 1, 2, 3 until the designated answer byte is the expected one. The
first rung that matches is kept; where none does the target is released and the rung is as before (43_isp.md R194, 41_dispatch.md
R143). An index outside 1..4 has no meaning. -/
def Obligations.EnterIspResult : Prop :=
  ∀ (s : State) (timeout pollValue pollIndex : Byte) (delays e : Quad),
    let i : Instr := .enterProgmodeIsp timeout delays pollValue pollIndex e
    let tries (n : Nat) : List Event := (List.range n).map fun k => .ispXfer k e
    let misses (j : Nat) : Prop := ∃ q, s.ispAnswers[j]? = some q ∧ quadSelect q pollIndex ≠ some pollValue
    (1 ≤ pollIndex.toNat → pollIndex.toNat ≤ 4 →
      (∀ k q, k ≤ Config.ispLadder → (∀ j, j < k → misses j) → s.ispAnswers[k]? = some q →
        quadSelect q pollIndex = some pollValue →
        ∃ t, exec i s = .next t ∧ Answered s t Config.stOk [] ∧
          Kept { s with
            activeFamily := .isp, inMode := true, ispRung := k, prevPage := none,
            trace := s.trace ++ .ispBringUp :: tries (k + 1),
            ispAnswers := s.ispAnswers.drop (k + 1), drawn := s.drawn + (k + 1) } t) ∧
      ((∀ j, j < Config.ispLadder + 1 → misses j) →
        ∃ t, exec i s = .next t ∧ Answered s t Config.stFailed [] ∧
          Kept { s with
            activeFamily := .isp, inMode := false, prevPage := none,
            trace := s.trace ++ .ispBringUp :: tries (Config.ispLadder + 1) ++ [.ispRelease],
            ispAnswers := s.ispAnswers.drop (Config.ispLadder + 1), drawn := s.drawn + (Config.ispLadder + 1) } t)) ∧
    (¬ (1 ≤ pollIndex.toNat ∧ pollIndex.toNat ≤ 4) → exec i s = .fault .ispPollIndex)

/-- `Enter(HVPP)` and `Enter(HVSP)`: bring-up and the INIT strobe, whose pattern for HVPP is control-stack byte 24; it always
succeeds (44_hv.md R224, 41_dispatch.md R143). -/
def Obligations.EnterHvResult : Prop :=
  ∀ (s : State) (delays : List Byte),
    (∃ t, exec (.enterProgmodePp delays) s = .next t ∧ Answered s t Config.stOk [] ∧
      Kept { s with
        activeFamily := .hvpp, inMode := true, prevPage := none,
        trace := s.trace ++ [.hvBringUp .hvpp, .hvStrobe .init .low (some (s.controlStack.getD 24 0x00#8))] } t) ∧
    (∃ t, exec (.enterProgmodeHvsp delays) s = .next t ∧ Answered s t Config.stOk [] ∧
      Kept { s with
        activeFamily := .hvsp, inMode := true, prevPage := none,
        trace := s.trace ++ [.hvBringUp .hvsp, .hvStrobe .init .low none] } t)

/-- `XEnter`: bring-up and the identity. The expected identity enters programming mode; any other byte, and a frame with a wrong
parity, releases the target and fails, and the family is TPI all the same (45_tpi.md R267, 41_dispatch.md R143). -/
def Obligations.XEnterResult : Prop :=
  ∀ (s : State) (f : Frame), s.tpiFrames.head? = some f →
    (tpiDecode f = .byte Config.tpiId → ∃ t, exec .xprgEnterProgmode s = .next t ∧ AnsweredX s t Config.xstOk [] ∧
      Kept { s with
        activeFamily := .tpi, inMode := true, prevPage := none, trace := s.trace ++ [.tpiBringUp, .tpiReadId],
        tpiFrames := s.tpiFrames.tail, drawn := s.drawn + 1 } t) ∧
    (tpiDecode f ≠ .byte Config.tpiId → ∃ t, exec .xprgEnterProgmode s = .next t ∧ AnsweredX s t Config.xstFailed [] ∧
      Kept { s with
        activeFamily := .tpi, inMode := false, prevPage := none,
        trace := s.trace ++ [.tpiBringUp, .tpiReadId, .tpiRelease],
        tpiFrames := s.tpiFrames.tail, drawn := s.drawn + 1 } t)

/-- `Leave`, by any of its three codes: the target of the active family is released, and only `inMode` and the previous page change
(43_isp.md R195, 44_hv.md R225). -/
def Obligations.LeaveResult : Prop :=
  ∀ (i : Instr) (s : State), isLeave i = true → s.activeFamily ≠ .tpi →
    ∃ t, exec i s = .next t ∧ Answered s t Config.stOk [] ∧
      Kept { s with
        inMode := false, prevPage := none,
        trace := s.trace ++ [if s.activeFamily = .isp then .ispRelease else .hvRelease s.activeFamily] } t

/-- `XLeave` releases the target and leaves programming mode; `XSetParam` does nothing (45_tpi.md R268, R272). -/
def Obligations.XLeaveAndXSetParamResult : Prop :=
  ∀ (s : State) (params : List Byte), s.activeFamily = .tpi →
    (∃ t, exec .xprgLeaveProgmode s = .next t ∧ AnsweredX s t Config.xstOk [] ∧
      Kept { s with inMode := false, prevPage := none, trace := s.trace ++ [.tpiRelease] } t) ∧
    (∃ t, exec (.xprgSetParam params) s = .next t ∧ AnsweredX s t Config.xstOk [] ∧ Kept { s with prevPage := none } t)

/-! ### ISP -/

/-- `ChipErase` (ISP): the erase transaction, then the poll; ready is ok, and a timeout is answered as one with no further
transaction (43_isp.md R196, R197, 42_driver_common.md R171, R176). -/
def Obligations.IspChipEraseResult : Prop :=
  ∀ (s : State) (timeout method : Byte) (c : Quad) (ready : Bool) (k : Nat), s.activeFamily = .isp →
    PollEnds (s.ispAnswers.tail.map ispReadyBit) s.elapsed timeout.toNat ready k →
    ∃ t, exec (.chipEraseIsp timeout method c) s = .next t ∧
      Ended s t (if ready then .ok else .timeout) [] ∧
      Kept (afterPoll ready k { s with
        prevPage := none, trace := s.trace ++ [.ispXfer s.ispRung c],
        ispAnswers := s.ispAnswers.tail, drawn := s.drawn + 1 }) t

/-- `ProgramFlash` (ISP), by any of its three codes: ExtCheck and the two load transactions for each word; with the commit flag, one
page write at the start address and one poll. The address steps by one a word, through ExtCheck (43_isp.md R192, R198,
42_driver_common.md R164). -/
def Obligations.IspProgramFlashResult : Prop :=
  ∀ (i : Instr) (s : State) (mode timeout : Byte) (data : List Byte),
    pagedWriteOf i = some (.flash, mode, timeout, data) → s.activeFamily = .isp → data.length % 2 = 0 →
    let a := s.currentAddress
    let u := data.length / 2
    let n := ispFlashAnswers u a
    let e := { s with currentAddress := ispFlashAddress u a, prevPage := none }
    (mode.getLsbD 7 = false → ∃ t, exec i s = .next t ∧ Answered s t Config.stOk [] ∧
      Kept { e with
        trace := s.trace ++ ispFlashUnits s.ispRung a data, ispAnswers := s.ispAnswers.drop n, drawn := s.drawn + n } t) ∧
    (mode.getLsbD 7 = true → ∀ ready k,
      PollEnds ((s.ispAnswers.drop (n + 1)).map ispReadyBit) s.elapsed timeout.toNat ready k →
      ∃ t, exec i s = .next t ∧ Ended s t (if ready then .ok else .timeout) [] ∧
        Kept (afterPoll ready k { e with
          trace := s.trace ++ ispFlashUnits s.ispRung a data ++
            [.ispXfer s.ispRung ⟨Config.ispWriteFlashPage, byteOf a 1, byteOf a 0, 0x00#8⟩],
          ispAnswers := s.ispAnswers.drop (n + 1), drawn := s.drawn + (n + 1) }) t)

/-- `ProgramEEPROM` (ISP), by any of its three codes: one load transaction for each byte and no ExtCheck; with the commit flag, one
page write at the start address and one poll (43_isp.md R200, 42_driver_common.md R164). -/
def Obligations.IspProgramEepromResult : Prop :=
  ∀ (i : Instr) (s : State) (mode timeout : Byte) (data : List Byte),
    pagedWriteOf i = some (.eeprom, mode, timeout, data) → s.activeFamily = .isp →
    let a := s.currentAddress
    let n := data.length
    let e := { s with currentAddress := a + BitVec.ofNat 32 n, prevPage := none }
    (mode.getLsbD 7 = false → ∃ t, exec i s = .next t ∧ Answered s t Config.stOk [] ∧
      Kept { e with
        trace := s.trace ++ ispEepromUnits s.ispRung a data, ispAnswers := s.ispAnswers.drop n,
        drawn := s.drawn + n } t) ∧
    (mode.getLsbD 7 = true → ∀ ready k,
      PollEnds ((s.ispAnswers.drop (n + 1)).map ispReadyBit) s.elapsed timeout.toNat ready k →
      ∃ t, exec i s = .next t ∧ Ended s t (if ready then .ok else .timeout) [] ∧
        Kept (afterPoll ready k { e with
          trace := s.trace ++ ispEepromUnits s.ispRung a data ++
            [.ispXfer s.ispRung ⟨Config.ispWriteEepromPage, byteOf a 1, byteOf a 0, 0x00#8⟩],
          ispAnswers := s.ispAnswers.drop (n + 1), drawn := s.drawn + (n + 1) }) t)

/-- `ReadFlash` (ISP), by any of its three codes: ExtCheck and the two read transactions for each word; the data are the last bytes
of the answers, low byte first (43_isp.md R192, R199). -/
def Obligations.IspReadFlashResult : Prop :=
  ∀ (i : Instr) (s : State) (n : Half),
    pagedReadOf i = some (.flash, n) → s.activeFamily = .isp → n.toNat ≤ 274 → n.toNat % 2 = 0 →
    let a := s.currentAddress
    let u := n.toNat / 2
    ∃ data t, exec i s = .next t ∧ Answered s t Config.stOk data ∧ data.length = n.toNat ∧
      (∀ (j p : Nat) (q : Quad), (ispFlashPlaces u a 0)[j]? = some p → s.ispAnswers[p]? = some q →
        data[j]? = some q.b4) ∧
      Kept { s with
        currentAddress := ispFlashAddress u a, trace := s.trace ++ ispFlashReads s.ispRung u a,
        ispAnswers := s.ispAnswers.drop (ispFlashAnswers u a), drawn := s.drawn + ispFlashAnswers u a } t

/-- `ReadEEPROM` (ISP), by any of its three codes: one read transaction for each byte and no ExtCheck (43_isp.md R201). -/
def Obligations.IspReadEepromResult : Prop :=
  ∀ (i : Instr) (s : State) (n : Half),
    pagedReadOf i = some (.eeprom, n) → s.activeFamily = .isp → n.toNat ≤ 274 →
    let a := s.currentAddress
    ∃ data t, exec i s = .next t ∧ Answered s t Config.stOk data ∧ data.length = n.toNat ∧
      (∀ (j : Nat) (q : Quad), j < n.toNat → s.ispAnswers[j]? = some q → data[j]? = some q.b4) ∧
      Kept { s with
        currentAddress := a + BitVec.ofNat 32 n.toNat, trace := s.trace ++ ispEepromReads s.ispRung n.toNat a,
        ispAnswers := s.ispAnswers.drop n.toNat, drawn := s.drawn + n.toNat } t

/-- `ProgramFuse` and `ProgramLock` (ISP): the one transaction of the request, and no poll (43_isp.md R202, R203). -/
def Obligations.IspWriteConfigResult : Prop :=
  ∀ (i : Instr) (s : State) (c : Quad), ispConfigWriteOf i = some c → s.activeFamily = .isp →
    ∃ t, exec i s = .next t ∧ Answered s t Config.stOk [] ∧
      Kept { s with
        prevPage := none, trace := s.trace ++ [.ispXfer s.ispRung c],
        ispAnswers := s.ispAnswers.tail, drawn := s.drawn + 1 } t

/-- `ReadFuse`, `ReadLock`, `ReadSignature`, `ReadOscCal` (ISP): the one transaction of the request, and the designated byte of its
answer; an index outside 1..4 has no meaning (43_isp.md R204 to R207). -/
def Obligations.IspReadConfigResult : Prop :=
  ∀ (i : Instr) (s : State) (r : Byte) (c : Quad), ispConfigReadOf i = some (r, c) → s.activeFamily = .isp →
    (1 ≤ r.toNat → r.toNat ≤ 4 → ∃ b t, exec i s = .next t ∧ Answered s t Config.stOk [b] ∧
      (∀ q, s.ispAnswers.head? = some q →
        b = if r = 0x01#8 then q.b1 else if r = 0x02#8 then q.b2 else if r = 0x03#8 then q.b3 else q.b4) ∧
      Kept { s with
        prevPage := none, trace := s.trace ++ [.ispXfer s.ispRung c],
        ispAnswers := s.ispAnswers.tail, drawn := s.drawn + 1 } t) ∧
    (¬ (1 ≤ r.toNat ∧ r.toNat ≤ 4) → exec i s = .fault .ispReturnIndex)

/-! ### HVSP and HVPP -/

/-- `ChipErase` (HV), by any of its three codes: the command load and the commit strobe, then the poll (44_hv.md R226, R227,
42_driver_common.md R171, R176). -/
def Obligations.HvChipEraseResult : Prop :=
  ∀ (i : Instr) (s : State) (timeout : Byte) (ready : Bool) (k : Nat),
    chipEraseTimeoutOf i = some timeout → HvActive s → PollEnds s.hvReadies s.elapsed timeout.toNat ready k →
    let p := patternIn s.activeFamily s.controlStack
    ∃ t, exec i s = .next t ∧ Ended s t (if ready then .ok else .timeout) [] ∧
      Kept (afterPoll ready k { s with
        prevPage := none,
        trace := s.trace ++ [.hvLoad .loadCmd .low Config.hvChipErase (p 2 0), .hvStrobe .commit .low (p 3 0)] }) t

/-- `ProgramFlash` (HV), by any of its three codes: the write command, then the low-order address, the two data loads and the page
load for each word; with the commit flag the high-order latches of the start address, one commit strobe and one poll (44_hv.md
R222, R228, 42_driver_common.md R164). -/
def Obligations.HvProgramFlashResult : Prop :=
  ∀ (i : Instr) (s : State) (mode timeout : Byte) (data : List Byte),
    pagedWriteOf i = some (.flash, mode, timeout, data) → HvActive s → data.length % 2 = 0 →
    let p := patternIn s.activeFamily s.controlStack
    let a := s.currentAddress
    let units : List Event := .hvLoad .loadCmd .low Config.hvWriteFlash (p 2 0) :: hvFlashUnits p a data
    let e := { s with currentAddress := a + BitVec.ofNat 32 (data.length / 2), prevPage := none }
    (mode.getLsbD 7 = false → ∃ t, exec i s = .next t ∧ Answered s t Config.stOk [] ∧
      Kept { e with trace := s.trace ++ units } t) ∧
    (mode.getLsbD 7 = true → ∀ ready k, PollEnds s.hvReadies s.elapsed timeout.toNat ready k →
      ∃ t, exec i s = .next t ∧ Ended s t (if ready then .ok else .timeout) [] ∧
        Kept (afterPoll ready k { e with
          trace := s.trace ++ units ++ hvHighEvents p a ++ [.hvStrobe .commit .low (p 3 0)] }) t)

/-- `ProgramEEPROM` (HV), by any of its three codes: as the flash write, one data load for each byte (44_hv.md R222, R228). -/
def Obligations.HvProgramEepromResult : Prop :=
  ∀ (i : Instr) (s : State) (mode timeout : Byte) (data : List Byte),
    pagedWriteOf i = some (.eeprom, mode, timeout, data) → HvActive s →
    let p := patternIn s.activeFamily s.controlStack
    let a := s.currentAddress
    let units : List Event := .hvLoad .loadCmd .low Config.hvWriteEeprom (p 2 0) :: hvEepromUnits p a data
    let e := { s with currentAddress := a + BitVec.ofNat 32 data.length, prevPage := none }
    (mode.getLsbD 7 = false → ∃ t, exec i s = .next t ∧ Answered s t Config.stOk [] ∧
      Kept { e with trace := s.trace ++ units } t) ∧
    (mode.getLsbD 7 = true → ∀ ready k, PollEnds s.hvReadies s.elapsed timeout.toNat ready k →
      ∃ t, exec i s = .next t ∧ Ended s t (if ready then .ok else .timeout) [] ∧
        Kept (afterPoll ready k { e with
          trace := s.trace ++ units ++ hvHighEvents p a ++ [.hvStrobe .commit .low (p 3 0)] }) t)

/-- `ReadFlash` (HV), by any of its three codes: the read command, then for each word the high-order latches unless the cache holds
its page, the low-order address and the two reads; the data are what the target returned, low byte first (44_hv.md R229,
42_driver_common.md R168, R169). -/
def Obligations.HvReadFlashResult : Prop :=
  ∀ (i : Instr) (s : State) (n : Half),
    pagedReadOf i = some (.flash, n) → HvActive s → n.toNat ≤ 274 → n.toNat % 2 = 0 →
    let p := patternIn s.activeFamily s.controlStack
    let a := s.currentAddress
    let u := n.toNat / 2
    ∃ data t, exec i s = .next t ∧ Answered s t Config.stOk data ∧ data.length = n.toNat ∧
      (∀ (j : Nat) (b : Byte), j < n.toNat → s.hvBytes[j]? = some b → data[j]? = some b) ∧
      Kept { s with
        currentAddress := a + BitVec.ofNat 32 u,
        prevPage := if u = 0 then s.prevPage else some ⟨.flash, (a + BitVec.ofNat 32 (u - 1)).extractLsb' 8 16⟩,
        trace := s.trace ++ .hvLoad .loadCmd .low Config.hvReadFlash (p 2 0) ::
          hvReadEvents p .flash [.hvRead .low (p 4 0), .hvRead .high (p 4 1)] u a s.prevPage,
        hvBytes := s.hvBytes.drop n.toNat, drawn := s.drawn + n.toNat } t

/-- `ReadEEPROM` (HV), by any of its three codes: as the flash read, one read for each byte (44_hv.md R229). -/
def Obligations.HvReadEepromResult : Prop :=
  ∀ (i : Instr) (s : State) (n : Half),
    pagedReadOf i = some (.eeprom, n) → HvActive s → n.toNat ≤ 274 →
    let p := patternIn s.activeFamily s.controlStack
    let a := s.currentAddress
    let u := n.toNat
    ∃ data t, exec i s = .next t ∧ Answered s t Config.stOk data ∧ data.length = u ∧
      (∀ (j : Nat) (b : Byte), j < u → s.hvBytes[j]? = some b → data[j]? = some b) ∧
      Kept { s with
        currentAddress := a + BitVec.ofNat 32 u,
        prevPage := if u = 0 then s.prevPage else some ⟨.eeprom, (a + BitVec.ofNat 32 (u - 1)).extractLsb' 8 16⟩,
        trace := s.trace ++ .hvLoad .loadCmd .low Config.hvReadEeprom (p 2 0) ::
          hvReadEvents p .eeprom [.hvRead .low (p 4 0)] u a s.prevPage,
        hvBytes := s.hvBytes.drop u, drawn := s.drawn + u } t

/-- `ProgramFuse` and `ProgramLock` (HV layouts): the command load, the value load and the commit strobe of the fuse's select, then
the poll; `which` past 2 fails with no transaction, and a lock write ignores it (30_encoding.md R103, 44_hv.md R230, R231; the
selects are PRESUMED, log 1). -/
def Obligations.HvWriteConfigResult : Prop :=
  ∀ (i : Instr) (s : State), HvActive s →
    let p := patternIn s.activeFamily s.controlStack
    (∀ which value timeout, hvFuseWriteOf i = some (which, value, timeout) →
      (2 < which.toNat → ∃ t, exec i s = .next t ∧ Answered s t Config.stFailed [] ∧
        Kept { s with prevPage := none } t) ∧
      (∀ ready k, which.toNat ≤ 2 → PollEnds s.hvReadies s.elapsed timeout.toNat ready k →
        ∃ t, exec i s = .next t ∧ Ended s t (if ready then .ok else .timeout) [] ∧
          Kept (afterPoll ready k { s with
            prevPage := none,
            trace := s.trace ++ [.hvLoad .loadCmd .low Config.hvWriteFuse (p 2 0), .hvLoad .loadData .low value (p 1 0),
              .hvStrobe .commit (if which = 0x00#8 then .low else if which = 0x01#8 then .high else .ext)
                (p 3 which.toNat)] }) t)) ∧
    (∀ value timeout ready k, hvLockWriteOf i = some (value, timeout) →
      PollEnds s.hvReadies s.elapsed timeout.toNat ready k →
      ∃ t, exec i s = .next t ∧ Ended s t (if ready then .ok else .timeout) [] ∧
        Kept (afterPoll ready k { s with
          prevPage := none,
          trace := s.trace ++ [.hvLoad .loadCmd .low Config.hvWriteLock (p 2 0), .hvLoad .loadData .low value (p 1 0),
            .hvStrobe .commit .low (p 3 0)] }) t)

/-- `ReadFuse`, `ReadLock`, `ReadSignature` and `ReadOscCal` (HV): the command load, for a signature or calibration byte its index,
and one read with the select of the byte, whose value is the data; `which` past 2 on a fuse read fails with no transaction
(30_encoding.md R103, 44_hv.md R232 to R235; the selects are PRESUMED, log 1). -/
def Obligations.HvReadConfigResult : Prop :=
  ∀ (i : Instr) (s : State), HvActive s →
    let p := patternIn s.activeFamily s.controlStack
    let reads (events : List Event) : Prop := ∃ b t, exec i s = .next t ∧ Answered s t Config.stOk [b] ∧
      (∀ v, s.hvBytes.head? = some v → b = v) ∧
      Kept { s with
        prevPage := none, trace := s.trace ++ events, hvBytes := s.hvBytes.tail, drawn := s.drawn + 1 } t
    (∀ which, hvFuseReadOf i = some which →
      (2 < which.toNat → ∃ t, exec i s = .next t ∧ Answered s t Config.stFailed [] ∧
        Kept { s with prevPage := none } t) ∧
      (which = 0x00#8 → reads [.hvLoad .loadCmd .low Config.hvReadFuseLock (p 2 0), .hvRead .low (p 4 0)]) ∧
      (which = 0x01#8 → reads [.hvLoad .loadCmd .low Config.hvReadFuseLock (p 2 0), .hvRead .ext2 (p 4 3)]) ∧
      (which = 0x02#8 → reads [.hvLoad .loadCmd .low Config.hvReadFuseLock (p 2 0), .hvRead .ext (p 4 2)])) ∧
    (isLockRead i = true → operandFault i = none →
      reads [.hvLoad .loadCmd .low Config.hvReadFuseLock (p 2 0), .hvRead .high (p 4 1)]) ∧
    (∀ which, hvSignatureReadOf i = some which →
      reads [.hvLoad .loadCmd .low Config.hvReadSigCal (p 2 0), .hvLoad .loadAddr .low which (p 0 0), .hvRead .low (p 4 0)]) ∧
    (∀ which, hvOsccalReadOf i = some which →
      reads [.hvLoad .loadCmd .low Config.hvReadSigCal (p 2 0), .hvLoad .loadAddr .low which (p 0 0), .hvRead .high (p 4 1)])

/-! ### TPI -/

/-- `XErase`: the NVM command of the erase mode, the write that starts it, and the poll with the TPI timeout (45_tpi.md R265, R269,
42_driver_common.md R171, R176; the selection and the starting write are PRESUMED, log 1). -/
def Obligations.XEraseResult : Prop :=
  ∀ (s : State) (eraseMode : Byte) (addr : Word) (ready : Bool) (k : Nat), s.activeFamily = .tpi →
    PollEnds (s.tpiFrames.map tpiReadyBit) s.elapsed Config.tpiTimeout.toNat ready k →
    ∃ t, exec (.xprgErase eraseMode addr) s = .next t ∧
      EndedX s t (if ready then .ok else .timeout) [] ∧
      Kept (afterPoll ready k { s with
        prevPage := none,
        trace := s.trace ++
          [.tpiNvmCmd (if eraseMode = 0x01#8 then Config.nvmChipErase else Config.nvmSectionErase),
            .tpiWrite addr 0x00#8] }) t

/-- `XWriteMem`: the NVM command, then the bytes in order with a poll after each second one and after the last. Where every poll
ends ready all are written; where one times out, after polls that ended ready, the bytes after its unit are not (45_tpi.md
R270, 42_driver_common.md R176; the unit of two bytes is PRESUMED, log 3). -/
def Obligations.XWriteMemResult : Prop :=
  ∀ (s : State) (memType pageMode : Byte) (addr : Word) (data : List Byte) (ks : List Nat), s.activeFamily = .tpi →
    PollsReady (s.tpiFrames.map tpiReadyBit) s.elapsed Config.tpiTimeout.toNat ks →
    let i : Instr := .xprgWriteMem memType pageMode addr data
    let n := ks.sum
    (ks.length = (data.length + 1) / 2 →
      ∃ t, exec i s = .next t ∧ AnsweredX s t Config.xstOk [] ∧
        Kept { s with
          prevPage := none, trace := s.trace ++ .tpiNvmCmd Config.nvmWordWrite :: tpiWriteEvents ks 0 addr data,
          clock := s.clock + BitVec.ofNat 32 (msSum (s.elapsed.take n)), elapsed := s.elapsed.drop n,
          tpiFrames := s.tpiFrames.drop n, drawn := s.drawn + 2 * n } t) ∧
    (∀ k, ks.length < (data.length + 1) / 2 →
      PollEnds ((s.tpiFrames.drop n).map tpiReadyBit) (s.elapsed.drop n) Config.tpiTimeout.toNat false k →
      ∃ t, exec i s = .next t ∧ TimedOutX s t ∧
        Kept { s with
          prevPage := none,
          trace := s.trace ++
            .tpiNvmCmd Config.nvmWordWrite :: tpiWriteEvents (ks ++ [k]) 0 addr (data.take (2 * (ks.length + 1))),
          clock := s.clock + BitVec.ofNat 32 (msSum (s.elapsed.take (n + k + 1))),
          elapsed := s.elapsed.drop (n + k + 1), tpiFrames := s.tpiFrames.drop (n + k),
          drawn := s.drawn + 2 * (n + k) + 1 } t)

/-- `XReadMem`: one read for each byte from the address on; each data byte is the one its frame holds, and is open where the frame
has a wrong parity (45_tpi.md R264, R271). -/
def Obligations.XReadMemResult : Prop :=
  ∀ (s : State) (memType : Byte) (addr : Word) (n : Half), s.activeFamily = .tpi → n.toNat ≤ 273 →
    ∃ data t, exec (.xprgReadMem memType addr n) s = .next t ∧ AnsweredX s t Config.xstOk data ∧ data.length = n.toNat ∧
      (∀ (j : Nat) (f : Frame) (x : Byte), j < n.toNat → s.tpiFrames[j]? = some f → tpiDecode f = .byte x →
        data[j]? = some x) ∧
      Kept { s with
        prevPage := none, trace := s.trace ++ tpiReadEvents n.toNat addr,
        tpiFrames := s.tpiFrames.drop n.toNat, drawn := t.drawn } t

/-- The TPI frame: a start bit 0, the data bits from the least significant, an even-parity bit, two stop bits 1; a received frame is
its byte where the parity is right and `Invalid` otherwise, whatever its start and stop bits (30_encoding.md R105, R106, R107,
45_tpi.md R262, R263; the parity and the levels are PRESUMED, log 1). -/
def Obligations.TpiFrames : Prop :=
  (∀ d : Byte,
    (tpiFrame d).getLsbD 0 = false ∧ (∀ k, k < 8 → (tpiFrame d).getLsbD (k + 1) = d.getLsbD k) ∧
    (tpiFrame d).getLsbD 9 = ((List.range 8).map d.getLsbD).foldl xor false ∧
    (tpiFrame d).getLsbD 10 = true ∧ (tpiFrame d).getLsbD 11 = true ∧ tpiDecode (tpiFrame d) = .byte d) ∧
  (∀ (f : Frame) (d : Byte), (∀ k, k < 8 → d.getLsbD k = f.getLsbD (k + 1)) →
    tpiDecode f = if f.getLsbD 9 = ((List.range 8).map d.getLsbD).foldl xor false then .byte d else .invalid)

/-! ### Routing -/

/-- An operation the active family lacks makes no transaction, changes no state but the previous page, and ends
command-failed in the form of its request (41_dispatch.md R145; that an operand with no meaning is decided first is the model's
reading, log 14). -/
def Obligations.FamilyLacksOperation : Prop :=
  ∀ (i : Instr) (s : State), operandFault i = none →
    (isNormalDriver i = true → s.activeFamily = .tpi → ∃ t, exec i s = .next t ∧ Answered s t Config.stFailed [] ∧
      Kept { s with prevPage := if isPagedRead i then s.prevPage else none } t) ∧
    (isXprogDriver i = true → s.activeFamily ≠ .tpi → ∃ t, exec i s = .next t ∧ AnsweredX s t Config.xstFailed [] ∧
      Kept { s with prevPage := none } t)

/-- A command whose layout lacks an operand the driver of the active family uses makes no transaction and ends
command-failed (41_dispatch.md R153; that an operand with no meaning is decided first is the model's reading, log 14). -/
def Obligations.LayoutMismatchFails : Prop :=
  ∀ (i : Instr) (s : State), layoutMismatch s.activeFamily i = true → operandFault i = none →
    ∃ t, exec i s = .next t ∧ Answered s t Config.stFailed [] ∧ Kept { s with prevPage := none } t

/-- Address stepping: a paged command of `n` bytes moves the address on by its units, whatever the target answers and whether or not
it commits; in ISP flash transfers bits 31:24 follow ExtCheck instead (42_driver_common.md R163, R178, 43_isp.md R208). -/
def Obligations.PagedAddressSteps : Prop :=
  ∀ (i : Instr) (s t : State) (mem : Mem) (n : Nat), pagedOf i = some (mem, n) → s.activeFamily ≠ .tpi →
    exec i s = .next t →
    let u := if mem = .flash then n / 2 else n
    (t.currentAddress.extractLsb' 0 24 = (s.currentAddress + BitVec.ofNat 32 u).extractLsb' 0 24) ∧
    (mem = .eeprom ∨ HvActive s → t.currentAddress = s.currentAddress + BitVec.ofNat 32 u)

end
end

