-- ==== Sys2Proof/Laws/State.lean ====
section
/-! SUPPORT. What each named update of `State` does to each field: one lemma for each field of each update, true by definition,
so that no later proof unfolds an update. -/

namespace Sys2Proof.Machine

/-! ### `State.log` -/

@[simp] theorem State.log_fs (s : State) (e : Event) : (s.log e).fs = s.fs := rfl
@[simp] theorem State.log_hdr (s : State) (e : Event) : (s.log e).hdr = s.hdr := rfl
@[simp] theorem State.log_nread (s : State) (e : Event) : (s.log e).nread = s.nread := rfl
@[simp] theorem State.log_nwant (s : State) (e : Event) : (s.log e).nwant = s.nwant := rfl
@[simp] theorem State.log_cks (s : State) (e : Event) : (s.log e).cks = s.cks := rfl
@[simp] theorem State.log_seq (s : State) (e : Event) : (s.log e).seq = s.seq := rfl
@[simp] theorem State.log_len (s : State) (e : Event) : (s.log e).len = s.len := rfl
@[simp] theorem State.log_buf (s : State) (e : Event) : (s.log e).buf = s.buf := rfl
@[simp] theorem State.log_currentAddress (s : State) (e : Event) : (s.log e).currentAddress = s.currentAddress := rfl
@[simp] theorem State.log_clockSelector (s : State) (e : Event) : (s.log e).clockSelector = s.clockSelector := rfl
@[simp] theorem State.log_controlStack (s : State) (e : Event) : (s.log e).controlStack = s.controlStack := rfl
@[simp] theorem State.log_activeFamily (s : State) (e : Event) : (s.log e).activeFamily = s.activeFamily := rfl
@[simp] theorem State.log_inMode (s : State) (e : Event) : (s.log e).inMode = s.inMode := rfl
@[simp] theorem State.log_prevPage (s : State) (e : Event) : (s.log e).prevPage = s.prevPage := rfl
@[simp] theorem State.log_ispRung (s : State) (e : Event) : (s.log e).ispRung = s.ispRung := rfl
@[simp] theorem State.log_faultMark (s : State) (e : Event) : (s.log e).faultMark = s.faultMark := rfl
@[simp] theorem State.log_trace (s : State) (e : Event) : (s.log e).trace = s.trace ++ [e] := rfl
@[simp] theorem State.log_rx (s : State) (e : Event) : (s.log e).rx = s.rx := rfl
@[simp] theorem State.log_tx (s : State) (e : Event) : (s.log e).tx = s.tx := rfl
@[simp] theorem State.log_feedResult (s : State) (e : Event) : (s.log e).feedResult = s.feedResult := rfl
@[simp] theorem State.log_clock (s : State) (e : Event) : (s.log e).clock = s.clock := rfl
@[simp] theorem State.log_elapsed (s : State) (e : Event) : (s.log e).elapsed = s.elapsed := rfl
@[simp] theorem State.log_ispAnswers (s : State) (e : Event) : (s.log e).ispAnswers = s.ispAnswers := rfl
@[simp] theorem State.log_hvBytes (s : State) (e : Event) : (s.log e).hvBytes = s.hvBytes := rfl
@[simp] theorem State.log_hvReadies (s : State) (e : Event) : (s.log e).hvReadies = s.hvReadies := rfl
@[simp] theorem State.log_tpiFrames (s : State) (e : Event) : (s.log e).tpiFrames = s.tpiFrames := rfl
@[simp] theorem State.log_calls (s : State) (e : Event) : (s.log e).calls = s.calls := rfl
@[simp] theorem State.log_drawn (s : State) (e : Event) : (s.log e).drawn = s.drawn := rfl

/-! ### `State.transmit` -/

@[simp] theorem State.transmit_fs (s : State) (bs : List Byte) : (s.transmit bs).fs = s.fs := rfl
@[simp] theorem State.transmit_hdr (s : State) (bs : List Byte) : (s.transmit bs).hdr = s.hdr := rfl
@[simp] theorem State.transmit_nread (s : State) (bs : List Byte) : (s.transmit bs).nread = s.nread := rfl
@[simp] theorem State.transmit_nwant (s : State) (bs : List Byte) : (s.transmit bs).nwant = s.nwant := rfl
@[simp] theorem State.transmit_cks (s : State) (bs : List Byte) : (s.transmit bs).cks = s.cks := rfl
@[simp] theorem State.transmit_seq (s : State) (bs : List Byte) : (s.transmit bs).seq = s.seq := rfl
@[simp] theorem State.transmit_len (s : State) (bs : List Byte) : (s.transmit bs).len = s.len := rfl
@[simp] theorem State.transmit_buf (s : State) (bs : List Byte) : (s.transmit bs).buf = s.buf := rfl
@[simp] theorem State.transmit_currentAddress (s : State) (bs : List Byte) : (s.transmit bs).currentAddress = s.currentAddress := rfl
@[simp] theorem State.transmit_clockSelector (s : State) (bs : List Byte) : (s.transmit bs).clockSelector = s.clockSelector := rfl
@[simp] theorem State.transmit_controlStack (s : State) (bs : List Byte) : (s.transmit bs).controlStack = s.controlStack := rfl
@[simp] theorem State.transmit_activeFamily (s : State) (bs : List Byte) : (s.transmit bs).activeFamily = s.activeFamily := rfl
@[simp] theorem State.transmit_inMode (s : State) (bs : List Byte) : (s.transmit bs).inMode = s.inMode := rfl
@[simp] theorem State.transmit_prevPage (s : State) (bs : List Byte) : (s.transmit bs).prevPage = s.prevPage := rfl
@[simp] theorem State.transmit_ispRung (s : State) (bs : List Byte) : (s.transmit bs).ispRung = s.ispRung := rfl
@[simp] theorem State.transmit_faultMark (s : State) (bs : List Byte) : (s.transmit bs).faultMark = s.faultMark := rfl
@[simp] theorem State.transmit_trace (s : State) (bs : List Byte) : (s.transmit bs).trace = s.trace := rfl
@[simp] theorem State.transmit_rx (s : State) (bs : List Byte) : (s.transmit bs).rx = s.rx := rfl
@[simp] theorem State.transmit_tx (s : State) (bs : List Byte) : (s.transmit bs).tx = s.tx ++ bs := rfl
@[simp] theorem State.transmit_feedResult (s : State) (bs : List Byte) : (s.transmit bs).feedResult = s.feedResult := rfl
@[simp] theorem State.transmit_clock (s : State) (bs : List Byte) : (s.transmit bs).clock = s.clock := rfl
@[simp] theorem State.transmit_elapsed (s : State) (bs : List Byte) : (s.transmit bs).elapsed = s.elapsed := rfl
@[simp] theorem State.transmit_ispAnswers (s : State) (bs : List Byte) : (s.transmit bs).ispAnswers = s.ispAnswers := rfl
@[simp] theorem State.transmit_hvBytes (s : State) (bs : List Byte) : (s.transmit bs).hvBytes = s.hvBytes := rfl
@[simp] theorem State.transmit_hvReadies (s : State) (bs : List Byte) : (s.transmit bs).hvReadies = s.hvReadies := rfl
@[simp] theorem State.transmit_tpiFrames (s : State) (bs : List Byte) : (s.transmit bs).tpiFrames = s.tpiFrames := rfl
@[simp] theorem State.transmit_calls (s : State) (bs : List Byte) : (s.transmit bs).calls = s.calls := rfl
@[simp] theorem State.transmit_drawn (s : State) (bs : List Byte) : (s.transmit bs).drawn = s.drawn := rfl

/-! ### `State.writeBody` -/

@[simp] theorem State.writeBody_fs (s : State) (a : Nat) (b : Byte) : (s.writeBody a b).fs = s.fs := rfl
@[simp] theorem State.writeBody_hdr (s : State) (a : Nat) (b : Byte) : (s.writeBody a b).hdr = s.hdr := rfl
@[simp] theorem State.writeBody_nread (s : State) (a : Nat) (b : Byte) : (s.writeBody a b).nread = s.nread := rfl
@[simp] theorem State.writeBody_nwant (s : State) (a : Nat) (b : Byte) : (s.writeBody a b).nwant = s.nwant := rfl
@[simp] theorem State.writeBody_cks (s : State) (a : Nat) (b : Byte) : (s.writeBody a b).cks = s.cks := rfl
@[simp] theorem State.writeBody_seq (s : State) (a : Nat) (b : Byte) : (s.writeBody a b).seq = s.seq := rfl
@[simp] theorem State.writeBody_len (s : State) (a : Nat) (b : Byte) : (s.writeBody a b).len = s.len := rfl
@[simp] theorem State.writeBody_buf (s : State) (a : Nat) (b : Byte) : (s.writeBody a b).buf = Memory.write s.buf a b := rfl
@[simp] theorem State.writeBody_currentAddress (s : State) (a : Nat) (b : Byte) : (s.writeBody a b).currentAddress = s.currentAddress := rfl
@[simp] theorem State.writeBody_clockSelector (s : State) (a : Nat) (b : Byte) : (s.writeBody a b).clockSelector = s.clockSelector := rfl
@[simp] theorem State.writeBody_controlStack (s : State) (a : Nat) (b : Byte) : (s.writeBody a b).controlStack = s.controlStack := rfl
@[simp] theorem State.writeBody_activeFamily (s : State) (a : Nat) (b : Byte) : (s.writeBody a b).activeFamily = s.activeFamily := rfl
@[simp] theorem State.writeBody_inMode (s : State) (a : Nat) (b : Byte) : (s.writeBody a b).inMode = s.inMode := rfl
@[simp] theorem State.writeBody_prevPage (s : State) (a : Nat) (b : Byte) : (s.writeBody a b).prevPage = s.prevPage := rfl
@[simp] theorem State.writeBody_ispRung (s : State) (a : Nat) (b : Byte) : (s.writeBody a b).ispRung = s.ispRung := rfl
@[simp] theorem State.writeBody_faultMark (s : State) (a : Nat) (b : Byte) : (s.writeBody a b).faultMark = s.faultMark := rfl
@[simp] theorem State.writeBody_trace (s : State) (a : Nat) (b : Byte) : (s.writeBody a b).trace = s.trace := rfl
@[simp] theorem State.writeBody_rx (s : State) (a : Nat) (b : Byte) : (s.writeBody a b).rx = s.rx := rfl
@[simp] theorem State.writeBody_tx (s : State) (a : Nat) (b : Byte) : (s.writeBody a b).tx = s.tx := rfl
@[simp] theorem State.writeBody_feedResult (s : State) (a : Nat) (b : Byte) : (s.writeBody a b).feedResult = s.feedResult := rfl
@[simp] theorem State.writeBody_clock (s : State) (a : Nat) (b : Byte) : (s.writeBody a b).clock = s.clock := rfl
@[simp] theorem State.writeBody_elapsed (s : State) (a : Nat) (b : Byte) : (s.writeBody a b).elapsed = s.elapsed := rfl
@[simp] theorem State.writeBody_ispAnswers (s : State) (a : Nat) (b : Byte) : (s.writeBody a b).ispAnswers = s.ispAnswers := rfl
@[simp] theorem State.writeBody_hvBytes (s : State) (a : Nat) (b : Byte) : (s.writeBody a b).hvBytes = s.hvBytes := rfl
@[simp] theorem State.writeBody_hvReadies (s : State) (a : Nat) (b : Byte) : (s.writeBody a b).hvReadies = s.hvReadies := rfl
@[simp] theorem State.writeBody_tpiFrames (s : State) (a : Nat) (b : Byte) : (s.writeBody a b).tpiFrames = s.tpiFrames := rfl
@[simp] theorem State.writeBody_calls (s : State) (a : Nat) (b : Byte) : (s.writeBody a b).calls = s.calls := rfl
@[simp] theorem State.writeBody_drawn (s : State) (a : Nat) (b : Byte) : (s.writeBody a b).drawn = s.drawn := rfl

/-! ### `State.takeIsp` -/

@[simp] theorem State.takeIsp_fs (s : State) : (s.takeIsp).fs = s.fs := rfl
@[simp] theorem State.takeIsp_hdr (s : State) : (s.takeIsp).hdr = s.hdr := rfl
@[simp] theorem State.takeIsp_nread (s : State) : (s.takeIsp).nread = s.nread := rfl
@[simp] theorem State.takeIsp_nwant (s : State) : (s.takeIsp).nwant = s.nwant := rfl
@[simp] theorem State.takeIsp_cks (s : State) : (s.takeIsp).cks = s.cks := rfl
@[simp] theorem State.takeIsp_seq (s : State) : (s.takeIsp).seq = s.seq := rfl
@[simp] theorem State.takeIsp_len (s : State) : (s.takeIsp).len = s.len := rfl
@[simp] theorem State.takeIsp_buf (s : State) : (s.takeIsp).buf = s.buf := rfl
@[simp] theorem State.takeIsp_currentAddress (s : State) : (s.takeIsp).currentAddress = s.currentAddress := rfl
@[simp] theorem State.takeIsp_clockSelector (s : State) : (s.takeIsp).clockSelector = s.clockSelector := rfl
@[simp] theorem State.takeIsp_controlStack (s : State) : (s.takeIsp).controlStack = s.controlStack := rfl
@[simp] theorem State.takeIsp_activeFamily (s : State) : (s.takeIsp).activeFamily = s.activeFamily := rfl
@[simp] theorem State.takeIsp_inMode (s : State) : (s.takeIsp).inMode = s.inMode := rfl
@[simp] theorem State.takeIsp_prevPage (s : State) : (s.takeIsp).prevPage = s.prevPage := rfl
@[simp] theorem State.takeIsp_ispRung (s : State) : (s.takeIsp).ispRung = s.ispRung := rfl
@[simp] theorem State.takeIsp_faultMark (s : State) : (s.takeIsp).faultMark = s.faultMark := rfl
@[simp] theorem State.takeIsp_trace (s : State) : (s.takeIsp).trace = s.trace := rfl
@[simp] theorem State.takeIsp_rx (s : State) : (s.takeIsp).rx = s.rx := rfl
@[simp] theorem State.takeIsp_tx (s : State) : (s.takeIsp).tx = s.tx := rfl
@[simp] theorem State.takeIsp_feedResult (s : State) : (s.takeIsp).feedResult = s.feedResult := rfl
@[simp] theorem State.takeIsp_clock (s : State) : (s.takeIsp).clock = s.clock := rfl
@[simp] theorem State.takeIsp_elapsed (s : State) : (s.takeIsp).elapsed = s.elapsed := rfl
@[simp] theorem State.takeIsp_ispAnswers (s : State) : (s.takeIsp).ispAnswers = s.ispAnswers.tail := rfl
@[simp] theorem State.takeIsp_hvBytes (s : State) : (s.takeIsp).hvBytes = s.hvBytes := rfl
@[simp] theorem State.takeIsp_hvReadies (s : State) : (s.takeIsp).hvReadies = s.hvReadies := rfl
@[simp] theorem State.takeIsp_tpiFrames (s : State) : (s.takeIsp).tpiFrames = s.tpiFrames := rfl
@[simp] theorem State.takeIsp_calls (s : State) : (s.takeIsp).calls = s.calls := rfl
@[simp] theorem State.takeIsp_drawn (s : State) : (s.takeIsp).drawn = s.drawn + 1 := rfl

/-! ### `State.takeHvByte` -/

@[simp] theorem State.takeHvByte_fs (s : State) : (s.takeHvByte).fs = s.fs := rfl
@[simp] theorem State.takeHvByte_hdr (s : State) : (s.takeHvByte).hdr = s.hdr := rfl
@[simp] theorem State.takeHvByte_nread (s : State) : (s.takeHvByte).nread = s.nread := rfl
@[simp] theorem State.takeHvByte_nwant (s : State) : (s.takeHvByte).nwant = s.nwant := rfl
@[simp] theorem State.takeHvByte_cks (s : State) : (s.takeHvByte).cks = s.cks := rfl
@[simp] theorem State.takeHvByte_seq (s : State) : (s.takeHvByte).seq = s.seq := rfl
@[simp] theorem State.takeHvByte_len (s : State) : (s.takeHvByte).len = s.len := rfl
@[simp] theorem State.takeHvByte_buf (s : State) : (s.takeHvByte).buf = s.buf := rfl
@[simp] theorem State.takeHvByte_currentAddress (s : State) : (s.takeHvByte).currentAddress = s.currentAddress := rfl
@[simp] theorem State.takeHvByte_clockSelector (s : State) : (s.takeHvByte).clockSelector = s.clockSelector := rfl
@[simp] theorem State.takeHvByte_controlStack (s : State) : (s.takeHvByte).controlStack = s.controlStack := rfl
@[simp] theorem State.takeHvByte_activeFamily (s : State) : (s.takeHvByte).activeFamily = s.activeFamily := rfl
@[simp] theorem State.takeHvByte_inMode (s : State) : (s.takeHvByte).inMode = s.inMode := rfl
@[simp] theorem State.takeHvByte_prevPage (s : State) : (s.takeHvByte).prevPage = s.prevPage := rfl
@[simp] theorem State.takeHvByte_ispRung (s : State) : (s.takeHvByte).ispRung = s.ispRung := rfl
@[simp] theorem State.takeHvByte_faultMark (s : State) : (s.takeHvByte).faultMark = s.faultMark := rfl
@[simp] theorem State.takeHvByte_trace (s : State) : (s.takeHvByte).trace = s.trace := rfl
@[simp] theorem State.takeHvByte_rx (s : State) : (s.takeHvByte).rx = s.rx := rfl
@[simp] theorem State.takeHvByte_tx (s : State) : (s.takeHvByte).tx = s.tx := rfl
@[simp] theorem State.takeHvByte_feedResult (s : State) : (s.takeHvByte).feedResult = s.feedResult := rfl
@[simp] theorem State.takeHvByte_clock (s : State) : (s.takeHvByte).clock = s.clock := rfl
@[simp] theorem State.takeHvByte_elapsed (s : State) : (s.takeHvByte).elapsed = s.elapsed := rfl
@[simp] theorem State.takeHvByte_ispAnswers (s : State) : (s.takeHvByte).ispAnswers = s.ispAnswers := rfl
@[simp] theorem State.takeHvByte_hvBytes (s : State) : (s.takeHvByte).hvBytes = s.hvBytes.tail := rfl
@[simp] theorem State.takeHvByte_hvReadies (s : State) : (s.takeHvByte).hvReadies = s.hvReadies := rfl
@[simp] theorem State.takeHvByte_tpiFrames (s : State) : (s.takeHvByte).tpiFrames = s.tpiFrames := rfl
@[simp] theorem State.takeHvByte_calls (s : State) : (s.takeHvByte).calls = s.calls := rfl
@[simp] theorem State.takeHvByte_drawn (s : State) : (s.takeHvByte).drawn = s.drawn + 1 := rfl

/-! ### `State.takeHvSample` -/

@[simp] theorem State.takeHvSample_fs (s : State) : (s.takeHvSample).fs = s.fs := rfl
@[simp] theorem State.takeHvSample_hdr (s : State) : (s.takeHvSample).hdr = s.hdr := rfl
@[simp] theorem State.takeHvSample_nread (s : State) : (s.takeHvSample).nread = s.nread := rfl
@[simp] theorem State.takeHvSample_nwant (s : State) : (s.takeHvSample).nwant = s.nwant := rfl
@[simp] theorem State.takeHvSample_cks (s : State) : (s.takeHvSample).cks = s.cks := rfl
@[simp] theorem State.takeHvSample_seq (s : State) : (s.takeHvSample).seq = s.seq := rfl
@[simp] theorem State.takeHvSample_len (s : State) : (s.takeHvSample).len = s.len := rfl
@[simp] theorem State.takeHvSample_buf (s : State) : (s.takeHvSample).buf = s.buf := rfl
@[simp] theorem State.takeHvSample_currentAddress (s : State) : (s.takeHvSample).currentAddress = s.currentAddress := rfl
@[simp] theorem State.takeHvSample_clockSelector (s : State) : (s.takeHvSample).clockSelector = s.clockSelector := rfl
@[simp] theorem State.takeHvSample_controlStack (s : State) : (s.takeHvSample).controlStack = s.controlStack := rfl
@[simp] theorem State.takeHvSample_activeFamily (s : State) : (s.takeHvSample).activeFamily = s.activeFamily := rfl
@[simp] theorem State.takeHvSample_inMode (s : State) : (s.takeHvSample).inMode = s.inMode := rfl
@[simp] theorem State.takeHvSample_prevPage (s : State) : (s.takeHvSample).prevPage = s.prevPage := rfl
@[simp] theorem State.takeHvSample_ispRung (s : State) : (s.takeHvSample).ispRung = s.ispRung := rfl
@[simp] theorem State.takeHvSample_faultMark (s : State) : (s.takeHvSample).faultMark = s.faultMark := rfl
@[simp] theorem State.takeHvSample_trace (s : State) : (s.takeHvSample).trace = s.trace := rfl
@[simp] theorem State.takeHvSample_rx (s : State) : (s.takeHvSample).rx = s.rx := rfl
@[simp] theorem State.takeHvSample_tx (s : State) : (s.takeHvSample).tx = s.tx := rfl
@[simp] theorem State.takeHvSample_feedResult (s : State) : (s.takeHvSample).feedResult = s.feedResult := rfl
@[simp] theorem State.takeHvSample_clock (s : State) : (s.takeHvSample).clock = s.clock := rfl
@[simp] theorem State.takeHvSample_elapsed (s : State) : (s.takeHvSample).elapsed = s.elapsed := rfl
@[simp] theorem State.takeHvSample_ispAnswers (s : State) : (s.takeHvSample).ispAnswers = s.ispAnswers := rfl
@[simp] theorem State.takeHvSample_hvBytes (s : State) : (s.takeHvSample).hvBytes = s.hvBytes := rfl
@[simp] theorem State.takeHvSample_hvReadies (s : State) : (s.takeHvSample).hvReadies = s.hvReadies.tail := rfl
@[simp] theorem State.takeHvSample_tpiFrames (s : State) : (s.takeHvSample).tpiFrames = s.tpiFrames := rfl
@[simp] theorem State.takeHvSample_calls (s : State) : (s.takeHvSample).calls = s.calls := rfl
@[simp] theorem State.takeHvSample_drawn (s : State) : (s.takeHvSample).drawn = s.drawn + 1 := rfl

/-! ### `State.takeTpi` -/

@[simp] theorem State.takeTpi_fs (s : State) : (s.takeTpi).fs = s.fs := rfl
@[simp] theorem State.takeTpi_hdr (s : State) : (s.takeTpi).hdr = s.hdr := rfl
@[simp] theorem State.takeTpi_nread (s : State) : (s.takeTpi).nread = s.nread := rfl
@[simp] theorem State.takeTpi_nwant (s : State) : (s.takeTpi).nwant = s.nwant := rfl
@[simp] theorem State.takeTpi_cks (s : State) : (s.takeTpi).cks = s.cks := rfl
@[simp] theorem State.takeTpi_seq (s : State) : (s.takeTpi).seq = s.seq := rfl
@[simp] theorem State.takeTpi_len (s : State) : (s.takeTpi).len = s.len := rfl
@[simp] theorem State.takeTpi_buf (s : State) : (s.takeTpi).buf = s.buf := rfl
@[simp] theorem State.takeTpi_currentAddress (s : State) : (s.takeTpi).currentAddress = s.currentAddress := rfl
@[simp] theorem State.takeTpi_clockSelector (s : State) : (s.takeTpi).clockSelector = s.clockSelector := rfl
@[simp] theorem State.takeTpi_controlStack (s : State) : (s.takeTpi).controlStack = s.controlStack := rfl
@[simp] theorem State.takeTpi_activeFamily (s : State) : (s.takeTpi).activeFamily = s.activeFamily := rfl
@[simp] theorem State.takeTpi_inMode (s : State) : (s.takeTpi).inMode = s.inMode := rfl
@[simp] theorem State.takeTpi_prevPage (s : State) : (s.takeTpi).prevPage = s.prevPage := rfl
@[simp] theorem State.takeTpi_ispRung (s : State) : (s.takeTpi).ispRung = s.ispRung := rfl
@[simp] theorem State.takeTpi_faultMark (s : State) : (s.takeTpi).faultMark = s.faultMark := rfl
@[simp] theorem State.takeTpi_trace (s : State) : (s.takeTpi).trace = s.trace := rfl
@[simp] theorem State.takeTpi_rx (s : State) : (s.takeTpi).rx = s.rx := rfl
@[simp] theorem State.takeTpi_tx (s : State) : (s.takeTpi).tx = s.tx := rfl
@[simp] theorem State.takeTpi_feedResult (s : State) : (s.takeTpi).feedResult = s.feedResult := rfl
@[simp] theorem State.takeTpi_clock (s : State) : (s.takeTpi).clock = s.clock := rfl
@[simp] theorem State.takeTpi_elapsed (s : State) : (s.takeTpi).elapsed = s.elapsed := rfl
@[simp] theorem State.takeTpi_ispAnswers (s : State) : (s.takeTpi).ispAnswers = s.ispAnswers := rfl
@[simp] theorem State.takeTpi_hvBytes (s : State) : (s.takeTpi).hvBytes = s.hvBytes := rfl
@[simp] theorem State.takeTpi_hvReadies (s : State) : (s.takeTpi).hvReadies = s.hvReadies := rfl
@[simp] theorem State.takeTpi_tpiFrames (s : State) : (s.takeTpi).tpiFrames = s.tpiFrames.tail := rfl
@[simp] theorem State.takeTpi_calls (s : State) : (s.takeTpi).calls = s.calls := rfl
@[simp] theorem State.takeTpi_drawn (s : State) : (s.takeTpi).drawn = s.drawn + 1 := rfl

/-! ### `State.takeFree` -/

@[simp] theorem State.takeFree_fs (s : State) : (s.takeFree).fs = s.fs := rfl
@[simp] theorem State.takeFree_hdr (s : State) : (s.takeFree).hdr = s.hdr := rfl
@[simp] theorem State.takeFree_nread (s : State) : (s.takeFree).nread = s.nread := rfl
@[simp] theorem State.takeFree_nwant (s : State) : (s.takeFree).nwant = s.nwant := rfl
@[simp] theorem State.takeFree_cks (s : State) : (s.takeFree).cks = s.cks := rfl
@[simp] theorem State.takeFree_seq (s : State) : (s.takeFree).seq = s.seq := rfl
@[simp] theorem State.takeFree_len (s : State) : (s.takeFree).len = s.len := rfl
@[simp] theorem State.takeFree_buf (s : State) : (s.takeFree).buf = s.buf := rfl
@[simp] theorem State.takeFree_currentAddress (s : State) : (s.takeFree).currentAddress = s.currentAddress := rfl
@[simp] theorem State.takeFree_clockSelector (s : State) : (s.takeFree).clockSelector = s.clockSelector := rfl
@[simp] theorem State.takeFree_controlStack (s : State) : (s.takeFree).controlStack = s.controlStack := rfl
@[simp] theorem State.takeFree_activeFamily (s : State) : (s.takeFree).activeFamily = s.activeFamily := rfl
@[simp] theorem State.takeFree_inMode (s : State) : (s.takeFree).inMode = s.inMode := rfl
@[simp] theorem State.takeFree_prevPage (s : State) : (s.takeFree).prevPage = s.prevPage := rfl
@[simp] theorem State.takeFree_ispRung (s : State) : (s.takeFree).ispRung = s.ispRung := rfl
@[simp] theorem State.takeFree_faultMark (s : State) : (s.takeFree).faultMark = s.faultMark := rfl
@[simp] theorem State.takeFree_trace (s : State) : (s.takeFree).trace = s.trace := rfl
@[simp] theorem State.takeFree_rx (s : State) : (s.takeFree).rx = s.rx := rfl
@[simp] theorem State.takeFree_tx (s : State) : (s.takeFree).tx = s.tx := rfl
@[simp] theorem State.takeFree_feedResult (s : State) : (s.takeFree).feedResult = s.feedResult := rfl
@[simp] theorem State.takeFree_clock (s : State) : (s.takeFree).clock = s.clock := rfl
@[simp] theorem State.takeFree_elapsed (s : State) : (s.takeFree).elapsed = s.elapsed := rfl
@[simp] theorem State.takeFree_ispAnswers (s : State) : (s.takeFree).ispAnswers = s.ispAnswers := rfl
@[simp] theorem State.takeFree_hvBytes (s : State) : (s.takeFree).hvBytes = s.hvBytes := rfl
@[simp] theorem State.takeFree_hvReadies (s : State) : (s.takeFree).hvReadies = s.hvReadies := rfl
@[simp] theorem State.takeFree_tpiFrames (s : State) : (s.takeFree).tpiFrames = s.tpiFrames := rfl
@[simp] theorem State.takeFree_calls (s : State) : (s.takeFree).calls = s.calls := rfl
@[simp] theorem State.takeFree_drawn (s : State) : (s.takeFree).drawn = s.drawn + 1 := rfl

/-! ### `State.tick` -/

@[simp] theorem State.tick_fs (s : State) : (s.tick).fs = s.fs := rfl
@[simp] theorem State.tick_hdr (s : State) : (s.tick).hdr = s.hdr := rfl
@[simp] theorem State.tick_nread (s : State) : (s.tick).nread = s.nread := rfl
@[simp] theorem State.tick_nwant (s : State) : (s.tick).nwant = s.nwant := rfl
@[simp] theorem State.tick_cks (s : State) : (s.tick).cks = s.cks := rfl
@[simp] theorem State.tick_seq (s : State) : (s.tick).seq = s.seq := rfl
@[simp] theorem State.tick_len (s : State) : (s.tick).len = s.len := rfl
@[simp] theorem State.tick_buf (s : State) : (s.tick).buf = s.buf := rfl
@[simp] theorem State.tick_currentAddress (s : State) : (s.tick).currentAddress = s.currentAddress := rfl
@[simp] theorem State.tick_clockSelector (s : State) : (s.tick).clockSelector = s.clockSelector := rfl
@[simp] theorem State.tick_controlStack (s : State) : (s.tick).controlStack = s.controlStack := rfl
@[simp] theorem State.tick_activeFamily (s : State) : (s.tick).activeFamily = s.activeFamily := rfl
@[simp] theorem State.tick_inMode (s : State) : (s.tick).inMode = s.inMode := rfl
@[simp] theorem State.tick_prevPage (s : State) : (s.tick).prevPage = s.prevPage := rfl
@[simp] theorem State.tick_ispRung (s : State) : (s.tick).ispRung = s.ispRung := rfl
@[simp] theorem State.tick_faultMark (s : State) : (s.tick).faultMark = s.faultMark := rfl
@[simp] theorem State.tick_trace (s : State) : (s.tick).trace = s.trace := rfl
@[simp] theorem State.tick_rx (s : State) : (s.tick).rx = s.rx := rfl
@[simp] theorem State.tick_tx (s : State) : (s.tick).tx = s.tx := rfl
@[simp] theorem State.tick_feedResult (s : State) : (s.tick).feedResult = s.feedResult := rfl
@[simp] theorem State.tick_clock (s : State) : (s.tick).clock = s.nextReading := rfl
@[simp] theorem State.tick_elapsed (s : State) : (s.tick).elapsed = s.elapsed.tail := rfl
@[simp] theorem State.tick_ispAnswers (s : State) : (s.tick).ispAnswers = s.ispAnswers := rfl
@[simp] theorem State.tick_hvBytes (s : State) : (s.tick).hvBytes = s.hvBytes := rfl
@[simp] theorem State.tick_hvReadies (s : State) : (s.tick).hvReadies = s.hvReadies := rfl
@[simp] theorem State.tick_tpiFrames (s : State) : (s.tick).tpiFrames = s.tpiFrames := rfl
@[simp] theorem State.tick_calls (s : State) : (s.tick).calls = s.calls := rfl
@[simp] theorem State.tick_drawn (s : State) : (s.tick).drawn = s.drawn + 1 := rfl

/-! ### `State.tickFair` -/

@[simp] theorem State.tickFair_fs (s : State) (d : Word) : (s.tickFair d).fs = s.fs := rfl
@[simp] theorem State.tickFair_hdr (s : State) (d : Word) : (s.tickFair d).hdr = s.hdr := rfl
@[simp] theorem State.tickFair_nread (s : State) (d : Word) : (s.tickFair d).nread = s.nread := rfl
@[simp] theorem State.tickFair_nwant (s : State) (d : Word) : (s.tickFair d).nwant = s.nwant := rfl
@[simp] theorem State.tickFair_cks (s : State) (d : Word) : (s.tickFair d).cks = s.cks := rfl
@[simp] theorem State.tickFair_seq (s : State) (d : Word) : (s.tickFair d).seq = s.seq := rfl
@[simp] theorem State.tickFair_len (s : State) (d : Word) : (s.tickFair d).len = s.len := rfl
@[simp] theorem State.tickFair_buf (s : State) (d : Word) : (s.tickFair d).buf = s.buf := rfl
@[simp] theorem State.tickFair_currentAddress (s : State) (d : Word) : (s.tickFair d).currentAddress = s.currentAddress := rfl
@[simp] theorem State.tickFair_clockSelector (s : State) (d : Word) : (s.tickFair d).clockSelector = s.clockSelector := rfl
@[simp] theorem State.tickFair_controlStack (s : State) (d : Word) : (s.tickFair d).controlStack = s.controlStack := rfl
@[simp] theorem State.tickFair_activeFamily (s : State) (d : Word) : (s.tickFair d).activeFamily = s.activeFamily := rfl
@[simp] theorem State.tickFair_inMode (s : State) (d : Word) : (s.tickFair d).inMode = s.inMode := rfl
@[simp] theorem State.tickFair_prevPage (s : State) (d : Word) : (s.tickFair d).prevPage = s.prevPage := rfl
@[simp] theorem State.tickFair_ispRung (s : State) (d : Word) : (s.tickFair d).ispRung = s.ispRung := rfl
@[simp] theorem State.tickFair_faultMark (s : State) (d : Word) : (s.tickFair d).faultMark = s.faultMark := rfl
@[simp] theorem State.tickFair_trace (s : State) (d : Word) : (s.tickFair d).trace = s.trace := rfl
@[simp] theorem State.tickFair_rx (s : State) (d : Word) : (s.tickFair d).rx = s.rx := rfl
@[simp] theorem State.tickFair_tx (s : State) (d : Word) : (s.tickFair d).tx = s.tx := rfl
@[simp] theorem State.tickFair_feedResult (s : State) (d : Word) : (s.tickFair d).feedResult = s.feedResult := rfl
@[simp] theorem State.tickFair_clock (s : State) (d : Word) : (s.tickFair d).clock = s.clock + (s.fairElapsed d).setWidth 32 := rfl
@[simp] theorem State.tickFair_elapsed (s : State) (d : Word) : (s.tickFair d).elapsed = s.elapsed := rfl
@[simp] theorem State.tickFair_ispAnswers (s : State) (d : Word) : (s.tickFair d).ispAnswers = s.ispAnswers := rfl
@[simp] theorem State.tickFair_hvBytes (s : State) (d : Word) : (s.tickFair d).hvBytes = s.hvBytes := rfl
@[simp] theorem State.tickFair_hvReadies (s : State) (d : Word) : (s.tickFair d).hvReadies = s.hvReadies := rfl
@[simp] theorem State.tickFair_tpiFrames (s : State) (d : Word) : (s.tickFair d).tpiFrames = s.tpiFrames := rfl
@[simp] theorem State.tickFair_calls (s : State) (d : Word) : (s.tickFair d).calls = s.calls := rfl
@[simp] theorem State.tickFair_drawn (s : State) (d : Word) : (s.tickFair d).drawn = s.drawn + 1 := rfl

/-! ### `State.call` -/

@[simp] theorem State.call_fs (s : State) (c : PortCall) : (s.call c).fs = s.fs := rfl
@[simp] theorem State.call_hdr (s : State) (c : PortCall) : (s.call c).hdr = s.hdr := rfl
@[simp] theorem State.call_nread (s : State) (c : PortCall) : (s.call c).nread = s.nread := rfl
@[simp] theorem State.call_nwant (s : State) (c : PortCall) : (s.call c).nwant = s.nwant := rfl
@[simp] theorem State.call_cks (s : State) (c : PortCall) : (s.call c).cks = s.cks := rfl
@[simp] theorem State.call_seq (s : State) (c : PortCall) : (s.call c).seq = s.seq := rfl
@[simp] theorem State.call_len (s : State) (c : PortCall) : (s.call c).len = s.len := rfl
@[simp] theorem State.call_buf (s : State) (c : PortCall) : (s.call c).buf = s.buf := rfl
@[simp] theorem State.call_currentAddress (s : State) (c : PortCall) : (s.call c).currentAddress = s.currentAddress := rfl
@[simp] theorem State.call_clockSelector (s : State) (c : PortCall) : (s.call c).clockSelector = s.clockSelector := rfl
@[simp] theorem State.call_controlStack (s : State) (c : PortCall) : (s.call c).controlStack = s.controlStack := rfl
@[simp] theorem State.call_activeFamily (s : State) (c : PortCall) : (s.call c).activeFamily = s.activeFamily := rfl
@[simp] theorem State.call_inMode (s : State) (c : PortCall) : (s.call c).inMode = s.inMode := rfl
@[simp] theorem State.call_prevPage (s : State) (c : PortCall) : (s.call c).prevPage = s.prevPage := rfl
@[simp] theorem State.call_ispRung (s : State) (c : PortCall) : (s.call c).ispRung = s.ispRung := rfl
@[simp] theorem State.call_faultMark (s : State) (c : PortCall) : (s.call c).faultMark = s.faultMark := rfl
@[simp] theorem State.call_trace (s : State) (c : PortCall) : (s.call c).trace = s.trace := rfl
@[simp] theorem State.call_rx (s : State) (c : PortCall) : (s.call c).rx = s.rx := rfl
@[simp] theorem State.call_tx (s : State) (c : PortCall) : (s.call c).tx = s.tx := rfl
@[simp] theorem State.call_feedResult (s : State) (c : PortCall) : (s.call c).feedResult = s.feedResult := rfl
@[simp] theorem State.call_clock (s : State) (c : PortCall) : (s.call c).clock = s.clock := rfl
@[simp] theorem State.call_elapsed (s : State) (c : PortCall) : (s.call c).elapsed = s.elapsed := rfl
@[simp] theorem State.call_ispAnswers (s : State) (c : PortCall) : (s.call c).ispAnswers = s.ispAnswers := rfl
@[simp] theorem State.call_hvBytes (s : State) (c : PortCall) : (s.call c).hvBytes = s.hvBytes := rfl
@[simp] theorem State.call_hvReadies (s : State) (c : PortCall) : (s.call c).hvReadies = s.hvReadies := rfl
@[simp] theorem State.call_tpiFrames (s : State) (c : PortCall) : (s.call c).tpiFrames = s.tpiFrames := rfl
@[simp] theorem State.call_calls (s : State) (c : PortCall) : (s.call c).calls = c :: s.calls := rfl
@[simp] theorem State.call_drawn (s : State) (c : PortCall) : (s.call c).drawn = s.drawn := rfl

/-! ### `State.invalidatePage` -/

@[simp] theorem State.invalidatePage_fs (s : State) : (s.invalidatePage).fs = s.fs := rfl
@[simp] theorem State.invalidatePage_hdr (s : State) : (s.invalidatePage).hdr = s.hdr := rfl
@[simp] theorem State.invalidatePage_nread (s : State) : (s.invalidatePage).nread = s.nread := rfl
@[simp] theorem State.invalidatePage_nwant (s : State) : (s.invalidatePage).nwant = s.nwant := rfl
@[simp] theorem State.invalidatePage_cks (s : State) : (s.invalidatePage).cks = s.cks := rfl
@[simp] theorem State.invalidatePage_seq (s : State) : (s.invalidatePage).seq = s.seq := rfl
@[simp] theorem State.invalidatePage_len (s : State) : (s.invalidatePage).len = s.len := rfl
@[simp] theorem State.invalidatePage_buf (s : State) : (s.invalidatePage).buf = s.buf := rfl
@[simp] theorem State.invalidatePage_currentAddress (s : State) : (s.invalidatePage).currentAddress = s.currentAddress := rfl
@[simp] theorem State.invalidatePage_clockSelector (s : State) : (s.invalidatePage).clockSelector = s.clockSelector := rfl
@[simp] theorem State.invalidatePage_controlStack (s : State) : (s.invalidatePage).controlStack = s.controlStack := rfl
@[simp] theorem State.invalidatePage_activeFamily (s : State) : (s.invalidatePage).activeFamily = s.activeFamily := rfl
@[simp] theorem State.invalidatePage_inMode (s : State) : (s.invalidatePage).inMode = s.inMode := rfl
@[simp] theorem State.invalidatePage_prevPage (s : State) : (s.invalidatePage).prevPage = none := rfl
@[simp] theorem State.invalidatePage_ispRung (s : State) : (s.invalidatePage).ispRung = s.ispRung := rfl
@[simp] theorem State.invalidatePage_faultMark (s : State) : (s.invalidatePage).faultMark = s.faultMark := rfl
@[simp] theorem State.invalidatePage_trace (s : State) : (s.invalidatePage).trace = s.trace := rfl
@[simp] theorem State.invalidatePage_rx (s : State) : (s.invalidatePage).rx = s.rx := rfl
@[simp] theorem State.invalidatePage_tx (s : State) : (s.invalidatePage).tx = s.tx := rfl
@[simp] theorem State.invalidatePage_feedResult (s : State) : (s.invalidatePage).feedResult = s.feedResult := rfl
@[simp] theorem State.invalidatePage_clock (s : State) : (s.invalidatePage).clock = s.clock := rfl
@[simp] theorem State.invalidatePage_elapsed (s : State) : (s.invalidatePage).elapsed = s.elapsed := rfl
@[simp] theorem State.invalidatePage_ispAnswers (s : State) : (s.invalidatePage).ispAnswers = s.ispAnswers := rfl
@[simp] theorem State.invalidatePage_hvBytes (s : State) : (s.invalidatePage).hvBytes = s.hvBytes := rfl
@[simp] theorem State.invalidatePage_hvReadies (s : State) : (s.invalidatePage).hvReadies = s.hvReadies := rfl
@[simp] theorem State.invalidatePage_tpiFrames (s : State) : (s.invalidatePage).tpiFrames = s.tpiFrames := rfl
@[simp] theorem State.invalidatePage_calls (s : State) : (s.invalidatePage).calls = s.calls := rfl
@[simp] theorem State.invalidatePage_drawn (s : State) : (s.invalidatePage).drawn = s.drawn := rfl

/-! ### `State.advance` -/

@[simp] theorem State.advance_fs (s : State) : (s.advance).fs = s.fs := rfl
@[simp] theorem State.advance_hdr (s : State) : (s.advance).hdr = s.hdr := rfl
@[simp] theorem State.advance_nread (s : State) : (s.advance).nread = s.nread := rfl
@[simp] theorem State.advance_nwant (s : State) : (s.advance).nwant = s.nwant := rfl
@[simp] theorem State.advance_cks (s : State) : (s.advance).cks = s.cks := rfl
@[simp] theorem State.advance_seq (s : State) : (s.advance).seq = s.seq := rfl
@[simp] theorem State.advance_len (s : State) : (s.advance).len = s.len := rfl
@[simp] theorem State.advance_buf (s : State) : (s.advance).buf = s.buf := rfl
@[simp] theorem State.advance_currentAddress (s : State) : (s.advance).currentAddress = s.currentAddress + 1#32 := rfl
@[simp] theorem State.advance_clockSelector (s : State) : (s.advance).clockSelector = s.clockSelector := rfl
@[simp] theorem State.advance_controlStack (s : State) : (s.advance).controlStack = s.controlStack := rfl
@[simp] theorem State.advance_activeFamily (s : State) : (s.advance).activeFamily = s.activeFamily := rfl
@[simp] theorem State.advance_inMode (s : State) : (s.advance).inMode = s.inMode := rfl
@[simp] theorem State.advance_prevPage (s : State) : (s.advance).prevPage = s.prevPage := rfl
@[simp] theorem State.advance_ispRung (s : State) : (s.advance).ispRung = s.ispRung := rfl
@[simp] theorem State.advance_faultMark (s : State) : (s.advance).faultMark = s.faultMark := rfl
@[simp] theorem State.advance_trace (s : State) : (s.advance).trace = s.trace := rfl
@[simp] theorem State.advance_rx (s : State) : (s.advance).rx = s.rx := rfl
@[simp] theorem State.advance_tx (s : State) : (s.advance).tx = s.tx := rfl
@[simp] theorem State.advance_feedResult (s : State) : (s.advance).feedResult = s.feedResult := rfl
@[simp] theorem State.advance_clock (s : State) : (s.advance).clock = s.clock := rfl
@[simp] theorem State.advance_elapsed (s : State) : (s.advance).elapsed = s.elapsed := rfl
@[simp] theorem State.advance_ispAnswers (s : State) : (s.advance).ispAnswers = s.ispAnswers := rfl
@[simp] theorem State.advance_hvBytes (s : State) : (s.advance).hvBytes = s.hvBytes := rfl
@[simp] theorem State.advance_hvReadies (s : State) : (s.advance).hvReadies = s.hvReadies := rfl
@[simp] theorem State.advance_tpiFrames (s : State) : (s.advance).tpiFrames = s.tpiFrames := rfl
@[simp] theorem State.advance_calls (s : State) : (s.advance).calls = s.calls := rfl
@[simp] theorem State.advance_drawn (s : State) : (s.advance).drawn = s.drawn := rfl

/-! ### `State.returning` -/

@[simp] theorem State.returning_fs (s : State) (r : FeedResult) : (s.returning r).fs = s.fs := rfl
@[simp] theorem State.returning_hdr (s : State) (r : FeedResult) : (s.returning r).hdr = s.hdr := rfl
@[simp] theorem State.returning_nread (s : State) (r : FeedResult) : (s.returning r).nread = s.nread := rfl
@[simp] theorem State.returning_nwant (s : State) (r : FeedResult) : (s.returning r).nwant = s.nwant := rfl
@[simp] theorem State.returning_cks (s : State) (r : FeedResult) : (s.returning r).cks = s.cks := rfl
@[simp] theorem State.returning_seq (s : State) (r : FeedResult) : (s.returning r).seq = s.seq := rfl
@[simp] theorem State.returning_len (s : State) (r : FeedResult) : (s.returning r).len = s.len := rfl
@[simp] theorem State.returning_buf (s : State) (r : FeedResult) : (s.returning r).buf = s.buf := rfl
@[simp] theorem State.returning_currentAddress (s : State) (r : FeedResult) : (s.returning r).currentAddress = s.currentAddress := rfl
@[simp] theorem State.returning_clockSelector (s : State) (r : FeedResult) : (s.returning r).clockSelector = s.clockSelector := rfl
@[simp] theorem State.returning_controlStack (s : State) (r : FeedResult) : (s.returning r).controlStack = s.controlStack := rfl
@[simp] theorem State.returning_activeFamily (s : State) (r : FeedResult) : (s.returning r).activeFamily = s.activeFamily := rfl
@[simp] theorem State.returning_inMode (s : State) (r : FeedResult) : (s.returning r).inMode = s.inMode := rfl
@[simp] theorem State.returning_prevPage (s : State) (r : FeedResult) : (s.returning r).prevPage = s.prevPage := rfl
@[simp] theorem State.returning_ispRung (s : State) (r : FeedResult) : (s.returning r).ispRung = s.ispRung := rfl
@[simp] theorem State.returning_faultMark (s : State) (r : FeedResult) : (s.returning r).faultMark = s.faultMark := rfl
@[simp] theorem State.returning_trace (s : State) (r : FeedResult) : (s.returning r).trace = s.trace := rfl
@[simp] theorem State.returning_rx (s : State) (r : FeedResult) : (s.returning r).rx = s.rx := rfl
@[simp] theorem State.returning_tx (s : State) (r : FeedResult) : (s.returning r).tx = s.tx := rfl
@[simp] theorem State.returning_feedResult (s : State) (r : FeedResult) : (s.returning r).feedResult = some r := rfl
@[simp] theorem State.returning_clock (s : State) (r : FeedResult) : (s.returning r).clock = s.clock := rfl
@[simp] theorem State.returning_elapsed (s : State) (r : FeedResult) : (s.returning r).elapsed = s.elapsed := rfl
@[simp] theorem State.returning_ispAnswers (s : State) (r : FeedResult) : (s.returning r).ispAnswers = s.ispAnswers := rfl
@[simp] theorem State.returning_hvBytes (s : State) (r : FeedResult) : (s.returning r).hvBytes = s.hvBytes := rfl
@[simp] theorem State.returning_hvReadies (s : State) (r : FeedResult) : (s.returning r).hvReadies = s.hvReadies := rfl
@[simp] theorem State.returning_tpiFrames (s : State) (r : FeedResult) : (s.returning r).tpiFrames = s.tpiFrames := rfl
@[simp] theorem State.returning_calls (s : State) (r : FeedResult) : (s.returning r).calls = s.calls := rfl
@[simp] theorem State.returning_drawn (s : State) (r : FeedResult) : (s.returning r).drawn = s.drawn := rfl

/-! ### `State.raise` -/

@[simp] theorem State.raise_fs (s : State) (r : Fault) : (s.raise r).fs = s.fs := rfl
@[simp] theorem State.raise_hdr (s : State) (r : Fault) : (s.raise r).hdr = s.hdr := rfl
@[simp] theorem State.raise_nread (s : State) (r : Fault) : (s.raise r).nread = s.nread := rfl
@[simp] theorem State.raise_nwant (s : State) (r : Fault) : (s.raise r).nwant = s.nwant := rfl
@[simp] theorem State.raise_cks (s : State) (r : Fault) : (s.raise r).cks = s.cks := rfl
@[simp] theorem State.raise_seq (s : State) (r : Fault) : (s.raise r).seq = s.seq := rfl
@[simp] theorem State.raise_len (s : State) (r : Fault) : (s.raise r).len = s.len := rfl
@[simp] theorem State.raise_buf (s : State) (r : Fault) : (s.raise r).buf = s.buf := rfl
@[simp] theorem State.raise_currentAddress (s : State) (r : Fault) : (s.raise r).currentAddress = s.currentAddress := rfl
@[simp] theorem State.raise_clockSelector (s : State) (r : Fault) : (s.raise r).clockSelector = s.clockSelector := rfl
@[simp] theorem State.raise_controlStack (s : State) (r : Fault) : (s.raise r).controlStack = s.controlStack := rfl
@[simp] theorem State.raise_activeFamily (s : State) (r : Fault) : (s.raise r).activeFamily = s.activeFamily := rfl
@[simp] theorem State.raise_inMode (s : State) (r : Fault) : (s.raise r).inMode = s.inMode := rfl
@[simp] theorem State.raise_prevPage (s : State) (r : Fault) : (s.raise r).prevPage = s.prevPage := rfl
@[simp] theorem State.raise_ispRung (s : State) (r : Fault) : (s.raise r).ispRung = s.ispRung := rfl
@[simp] theorem State.raise_faultMark (s : State) (r : Fault) : (s.raise r).faultMark = some r := rfl
@[simp] theorem State.raise_trace (s : State) (r : Fault) : (s.raise r).trace = s.trace := rfl
@[simp] theorem State.raise_rx (s : State) (r : Fault) : (s.raise r).rx = s.rx := rfl
@[simp] theorem State.raise_tx (s : State) (r : Fault) : (s.raise r).tx = s.tx := rfl
@[simp] theorem State.raise_feedResult (s : State) (r : Fault) : (s.raise r).feedResult = s.feedResult := rfl
@[simp] theorem State.raise_clock (s : State) (r : Fault) : (s.raise r).clock = s.clock := rfl
@[simp] theorem State.raise_elapsed (s : State) (r : Fault) : (s.raise r).elapsed = s.elapsed := rfl
@[simp] theorem State.raise_ispAnswers (s : State) (r : Fault) : (s.raise r).ispAnswers = s.ispAnswers := rfl
@[simp] theorem State.raise_hvBytes (s : State) (r : Fault) : (s.raise r).hvBytes = s.hvBytes := rfl
@[simp] theorem State.raise_hvReadies (s : State) (r : Fault) : (s.raise r).hvReadies = s.hvReadies := rfl
@[simp] theorem State.raise_tpiFrames (s : State) (r : Fault) : (s.raise r).tpiFrames = s.tpiFrames := rfl
@[simp] theorem State.raise_calls (s : State) (r : Fault) : (s.raise r).calls = s.calls := rfl
@[simp] theorem State.raise_drawn (s : State) (r : Fault) : (s.raise r).drawn = s.drawn := rfl

end Sys2Proof.Machine
end

