-- ==== Sys2Proof/Laws/Ops.lean ====
section
/-! SUPPORT. What each shared operation of Machine/Ops.lean can do, said once: the body buffer, the response operations, a poll
and the routing. -/

namespace Sys2Proof.Machine

/-! ### The body buffer -/

/-- Read after write: the written byte at its index, the old byte at every other. -/
theorem Memory.lookup_write (m : Memory) (a : Nat) (b : Byte) (x : Nat) :
    Memory.lookup (Memory.write m a b) x = if x = a then some b else Memory.lookup m x := by
  induction m with
  | nil => simp only [Memory.write, Memory.lookup, eq_comm]
  | cons c m ih =>
    obtain ⟨k, v⟩ := c
    simp only [Memory.write]
    split
    · simp only [Memory.lookup, eq_comm]
    · split
      · subst_vars
        simp only [Memory.lookup]
        split <;> simp_all [eq_comm]
      · simp only [Memory.lookup, ih]
        split
        · rw [if_neg (by omega)]
        · rfl

/-- Every index a write lists was listed or is the written one. -/
theorem Memory.mem_write (m : Memory) (a : Nat) (b : Byte) (c : Host.Cell) (h : c ∈ Memory.write m a b) :
    c = (a, b) ∨ c ∈ m := by
  induction m with
  | nil => simpa [Memory.write] using h
  | cons d m ih =>
    obtain ⟨k, v⟩ := d
    simp only [Memory.write] at h
    split at h
    · simpa using h
    · split at h
      · rcases List.mem_cons.mp h with h | h <;> simp [h]
      · rcases List.mem_cons.mp h with h | h
        · simp [h]
        · rcases ih h with h | h <;> simp [h]

/-- A write at an index that exists keeps the canonical form. -/
theorem Memory.write_wf (m : Memory) (a : Nat) (b : Byte) (h : Memory.wf m) (ha : a < Config.bodyMax) :
    Memory.wf (Memory.write m a b) := by
  refine ⟨?_, fun c hc => ?_⟩
  · have hs := h.1
    clear h
    induction m with
    | nil => simp [Memory.write]
    | cons d m ih =>
      obtain ⟨k, v⟩ := d
      obtain ⟨hk, hm⟩ := List.pairwise_cons.mp hs
      simp only [Memory.write]
      split
      · refine List.pairwise_cons.mpr ⟨fun c hc => ?_, hs⟩
        rcases List.mem_cons.mp hc with rfl | hc
        · assumption
        · exact Nat.lt_trans ‹a < k› (hk c hc)
      · split
        · subst_vars
          exact List.pairwise_cons.mpr ⟨hk, hm⟩
        · refine List.pairwise_cons.mpr ⟨fun c hc => ?_, ih hm⟩
          rcases Memory.mem_write m a b c hc with rfl | hc
          · show k < a
            omega
          · exact hk c hc
  · rcases Memory.mem_write m a b c hc with rfl | hc
    · exact ha
    · exact h.2 c hc

/-- The machine's memory at reset is in canonical form. -/
theorem Memory.wf_reset : Memory.wf State.reset.buf := by simp [State.reset, Memory.wf]

/-- A body byte after a write. -/
@[simp] theorem State.bodyByte_writeBody (s : State) (a : Nat) (b : Byte) (x : Nat) :
    (s.writeBody a b).bodyByte x = if x = a then b else s.bodyByte x := by
  simp only [State.bodyByte, State.writeBody_buf, Memory.lookup_write]
  split <;> simp_all

@[simp] theorem State.log_bodyByte (s : State) (e : Event) (x : Nat) : (s.log e).bodyByte x = s.bodyByte x := rfl
@[simp] theorem State.transmit_bodyByte (s : State) (bs : List Byte) (x : Nat) : (s.transmit bs).bodyByte x = s.bodyByte x := rfl
@[simp] theorem State.takeIsp_bodyByte (s : State) (x : Nat) : (s.takeIsp).bodyByte x = s.bodyByte x := rfl
@[simp] theorem State.takeHvByte_bodyByte (s : State) (x : Nat) : (s.takeHvByte).bodyByte x = s.bodyByte x := rfl
@[simp] theorem State.takeHvSample_bodyByte (s : State) (x : Nat) : (s.takeHvSample).bodyByte x = s.bodyByte x := rfl
@[simp] theorem State.takeTpi_bodyByte (s : State) (x : Nat) : (s.takeTpi).bodyByte x = s.bodyByte x := rfl
@[simp] theorem State.takeFree_bodyByte (s : State) (x : Nat) : (s.takeFree).bodyByte x = s.bodyByte x := rfl
@[simp] theorem State.tick_bodyByte (s : State) (x : Nat) : (s.tick).bodyByte x = s.bodyByte x := rfl
@[simp] theorem State.tickFair_bodyByte (s : State) (d : Word) (x : Nat) : (s.tickFair d).bodyByte x = s.bodyByte x := rfl
@[simp] theorem State.call_bodyByte (s : State) (c : PortCall) (x : Nat) : (s.call c).bodyByte x = s.bodyByte x := rfl
@[simp] theorem State.invalidatePage_bodyByte (s : State) (x : Nat) : (s.invalidatePage).bodyByte x = s.bodyByte x := rfl
@[simp] theorem State.advance_bodyByte (s : State) (x : Nat) : (s.advance).bodyByte x = s.bodyByte x := rfl
@[simp] theorem State.returning_bodyByte (s : State) (r : FeedResult) (x : Nat) : (s.returning r).bodyByte x = s.bodyByte x := rfl
@[simp] theorem State.raise_bodyByte (s : State) (r : Fault) (x : Nat) : (s.raise r).bodyByte x = s.bodyByte x := rfl

/-- Writing a run of body bytes changes the buffer alone. -/
theorem State.writeBodyFrom_eq (s : State) (a : Nat) (bs : List Byte) :
    s.writeBodyFrom a bs = { s with buf := (s.writeBodyFrom a bs).buf } := by
  induction bs generalizing s a with
  | nil => rfl
  | cons b bs ih =>
    simp only [State.writeBodyFrom]
    rw [ih]
    rfl

@[simp] theorem State.writeBodyFrom_fs (s : State) (a : Nat) (bs : List Byte) :
    (s.writeBodyFrom a bs).fs = s.fs := by rw [State.writeBodyFrom_eq]
@[simp] theorem State.writeBodyFrom_hdr (s : State) (a : Nat) (bs : List Byte) :
    (s.writeBodyFrom a bs).hdr = s.hdr := by rw [State.writeBodyFrom_eq]
@[simp] theorem State.writeBodyFrom_nread (s : State) (a : Nat) (bs : List Byte) :
    (s.writeBodyFrom a bs).nread = s.nread := by rw [State.writeBodyFrom_eq]
@[simp] theorem State.writeBodyFrom_nwant (s : State) (a : Nat) (bs : List Byte) :
    (s.writeBodyFrom a bs).nwant = s.nwant := by rw [State.writeBodyFrom_eq]
@[simp] theorem State.writeBodyFrom_cks (s : State) (a : Nat) (bs : List Byte) :
    (s.writeBodyFrom a bs).cks = s.cks := by rw [State.writeBodyFrom_eq]
@[simp] theorem State.writeBodyFrom_seq (s : State) (a : Nat) (bs : List Byte) :
    (s.writeBodyFrom a bs).seq = s.seq := by rw [State.writeBodyFrom_eq]
@[simp] theorem State.writeBodyFrom_len (s : State) (a : Nat) (bs : List Byte) :
    (s.writeBodyFrom a bs).len = s.len := by rw [State.writeBodyFrom_eq]
@[simp] theorem State.writeBodyFrom_currentAddress (s : State) (a : Nat) (bs : List Byte) :
    (s.writeBodyFrom a bs).currentAddress = s.currentAddress := by rw [State.writeBodyFrom_eq]
@[simp] theorem State.writeBodyFrom_clockSelector (s : State) (a : Nat) (bs : List Byte) :
    (s.writeBodyFrom a bs).clockSelector = s.clockSelector := by rw [State.writeBodyFrom_eq]
@[simp] theorem State.writeBodyFrom_controlStack (s : State) (a : Nat) (bs : List Byte) :
    (s.writeBodyFrom a bs).controlStack = s.controlStack := by rw [State.writeBodyFrom_eq]
@[simp] theorem State.writeBodyFrom_activeFamily (s : State) (a : Nat) (bs : List Byte) :
    (s.writeBodyFrom a bs).activeFamily = s.activeFamily := by rw [State.writeBodyFrom_eq]
@[simp] theorem State.writeBodyFrom_inMode (s : State) (a : Nat) (bs : List Byte) :
    (s.writeBodyFrom a bs).inMode = s.inMode := by rw [State.writeBodyFrom_eq]
@[simp] theorem State.writeBodyFrom_prevPage (s : State) (a : Nat) (bs : List Byte) :
    (s.writeBodyFrom a bs).prevPage = s.prevPage := by rw [State.writeBodyFrom_eq]
@[simp] theorem State.writeBodyFrom_ispRung (s : State) (a : Nat) (bs : List Byte) :
    (s.writeBodyFrom a bs).ispRung = s.ispRung := by rw [State.writeBodyFrom_eq]
@[simp] theorem State.writeBodyFrom_faultMark (s : State) (a : Nat) (bs : List Byte) :
    (s.writeBodyFrom a bs).faultMark = s.faultMark := by rw [State.writeBodyFrom_eq]
@[simp] theorem State.writeBodyFrom_trace (s : State) (a : Nat) (bs : List Byte) :
    (s.writeBodyFrom a bs).trace = s.trace := by rw [State.writeBodyFrom_eq]
@[simp] theorem State.writeBodyFrom_rx (s : State) (a : Nat) (bs : List Byte) :
    (s.writeBodyFrom a bs).rx = s.rx := by rw [State.writeBodyFrom_eq]
@[simp] theorem State.writeBodyFrom_tx (s : State) (a : Nat) (bs : List Byte) :
    (s.writeBodyFrom a bs).tx = s.tx := by rw [State.writeBodyFrom_eq]
@[simp] theorem State.writeBodyFrom_feedResult (s : State) (a : Nat) (bs : List Byte) :
    (s.writeBodyFrom a bs).feedResult = s.feedResult := by rw [State.writeBodyFrom_eq]
@[simp] theorem State.writeBodyFrom_clock (s : State) (a : Nat) (bs : List Byte) :
    (s.writeBodyFrom a bs).clock = s.clock := by rw [State.writeBodyFrom_eq]
@[simp] theorem State.writeBodyFrom_elapsed (s : State) (a : Nat) (bs : List Byte) :
    (s.writeBodyFrom a bs).elapsed = s.elapsed := by rw [State.writeBodyFrom_eq]
@[simp] theorem State.writeBodyFrom_ispAnswers (s : State) (a : Nat) (bs : List Byte) :
    (s.writeBodyFrom a bs).ispAnswers = s.ispAnswers := by rw [State.writeBodyFrom_eq]
@[simp] theorem State.writeBodyFrom_hvBytes (s : State) (a : Nat) (bs : List Byte) :
    (s.writeBodyFrom a bs).hvBytes = s.hvBytes := by rw [State.writeBodyFrom_eq]
@[simp] theorem State.writeBodyFrom_hvReadies (s : State) (a : Nat) (bs : List Byte) :
    (s.writeBodyFrom a bs).hvReadies = s.hvReadies := by rw [State.writeBodyFrom_eq]
@[simp] theorem State.writeBodyFrom_tpiFrames (s : State) (a : Nat) (bs : List Byte) :
    (s.writeBodyFrom a bs).tpiFrames = s.tpiFrames := by rw [State.writeBodyFrom_eq]
@[simp] theorem State.writeBodyFrom_calls (s : State) (a : Nat) (bs : List Byte) :
    (s.writeBodyFrom a bs).calls = s.calls := by rw [State.writeBodyFrom_eq]
@[simp] theorem State.writeBodyFrom_drawn (s : State) (a : Nat) (bs : List Byte) :
    (s.writeBodyFrom a bs).drawn = s.drawn := by rw [State.writeBodyFrom_eq]

/-- A body byte after a run of writes. -/
theorem State.bodyByte_writeBodyFrom (s : State) (a : Nat) (bs : List Byte) (x : Nat) :
    (s.writeBodyFrom a bs).bodyByte x = if a ≤ x ∧ x < a + bs.length then bs.getD (x - a) 0#8 else s.bodyByte x := by
  induction bs generalizing s a with
  | nil => rw [if_neg (by simp)]; rfl
  | cons b bs ih =>
    simp only [State.writeBodyFrom, ih, State.bodyByte_writeBody, List.length_cons]
    by_cases hx : x = a
    · subst hx
      simp
    · by_cases h : a ≤ x
      · obtain ⟨d, rfl⟩ : ∃ d, x = a + 1 + d := ⟨x - (a + 1), by omega⟩
        have h1 : a + 1 + d - a = d + 1 := by omega
        have h2 : a + 1 + d - (a + 1) = d := by omega
        simp only [h1, h2, List.getD_cons_succ]
        split <;> split <;> first | rfl | omega
      · rw [if_neg (by omega), if_neg hx, if_neg (by omega)]

/-- Writing bytes at indices that exist keeps the canonical form. -/
theorem State.writeBodyFrom_wf (s : State) (a : Nat) (bs : List Byte) (h : Memory.wf s.buf)
    (ha : a + bs.length ≤ Config.bodyMax) : Memory.wf (s.writeBodyFrom a bs).buf := by
  induction bs generalizing s a with
  | nil => exact h
  | cons b bs ih =>
    simp only [List.length_cons] at ha
    exact ih _ _ (Memory.write_wf _ _ _ h (by omega)) (by omega)

@[simp] theorem State.length_bodyFrom (s : State) (a n : Nat) : (s.bodyFrom a n).length = n := by
  induction n generalizing a with
  | zero => rfl
  | succ n ih => simp [State.bodyFrom, ih]

/-- The bytes from an index on depend on those bytes alone. -/
theorem State.bodyFrom_congr (s t : State) (a n : Nat) (h : ∀ x, a ≤ x → x < a + n → s.bodyByte x = t.bodyByte x) :
    s.bodyFrom a n = t.bodyFrom a n := by
  induction n generalizing a with
  | zero => rfl
  | succ n ih =>
    simp only [State.bodyFrom]
    rw [h a (Nat.le_refl _) (by omega), ih (a + 1) (fun x h1 h2 => h x (by omega) (by omega))]

/-- A run of bytes is the list of which each element is the byte there. -/
theorem State.bodyFrom_eq_list (s : State) (a : Nat) (bs : List Byte)
    (h : ∀ x, x < bs.length → s.bodyByte (a + x) = bs.getD x 0#8) : s.bodyFrom a bs.length = bs := by
  induction bs generalizing a with
  | nil => rfl
  | cons b bs ih =>
    simp only [List.length_cons, State.bodyFrom]
    have h0 : s.bodyByte a = b := h 0 (by simp)
    rw [h0, ih (a + 1) fun x hx => ?_]
    have hx1 := h (x + 1) (by simpa using hx)
    rw [show a + 1 + x = a + (x + 1) by omega, hx1]
    simp

/-- One more byte at the end of a run. -/
theorem State.bodyFrom_succ (s : State) (a n : Nat) : s.bodyFrom a (n + 1) = s.bodyFrom a n ++ [s.bodyByte (a + n)] := by
  induction n generalizing a with
  | zero => simp [State.bodyFrom]
  | succ n ih =>
    rw [State.bodyFrom, ih (a + 1), State.bodyFrom, show a + 1 + n = a + (n + 1) by omega]
    rfl

/-! ### Messages and responses -/

/-- A checksum may be started anywhere: the start value is one more operand (R73). -/
theorem xorAll_start (c : Byte) (bs : List Byte) : xorAll c bs = c ^^^ xorAll 0#8 bs := by
  simp only [xorAll]
  induction bs generalizing c with
  | nil => simp
  | cons b bs ih =>
    simp only [List.foldl_cons]
    rw [ih (c ^^^ b), ih (0#8 ^^^ b), BitVec.zero_xor, BitVec.xor_assoc]

theorem xorAll_append (c : Byte) (as bs : List Byte) : xorAll c (as ++ bs) = xorAll (xorAll c as) bs := by
  simp only [xorAll, List.foldl_append]

@[simp] theorem xorAll_cons (c b : Byte) (bs : List Byte) : xorAll c (b :: bs) = xorAll (c ^^^ b) bs := rfl

@[simp] theorem xorAll_nil (c : Byte) : xorAll c [] = c := rfl

@[simp] theorem length_encodeMessage (seq : Byte) (body : List Byte) :
    (encodeMessage seq body).length = body.length + 6 := by
  simp [encodeMessage, messageHead, halfBytes]

/-- The frame a response sends is the message of its body: the accumulator of R122 ends at the exclusive or of all bytes
before it (R123). -/
theorem responseFrame_eq (seq : Byte) (n : Half) (body : List Byte) (h : n.toNat = body.length) :
    responseFrame seq n body = encodeMessage seq body := by
  have hn : n = countOf body := by
    apply BitVec.eq_of_toNat_eq
    have := n.isLt
    simp only [countOf, BitVec.toNat_ofNat]
    omega
  subst hn
  have hx : xorAll 0#8 (Config.start :: seq :: hiByte (countOf body) :: loByte (countOf body) :: Config.token :: body)
      = xorAll (Config.start ^^^ Config.token ^^^ seq) (hiByte (countOf body) :: loByte (countOf body) :: body) := by
    simp only [xorAll_cons]
    congr 1
    simp only [BitVec.zero_xor]
    ac_rfl
  simp only [responseFrame, encodeMessage, messageHead, halfBytes, List.cons_append, List.nil_append, ← hx]

/-- `SendResponse` with a length that fits: the status goes to index 0 and the message of the body is sent (R122). -/
theorem sendResponse_next (status : Byte) (n : Half) (s : State) (h : n.toNat ≤ Config.bodyMax) :
    sendResponse status n s = .next { s with
      fs := .idle
      buf := Memory.write s.buf 0 status
      tx := s.tx ++ encodeMessage s.seq ((s.writeBody 0 status).bodyFrom 0 n.toNat) } := by
  have hf := responseFrame_eq s.seq n ((s.writeBody 0 status).bodyFrom 0 n.toNat) (by simp)
  rw [sendResponse, if_neg (by omega), ← hf]
  rfl

/-- `SendXPROGResponse` with a length that fits: as `sendResponse_next`, the status at index 1 (R125). -/
theorem sendXprogResponse_next (status : Byte) (n : Half) (s : State) (h : n.toNat ≤ Config.bodyMax) :
    sendXprogResponse status n s = .next { s with
      fs := .idle
      buf := Memory.write s.buf 1 status
      tx := s.tx ++ encodeMessage s.seq ((s.writeBody 1 status).bodyFrom 0 n.toNat) } := by
  have hf := responseFrame_eq s.seq n ((s.writeBody 1 status).bodyFrom 0 n.toNat) (by simp)
  rw [sendXprogResponse, if_neg (by omega), ← hf]
  rfl

/-- A response longer than the buffer stops (R124). -/
theorem sendResponse_fault (status : Byte) (n : Half) (s : State) (h : Config.bodyMax < n.toNat) :
    sendResponse status n s = .fault .responseTooLong := if_pos h

theorem sendXprogResponse_fault (status : Byte) (n : Half) (s : State) (h : Config.bodyMax < n.toNat) :
    sendXprogResponse status n s = .fault .responseTooLong := if_pos h

/-- What the end of a normal operation does, for any end whose data fit: nothing changes but `FS`, the buffer, the transmit stream
and the caller's calls, and those as R141, R142 and R176 say. -/
theorem respond_ends (d : Done) (h : d.data.length ≤ 274) :
    ∃ f m x c, respond d = .next { d.state with fs := f, buf := m, tx := x, calls := c } ∧
      Ended d.state { d.state with fs := f, buf := m, tx := x, calls := c } d.status d.data ∧
      (Memory.wf d.state.buf → Memory.wf m) := by
  obtain ⟨status, data, s⟩ := d
  replace h : data.length ≤ 274 := h
  have hw (hb : Memory.wf s.buf) : Memory.wf (s.writeBodyFrom 1 data).buf :=
    State.writeBodyFrom_wf _ _ _ hb (by simp only [Config.bodyMax]; omega)
  have hr (a : Nat) : (s.writeBodyFrom 1 data).bodyByte a
      = if 1 ≤ a ∧ a ≤ data.length then data.getD (a - 1) 0#8 else s.bodyByte a := by
    simp only [State.bodyByte_writeBodyFrom, show ∀ a, a < 1 + data.length ↔ a ≤ data.length by omega]
  cases status with
  | ok | failed =>
    refine ⟨s.fs, (s.writeBodyFrom 1 data).buf, s.tx, _ :: s.calls, ?_, ⟨rfl, rfl, rfl, hr⟩, hw⟩
    simp only [respond, State.call]
    rw [State.writeBodyFrom_eq]
    rfl
  | timeout =>
    exact ⟨_, _, _, s.calls, sendResponse_next _ _ s (by decide),
      ⟨rfl, by simp [State.bodyFrom, State.bodyByte_writeBody, Status.code], rfl, State.bodyByte_writeBody s 0 _⟩,
      fun hb => Memory.write_wf _ _ _ hb (by decide)⟩

/-- What the end of an XPROG operation does, for any end whose data fit. -/
theorem respondX_ends (d : Done) (h : d.data.length ≤ 273) :
    ∃ f m x c, respondX d = .next { d.state with fs := f, buf := m, tx := x, calls := c } ∧
      EndedX d.state { d.state with fs := f, buf := m, tx := x, calls := c } d.status d.data ∧
      (Memory.wf d.state.buf → Memory.wf m) := by
  obtain ⟨status, data, s⟩ := d
  replace h : data.length ≤ 273 := h
  have hw (hb : Memory.wf s.buf) : Memory.wf (s.writeBodyFrom 2 data).buf :=
    State.writeBodyFrom_wf _ _ _ hb (by simp only [Config.bodyMax]; omega)
  have hr (a : Nat) : (s.writeBodyFrom 2 data).bodyByte a
      = if 2 ≤ a ∧ a ≤ data.length + 1 then data.getD (a - 2) 0#8 else s.bodyByte a := by
    simp only [State.bodyByte_writeBodyFrom, show ∀ a, a < 2 + data.length ↔ a ≤ data.length + 1 by omega]
  cases status with
  | ok | failed =>
    refine ⟨s.fs, (s.writeBodyFrom 2 data).buf, s.tx, _ :: s.calls, ?_, ⟨rfl, rfl, rfl, hr⟩, hw⟩
    simp only [respondX, State.call]
    rw [State.writeBodyFrom_eq]
    rfl
  | timeout =>
    exact ⟨_, _, _, s.calls, sendXprogResponse_next _ _ s (by decide),
      ⟨rfl, by simp [State.bodyFrom, State.bodyByte_writeBody, Status.xcode], rfl, State.bodyByte_writeBody s 1 _⟩,
      fun hb => Memory.write_wf _ _ _ hb (by decide)⟩

/-- An operation that ends only adds to the transmit stream, and leaves `FS` or returns it to `Idle`. -/
theorem Ended.tx_prefix {s t : State} {st : Status} {data : List Byte} (h : Ended s t st data) :
    s.tx <+: t.tx ∧ (t.fs = s.fs ∨ t.fs = .idle) := by
  cases st with
  | ok | failed => exact ⟨by rw [h.2.1], .inl h.1⟩
  | timeout => exact ⟨⟨_, h.2.1.symm⟩, .inr h.1⟩

theorem EndedX.tx_prefix {s t : State} {st : Status} {data : List Byte} (h : EndedX s t st data) :
    s.tx <+: t.tx ∧ (t.fs = s.fs ∨ t.fs = .idle) := by
  cases st with
  | ok | failed => exact ⟨by rw [h.2.1], .inl h.1⟩
  | timeout => exact ⟨⟨_, h.2.1.symm⟩, .inr h.1⟩

/-- The response that an answered operation owes, once the loop has taken its call: the status at index 0, and the message of the
status and the data (R80, R122). -/
theorem Answered.response {s t : State} {st : Byte} {data : List Byte} (h : Answered s t st data) (hl : data.length ≤ 274)
    (hseq : t.seq = s.seq) (c : List PortCall) :
    ∃ m, sendResponse st (BitVec.ofNat 16 (1 + data.length)) { t with calls := c } = .next { t with
        fs := .idle, buf := m, tx := s.tx ++ encodeMessage s.seq (st :: data), calls := c } ∧
      ∀ a, ({ t with buf := m } : State).bodyByte a = if a = 0 then st else t.bodyByte a := by
  have hn : (BitVec.ofNat 16 (1 + data.length)).toNat = (st :: data).length := by
    rw [BitVec.toNat_ofNat, List.length_cons]
    omega
  refine ⟨Memory.write t.buf 0 st, ?_, State.bodyByte_writeBody t 0 st⟩
  rw [sendResponse_next _ _ _ (by rw [hn, Config.bodyMax, List.length_cons]; omega), hn, h.2.1, hseq,
    State.bodyFrom_eq_list _ 0 _ fun x hx => ?_]
  rw [State.bodyByte_writeBody, Nat.zero_add]
  cases x with
  | zero => rfl
  | succ x =>
    rw [List.length_cons] at hx
    refine (if_neg (by omega)).trans ((h.2.2.2 (x + 1)).trans ?_)
    rw [if_pos (by omega)]
    simp

/-- The same of an XPROG operation: its status at index 1, `Buf[0]` sent as it stands (R80, R125). -/
theorem AnsweredX.response {s t : State} {st : Byte} {data : List Byte} (h : AnsweredX s t st data)
    (hl : data.length ≤ 273) (hseq : t.seq = s.seq) (c : List PortCall) :
    ∃ m, sendXprogResponse st (BitVec.ofNat 16 (2 + data.length)) { t with calls := c } = .next { t with
        fs := .idle, buf := m, tx := s.tx ++ encodeMessage s.seq (s.bodyByte 0 :: st :: data), calls := c } ∧
      ∀ a, ({ t with buf := m } : State).bodyByte a = if a = 1 then st else t.bodyByte a := by
  have hn : (BitVec.ofNat 16 (2 + data.length)).toNat = (s.bodyByte 0 :: st :: data).length := by
    rw [BitVec.toNat_ofNat, List.length_cons, List.length_cons]
    omega
  refine ⟨Memory.write t.buf 1 st, ?_, State.bodyByte_writeBody t 1 st⟩
  rw [sendXprogResponse_next _ _ _ (by rw [hn, Config.bodyMax]; simp only [List.length_cons]; omega), hn, h.2.1, hseq,
    State.bodyFrom_eq_list _ 0 _ fun x hx => ?_]
  rw [State.bodyByte_writeBody, Nat.zero_add]
  match x with
  | 0 => exact (if_neg (by omega)).trans ((h.2.2.2 0).trans (if_neg (by omega)))
  | 1 => rfl
  | x + 2 =>
    simp only [List.length_cons] at hx
    refine (if_neg (by omega)).trans ((h.2.2.2 (x + 2)).trans ?_)
    rw [if_pos (by omega)]
    simp

theorem respond_never_refuses (d : Done) (r : Refusal) : respond d ≠ .refused r := by
  rw [respond]
  split
  · rw [sendResponse]
    split <;> simp
  all_goals simp

theorem respondX_never_refuses (d : Done) (r : Refusal) : respondX d ≠ .refused r := by
  rw [respondX]
  split
  · rw [sendXprogResponse]
    split <;> simp
  all_goals simp

end Sys2Proof.Machine
end

