-- ==== Sys2Proof/Laws/Poll.lean ====
section
/-! SUPPORT. What one poll does: it changes nothing but TRACE and the draws, and where the inputs list its samples and readings it
ends as the rules say (42_driver_common.md R171 to R176). -/

namespace Sys2Proof.Machine

/-- Only TRACE and the draws differ, and TRACE grows. -/
def Drawn (s t : State) : Prop :=
  t = { s with
    trace := t.trace, clock := t.clock, elapsed := t.elapsed, ispAnswers := t.ispAnswers, hvBytes := t.hvBytes,
    hvReadies := t.hvReadies, tpiFrames := t.tpiFrames, drawn := t.drawn } ∧ s.trace <+: t.trace

theorem Drawn.refl (s : State) : Drawn s s := ⟨rfl, List.prefix_refl _⟩

theorem Drawn.trans {s t u : State} (h : Drawn s t) (h' : Drawn t u) : Drawn s u := by
  obtain ⟨h1, h2⟩ := h
  obtain ⟨h3, h4⟩ := h'
  refine ⟨?_, h2.trans h4⟩
  rw [h1] at h3
  exact h3

theorem drawn_log (s : State) (e : Event) : Drawn s (s.log e) := ⟨rfl, by simp⟩
theorem drawn_takeIsp (s : State) : Drawn s s.takeIsp := ⟨rfl, by simp⟩
theorem drawn_takeHvByte (s : State) : Drawn s s.takeHvByte := ⟨rfl, by simp⟩
theorem drawn_takeHvSample (s : State) : Drawn s s.takeHvSample := ⟨rfl, by simp⟩
theorem drawn_takeTpi (s : State) : Drawn s s.takeTpi := ⟨rfl, by simp⟩
theorem drawn_takeFree (s : State) : Drawn s s.takeFree := ⟨rfl, by simp⟩
theorem drawn_tick (s : State) : Drawn s s.tick := ⟨rfl, by simp⟩
theorem drawn_tickFair (s : State) (d : Word) : Drawn s (s.tickFair d) := ⟨rfl, by simp⟩

theorem drawn_ispXferAt (k : Nat) (q : Quad) (s : State) : Drawn s (ispXferAt k q s).2 :=
  (drawn_log s _).trans (drawn_takeIsp _)
theorem drawn_ispXfer (q : Quad) (s : State) : Drawn s (ispXfer q s).2 := drawn_ispXferAt _ _ _
theorem drawn_hvLoad (g : Signal) (k : Select) (v : Byte) (s : State) : Drawn s (hvLoad g k v s) := drawn_log _ _
theorem drawn_hvStrobe (g : Signal) (k : Select) (s : State) : Drawn s (hvStrobe g k s) := drawn_log _ _
theorem drawn_hvRead (k : Select) (s : State) : Drawn s (hvRead k s).2 := (drawn_log s _).trans (drawn_takeHvByte _)
theorem drawn_hvReadySample (s : State) : Drawn s (hvReadySample s).2 :=
  (drawn_log s _).trans (drawn_takeHvSample _)
theorem drawn_tpiReceive (e : Event) (s : State) : Drawn s (tpiReceive e s).2 := (drawn_log s _).trans (drawn_takeTpi _)
theorem drawn_tpiWrite (a : Word) (v : Byte) (s : State) : Drawn s (tpiWrite a v s) := drawn_log _ _
theorem drawn_tpiSetNvmCmd (c : Byte) (s : State) : Drawn s (tpiSetNvmCmd c s) := drawn_log _ _

/-- Every reading is less than half the counter's range after the one before it, the fair one too (R302). -/
theorem tick_within (s : State) : (s.tick.clock - s.clock).toNat < 2 ^ 31 := by
  have h : s.tick.clock - s.clock = (s.elapsed.headD (Config.freeElapsed s.drawn)).setWidth 32 := by
    rw [State.tick_clock, State.nextReading, BitVec.add_comm, BitVec.add_sub_cancel]
  rw [h, BitVec.toNat_setWidth]
  omega

theorem tickFair_within (s : State) (d : Word) : ((s.tickFair d).clock - s.clock).toNat < 2 ^ 31 := by
  have h : (s.tickFair d).clock - s.clock = (s.fairElapsed d).setWidth 32 := by
    rw [State.tickFair_clock, BitVec.add_comm, BitVec.add_sub_cancel]
  rw [h, BitVec.toNat_setWidth]
  omega

/-- The fair reading has reached a deadline that is ahead, whatever the free value is (R175). -/
theorem expired_tickFair (s : State) (d : Word) (h : (d - s.clock).toNat < 2 ^ 31) :
    expired (s.tickFair d).clock d = true := by
  have hm : (Config.freeElapsed s.drawn).toNat % (2 ^ 31 - (d - s.clock).toNat) < 2 ^ 31 - (d - s.clock).toNat :=
    Nat.mod_lt _ (by omega)
  rw [expired, State.tickFair_clock, BitVec.msb_eq_decide]
  simp only [State.fairElapsed, Nat.reduceSub, Nat.reducePow, Bool.not_eq_true', decide_eq_false_iff_not, not_le,
    BitVec.toNat_sub, BitVec.toNat_add, BitVec.toNat_setWidth, BitVec.toNat_ofNat] at hm h ⊢
  generalize (Config.freeElapsed s.drawn).toNat % _ = r at *
  omega

/-- A poll's deadline stays ahead until a reading has reached it, so its fair reading is one that has. -/
theorem ahead_tick (s : State) (d : Word) (h : (d - s.clock).toNat < 2 ^ 31) (he : expired s.nextReading d = false) :
    (d - s.tick.clock).toNat < 2 ^ 31 := by
  have hb := (s.elapsed.headD (Config.freeElapsed s.drawn)).isLt
  rw [expired, BitVec.msb_eq_decide] at he
  simp only [State.tick_clock, State.nextReading, Nat.reduceSub, Nat.reducePow, Bool.not_eq_false', decide_eq_true_eq,
    BitVec.toNat_sub, BitVec.toNat_add, BitVec.toNat_setWidth] at hb h he ⊢
  generalize (s.elapsed.headD (Config.freeElapsed s.drawn)).toNat = r at *
  omega

theorem drawn_readySample (s : State) : Drawn s (readySample s).2 := by
  simp only [readySample]
  split
  · exact drawn_ispXfer _ _
  · exact drawn_hvReadySample _
  · exact drawn_hvReadySample _
  · exact drawn_tpiReceive _ _

theorem drawn_pollLoop (d : Word) (es : List Millis) (s : State) : Drawn s (pollLoop d es s).2 := by
  induction es generalizing s with
  | nil =>
    simp only [pollLoop]
    split
    · exact drawn_readySample s
    · exact (drawn_readySample s).trans (drawn_tickFair _ _)
  | cons e es ih =>
    simp only [pollLoop]
    split
    · exact drawn_readySample s
    · split
      · exact (drawn_readySample s).trans (drawn_tick _)
      · exact ((drawn_readySample s).trans (drawn_tick _)).trans (ih _)

theorem drawn_pollReady (n : Half) (s : State) : Drawn s (pollReady n s).2 :=
  (drawn_tick s).trans (drawn_pollLoop _ _ _)

/-- The deadline test compares times, whatever the counter read at the start: it holds when the time that has passed is at least
the timeout (R172). -/
theorem expired_iff (start : Word) (d t : Nat) (ht : t < 2 ^ 31) (hd : d < t + 2 ^ 31) :
    expired (start + BitVec.ofNat 32 d) (start + BitVec.ofNat 32 t) = decide (t ≤ d) := by
  have h : start + BitVec.ofNat 32 d - (start + BitVec.ofNat 32 t) = BitVec.ofNat 32 d - BitVec.ofNat 32 t := by
    apply BitVec.eq_of_toNat_eq
    simp only [BitVec.toNat_sub, BitVec.toNat_add, BitVec.toNat_ofNat]
    omega
  rw [expired, h, BitVec.msb_eq_decide, BitVec.toNat_sub, BitVec.toNat_ofNat, BitVec.toNat_ofNat]
  by_cases hle : t ≤ d
  · simp only [hle, decide_true]
    simp
    omega
  · simp only [hle, decide_false]
    simp
    omega

/-- The state after `k` samples of the active family. -/
def afterSamples (k : Nat) (s : State) : State :=
  { s with
    trace := s.trace ++ List.replicate k (sampleEventOf s)
    ispAnswers := if s.activeFamily = .isp then s.ispAnswers.drop k else s.ispAnswers
    hvReadies := if s.activeFamily = .hvsp ∨ s.activeFamily = .hvpp then s.hvReadies.drop k else s.hvReadies
    tpiFrames := if s.activeFamily = .tpi then s.tpiFrames.drop k else s.tpiFrames
    drawn := s.drawn + k }

theorem ispReady_eq (r : Quad) : ispReady r = ispReadyBit r := by
  simp only [ispReady, ispReadyBit]
  cases r.b4.getLsbD 0 <;> rfl

theorem tpiReady_decode (f : Frame) : tpiReady (tpiDecode f) = tpiReadyBit f := by
  simp only [tpiReadyBit, tpiDecode]
  split
  · simp only [tpiReady, BitVec.getLsbD_extractLsb']
    cases f.getLsbD 8 <;> simp
  · rfl

/-- One sample: the first of the coming samples, and the state after it. -/
theorem readySample_eq (s : State) (b : Bool) (bs : List Bool) (h : samplesOf s = b :: bs) :
    readySample s = (b, afterSamples 1 s) := by
  cases hf : s.activeFamily <;> simp only [samplesOf, hf] at h
  · obtain ⟨q, qs, hq, rfl, -⟩ := List.map_eq_cons_iff.mp h
    simp [readySample, hf, ispXfer, ispXferAt, State.ispAnswer, hq, ispReady_eq, afterSamples, sampleEventOf, State.log,
      State.takeIsp, pollTransaction, Config.ispPoll]
  · simp [readySample, hf, hvReadySample, State.hvSample, h, afterSamples, sampleEventOf, State.log, State.takeHvSample]
  · simp [readySample, hf, hvReadySample, State.hvSample, h, afterSamples, sampleEventOf, State.log, State.takeHvSample]
  · obtain ⟨q, qs, hq, rfl, -⟩ := List.map_eq_cons_iff.mp h
    simp [readySample, hf, tpiReceive, State.tpiAnswer, hq, tpiReady_decode, afterSamples, sampleEventOf, State.log,
      State.takeTpi]

theorem samplesOf_afterSamples (k : Nat) (s : State) : samplesOf (afterSamples k s) = (samplesOf s).drop k := by
  cases hf : s.activeFamily <;> simp [samplesOf, afterSamples, hf, List.map_drop]

theorem samplesOf_tick (s : State) : samplesOf s.tick = samplesOf s := rfl

theorem afterSamples_afterSamples_tick (k : Nat) (s : State) :
    afterSamples k (afterSamples 1 s).tick
      = { afterSamples (k + 1) s with
          clock := (afterSamples 1 s).nextReading, elapsed := s.elapsed.tail, drawn := s.drawn + 1 + 1 + k } := by
  cases hf : s.activeFamily <;>
    simp [afterSamples, State.tick, sampleEventOf, hf, List.replicate_succ, ← List.drop_one, List.drop_drop, Nat.add_comm]

@[simp] theorem msSum_nil : msSum [] = 0 := rfl
@[simp] theorem msSum_cons (e : Millis) (es : List Millis) : msSum (e :: es) = e.toNat + msSum es := by simp [msSum]

/-- The reading of the counter where the inputs list the time that passes. -/
theorem nextReading_cons (s : State) (e : Millis) (es : List Millis) (start : Word) (acc : Nat) (he : s.elapsed = e :: es)
    (hc : s.clock = start + BitVec.ofNat 32 acc) : s.nextReading = start + BitVec.ofNat 32 (acc + e.toNat) := by
  simp [State.nextReading, he, hc, BitVec.ofNat_add, BitVec.add_assoc]

/-- The loop of a poll whose deadline is `t` after `start`, entered `acc` after `start`. -/
theorem pollLoop_ends (ready : Bool) (start : Word) (t : Nat) (ht : t < 2 ^ 16) (k : Nat) (s : State) (acc : Nat)
    (hacc : acc ≤ t) (hclock : s.clock = start + BitVec.ofNat 32 acc)
    (hsamples : (samplesOf s).take (k + 1) = List.replicate k false ++ [ready])
    (hlen : (if ready then k else k + 1) ≤ s.elapsed.length)
    (hbefore : k = 0 ∨ acc + msSum (s.elapsed.take k) < t)
    (hafter : ready = false → t ≤ acc + msSum (s.elapsed.take (k + 1))) :
    pollLoop (start + BitVec.ofNat 32 t) s.elapsed s
      = (ready, { afterSamples (k + 1) s with
          clock := start + BitVec.ofNat 32 (acc + msSum (s.elapsed.take (if ready then k else k + 1)))
          elapsed := s.elapsed.drop (if ready then k else k + 1)
          drawn := s.drawn + (k + 1) + (if ready then k else k + 1) }) := by
  induction k generalizing s acc with
  | zero =>
    obtain ⟨b, bs, hb⟩ : ∃ b bs, samplesOf s = b :: bs := by
      cases h : samplesOf s with
      | nil => simp [h] at hsamples
      | cons b bs => exact ⟨b, bs, rfl⟩
    obtain rfl : b = ready := by simpa [hb] using hsamples
    have hs := readySample_eq s b bs hb
    cases b with
    | true =>
      have hr : pollLoop (start + BitVec.ofNat 32 t) s.elapsed s = (true, afterSamples 1 s) := by
        cases s.elapsed <;> simp [pollLoop, hs]
      rw [hr]
      simp [afterSamples, ← hclock]
    | false =>
      obtain ⟨e, es, he⟩ : ∃ e es, s.elapsed = e :: es := by
        cases h : s.elapsed with
        | nil => simp [h] at hlen
        | cons e es => exact ⟨e, es, rfl⟩
      have hx : expired (start + BitVec.ofNat 32 (acc + e.toNat)) (start + BitVec.ofNat 32 t) = true := by
        have := e.isLt
        have h1 := hafter rfl
        simp only [he, List.take_succ_cons, List.take_zero, msSum_cons, msSum_nil, Nat.zero_add] at h1
        rw [expired_iff _ _ _ (by omega) (by omega)]
        simpa using h1
      have hr := nextReading_cons (afterSamples 1 s) e es start acc (by simpa [afterSamples] using he)
        (by simpa [afterSamples] using hclock)
      rw [he, pollLoop, hs]
      simp only [hr, hx, State.tick, Bool.false_eq_true, if_false, if_true]
      simp [afterSamples, he]
  | succ k ih =>
    obtain ⟨bs, hb⟩ : ∃ bs, samplesOf s = false :: bs := by
      cases h : samplesOf s with
      | nil => simp [h] at hsamples
      | cons b bs =>
        rw [h, List.take_succ_cons, List.replicate_succ, List.cons_append] at hsamples
        exact ⟨bs, by rw [(List.cons.inj hsamples).1]⟩
    have hs := readySample_eq s false bs hb
    obtain ⟨e, es, he⟩ : ∃ e es, s.elapsed = e :: es := by
      cases h : s.elapsed with
      | nil => cases ready <;> simp [h] at hlen
      | cons e es => exact ⟨e, es, rfl⟩
    have hlt : acc + e.toNat + msSum (es.take k) < t := by
      rcases hbefore with h | h
      · omega
      · simpa [he, Nat.add_assoc] using h
    have hr := nextReading_cons (afterSamples 1 s) e es start acc (by simpa [afterSamples] using he)
      (by simpa [afterSamples] using hclock)
    have hx : expired (start + BitVec.ofNat 32 (acc + e.toNat)) (start + BitVec.ofNat 32 t) = false := by
      rw [expired_iff _ _ _ (by omega) (by omega)]
      simp
      omega
    have hne : (afterSamples 1 s).tick.elapsed = es := by simp [afterSamples, he]
    have hi := ih (afterSamples 1 s).tick (acc + e.toNat) (by omega) (by simpa using hr)
      (by
        rw [samplesOf_tick, samplesOf_afterSamples, hb]
        rw [hb, List.take_succ_cons, List.replicate_succ, List.cons_append] at hsamples
        exact (List.cons.inj hsamples).2)
      (by rw [hne]; cases ready <;> simp [he] at hlen ⊢ <;> omega)
      (Or.inr (by rw [hne]; exact hlt))
      (fun h => by
        rw [hne]
        have := hafter h
        simpa [he, Nat.add_assoc] using this)
    rw [hne] at hi
    rw [he, pollLoop, hs, hr, hx]
    simp only [Bool.false_eq_true, if_false]
    rw [hi, afterSamples_afterSamples_tick]
    cases ready <;> simp [he, afterSamples, Nat.add_assoc, Nat.add_comm, Nat.add_left_comm]

/-- What one poll does where the inputs list its samples and readings. -/
theorem pollReady_ends (timeout : Half) (ready : Bool) (k : Nat) (s : State)
    (h : PollEnds (samplesOf s) s.elapsed timeout.toNat ready k) :
    pollReady timeout s = (ready, afterPoll ready k s) := by
  obtain ⟨hk, hsamples, hlen, hbefore, hafter⟩ := h
  obtain ⟨k, rfl⟩ : ∃ j, k = j + 1 := ⟨k - 1, by omega⟩
  obtain ⟨e, es, he⟩ : ∃ e es, s.elapsed = e :: es := by
    cases h : s.elapsed with
    | nil => cases ready <;> simp [h] at hlen
    | cons e es => exact ⟨e, es, rfl⟩
  have ht : timeout.setWidth 32 = BitVec.ofNat 32 timeout.toNat := by
    apply BitVec.eq_of_toNat_eq
    simp
  have hne : s.tick.elapsed = es := by simp [he]
  have hi := pollLoop_ends ready s.tick.clock timeout.toNat timeout.isLt k s.tick 0 (Nat.zero_le _) (by simp)
    (by rw [samplesOf_tick]; exact hsamples)
    (by rw [hne]; cases ready <;> simp [he] at hlen ⊢ <;> omega)
    (by rw [hne]; simpa [he] using hbefore)
    (fun h => by rw [hne]; simpa [he] using hafter h)
  rw [pollReady, ht]
  rw [hi, hne]
  have hr := nextReading_cons s e es s.clock 0 he (by simp)
  cases ready <;>
    simp [afterPoll, afterSamples, he, State.tick, hr, sampleEventOf, BitVec.add_assoc, BitVec.ofNat_add] <;> omega

end Sys2Proof.Machine
end

