-- ==== Sys2Proof/Laws/Drivers.lean ====
section
/-! SUPPORT. What each driver operation of Machine/Drivers.lean can do, said once: the state after the units of a paged transfer,
and what each operation leaves alone. -/

namespace Sys2Proof.Machine

/-- Stepping once and then `n` times is stepping `n + 1` times. -/
theorem add_one_add (a : Word) (n : Nat) : a + 1#32 + BitVec.ofNat 32 n = a + BitVec.ofNat 32 (n + 1) := by
  apply BitVec.eq_of_toNat_eq
  simp only [BitVec.toNat_add, BitVec.toNat_ofNat]
  omega

/-! ### HV units -/

theorem hvPattern_eq (s : State) (g : Signal) (k : Select) :
    hvPattern s g k = patternIn s.activeFamily s.controlStack g.number k.number := by
  cases h : s.activeFamily <;> simp [hvPattern, patternIn, h, csIndex]

theorem hvLoad_eq (g : Signal) (k : Select) (v : Byte) (s : State) :
    hvLoad g k v s
      = { s with trace := s.trace ++ [.hvLoad g k v (patternIn s.activeFamily s.controlStack g.number k.number)] } := by
  rw [hvLoad, hvPattern_eq]
  rfl

theorem hvStrobe_eq (g : Signal) (k : Select) (s : State) :
    hvStrobe g k s
      = { s with trace := s.trace ++ [.hvStrobe g k (patternIn s.activeFamily s.controlStack g.number k.number)] } := by
  rw [hvStrobe, hvPattern_eq]
  rfl

theorem hvRead_eq (k : Select) (s : State) :
    hvRead k s = (s.hvBytes.headD (Config.freeByte s.drawn), { s with
      trace := s.trace ++ [.hvRead k (patternIn s.activeFamily s.controlStack 4 k.number)]
      hvBytes := s.hvBytes.tail
      drawn := s.drawn + 1 }) := by
  rw [hvRead, hvPattern_eq]
  rfl

theorem hvLoadWord_eq (lo hi : Byte) (s : State) :
    hvLoadWord lo hi s = { s with trace := s.trace ++
      [.hvLoad .loadAddr .low (byteOf s.currentAddress 0) (patternIn s.activeFamily s.controlStack 0 0),
       .hvLoad .loadData .low lo (patternIn s.activeFamily s.controlStack 1 0),
       .hvLoad .loadData .high hi (patternIn s.activeFamily s.controlStack 1 1),
       .hvStrobe .pageLoad .low (patternIn s.activeFamily s.controlStack 5 0)] } := by
  simp [hvLoadWord, hvLoad_eq, hvStrobe_eq, Signal.number, Select.number]

theorem hvLoadByte_eq (b : Byte) (s : State) :
    hvLoadByte b s = { s with trace := s.trace ++
      [.hvLoad .loadAddr .low (byteOf s.currentAddress 0) (patternIn s.activeFamily s.controlStack 0 0),
       .hvLoad .loadData .low b (patternIn s.activeFamily s.controlStack 1 0),
       .hvStrobe .pageLoad .low (patternIn s.activeFamily s.controlStack 5 0)] } := by
  simp [hvLoadByte, hvLoad_eq, hvStrobe_eq, Signal.number, Select.number]

/-- The state after the units of an HV flash write. -/
theorem eachWord_hvLoadWord (data : List Byte) (s : State) :
    eachWord hvLoadWord data s = { s with
      trace := s.trace ++ hvFlashUnits (patternIn s.activeFamily s.controlStack) s.currentAddress data
      currentAddress := s.currentAddress + BitVec.ofNat 32 (data.length / 2) } := by
  match data with
  | [] => simp [eachWord, hvFlashUnits]
  | [b] => simp [eachWord, hvFlashUnits]
  | lo :: hi :: rest =>
    rw [eachWord, eachWord_hvLoadWord rest, hvFlashUnits, hvLoadWord_eq]
    simp only [State.advance, add_one_add, List.append_assoc, List.cons_append, List.nil_append, List.length_cons,
      show (rest.length + 1 + 1) / 2 = rest.length / 2 + 1 by omega]

/-- The state after the units of an HV EEPROM write. -/
theorem eachByte_hvLoadByte (data : List Byte) (s : State) :
    eachByte hvLoadByte data s = { s with
      trace := s.trace ++ hvEepromUnits (patternIn s.activeFamily s.controlStack) s.currentAddress data
      currentAddress := s.currentAddress + BitVec.ofNat 32 data.length } := by
  induction data generalizing s with
  | nil => simp [eachByte, hvEepromUnits]
  | cons b rest ih =>
    rw [eachByte, ih, hvEepromUnits, hvLoadByte_eq]
    simp only [State.advance, add_one_add, List.append_assoc, List.cons_append, List.nil_append, List.length_cons]

/-- The state after the high-order latch of an address. -/
theorem hvLatchHigh_eq (a : Word) (s : State) :
    hvLatchHigh a s
      = { s with trace := s.trace ++ hvHighEvents (patternIn s.activeFamily s.controlStack) a } := by
  cases h : Config.needExt a <;>
    simp only [hvLatchHigh, hvHighEvents, h, hvLoad_eq, Signal.number, Select.number, List.append_assoc,
      List.cons_append, List.nil_append, if_true, Bool.false_eq_true, if_false]

/-- The state after the latch of a page: nothing where the cache holds it. -/
theorem hvLatchPage_eq (mem : Mem) (s : State) :
    hvLatchPage mem s = { s with
      trace := s.trace ++
        (if s.prevPage = some ⟨mem, s.currentAddress.extractLsb' 8 16⟩ then []
         else hvHighEvents (patternIn s.activeFamily s.controlStack) s.currentAddress)
      prevPage := some ⟨mem, s.currentAddress.extractLsb' 8 16⟩ } := by
  simp only [hvLatchPage, pageKey, hvLatchHigh_eq, ne_eq, ite_not]
  split
  · rename_i h
    rw [List.append_nil, ← h]
  · rfl

/-- What the previous page holds after `u` units of an HV read from address `a` on. -/
def pageAfter (mem : Mem) (u : Nat) (a : Word) (c : Option PageKey) : Option PageKey :=
  if u = 0 then c else some (pageKey mem (a + BitVec.ofNat 32 (u - 1)))

theorem pageAfter_succ (mem : Mem) (u : Nat) (a : Word) (c : Option PageKey) :
    pageAfter mem u (a + 1#32) (some (pageKey mem a)) = pageAfter mem (u + 1) a c := by
  cases u with
  | zero => simp [pageAfter]
  | succ u => simp [pageAfter, add_one_add]

theorem hvReadWord_eq (s : State) :
    hvReadWord s = ((s.hvBytes.headD (Config.freeByte s.drawn), s.hvBytes.tail.headD (Config.freeByte (s.drawn + 1))),
      { s with
        trace := s.trace ++
          (if s.prevPage = some ⟨.flash, s.currentAddress.extractLsb' 8 16⟩ then []
           else hvHighEvents (patternIn s.activeFamily s.controlStack) s.currentAddress) ++
          [.hvLoad .loadAddr .low (byteOf s.currentAddress 0) (patternIn s.activeFamily s.controlStack 0 0),
           .hvRead .low (patternIn s.activeFamily s.controlStack 4 0),
           .hvRead .high (patternIn s.activeFamily s.controlStack 4 1)]
        prevPage := some ⟨.flash, s.currentAddress.extractLsb' 8 16⟩
        hvBytes := s.hvBytes.tail.tail
        drawn := s.drawn + 1 + 1 }) := by
  simp only [hvReadWord, hvLatchPage_eq, hvLoad_eq, hvRead_eq, Signal.number, Select.number, List.append_assoc,
    List.cons_append, List.nil_append]

theorem hvReadByte_eq (s : State) :
    hvReadByte s = (s.hvBytes.headD (Config.freeByte s.drawn),
      { s with
        trace := s.trace ++
          (if s.prevPage = some ⟨.eeprom, s.currentAddress.extractLsb' 8 16⟩ then []
           else hvHighEvents (patternIn s.activeFamily s.controlStack) s.currentAddress) ++
          [.hvLoad .loadAddr .low (byteOf s.currentAddress 0) (patternIn s.activeFamily s.controlStack 0 0),
           .hvRead .low (patternIn s.activeFamily s.controlStack 4 0)]
        prevPage := some ⟨.eeprom, s.currentAddress.extractLsb' 8 16⟩
        hvBytes := s.hvBytes.tail
        drawn := s.drawn + 1 }) := by
  simp only [hvReadByte, hvLatchPage_eq, hvLoad_eq, hvRead_eq, Signal.number, Select.number, List.append_assoc,
    List.cons_append, List.nil_append]

/-- The state after `u` words of an HV flash read, and the bytes read: as many as the units need, each listed one in its place. -/
theorem readWords_hvReadWord (u : Nat) (s : State) :
    (readWords hvReadWord u s).2 = { s with
      trace := s.trace ++ hvReadEvents (patternIn s.activeFamily s.controlStack) .flash
        [.hvRead .low (patternIn s.activeFamily s.controlStack 4 0),
         .hvRead .high (patternIn s.activeFamily s.controlStack 4 1)] u s.currentAddress s.prevPage
      currentAddress := s.currentAddress + BitVec.ofNat 32 u
      prevPage := pageAfter .flash u s.currentAddress s.prevPage
      hvBytes := s.hvBytes.drop (2 * u)
      drawn := s.drawn + 2 * u } ∧
    (readWords hvReadWord u s).1.length = 2 * u ∧
    ∀ i b, i < 2 * u → s.hvBytes[i]? = some b → (readWords hvReadWord u s).1[i]? = some b := by
  induction u generalizing s with
  | zero => simp [readWords, hvReadEvents, pageAfter]
  | succ u ih =>
    obtain ⟨h1, h2, h3⟩ := ih (hvReadWord s).2.advance
    simp only [readWords]
    refine ⟨?_, by simp only [List.length_cons, h2]; omega, fun i b hi hb => ?_⟩
    · rw [h1, hvReadWord_eq]
      simp only [State.advance, hvReadEvents, ← pageAfter_succ .flash u s.currentAddress s.prevPage, pageKey,
        add_one_add, List.append_assoc, List.cons_append, List.nil_append, List.drop_drop,
        ← List.drop_one, Nat.add_assoc, show 2 + 2 * u = 2 * (u + 1) by omega]
    · match i with
      | 0 =>
        rw [hvReadWord_eq]
        cases h : s.hvBytes <;> simp_all
      | 1 =>
        rw [hvReadWord_eq]
        cases h : s.hvBytes with
        | nil => simp_all
        | cons c cs => cases cs <;> simp_all
      | i + 2 =>
        simp only [List.getElem?_cons_succ]
        refine h3 i b (by omega) ?_
        rw [hvReadWord_eq]
        simpa [← List.drop_one, List.drop_drop, List.getElem?_drop, Nat.add_comm] using hb

/-- The state after `u` bytes of an HV EEPROM read, and the bytes read. -/
theorem readBytes_hvReadByte (u : Nat) (s : State) :
    (readBytes hvReadByte u s).2 = { s with
      trace := s.trace ++ hvReadEvents (patternIn s.activeFamily s.controlStack) .eeprom
        [.hvRead .low (patternIn s.activeFamily s.controlStack 4 0)] u s.currentAddress s.prevPage
      currentAddress := s.currentAddress + BitVec.ofNat 32 u
      prevPage := pageAfter .eeprom u s.currentAddress s.prevPage
      hvBytes := s.hvBytes.drop u
      drawn := s.drawn + u } ∧
    (readBytes hvReadByte u s).1.length = u ∧
    ∀ i b, i < u → s.hvBytes[i]? = some b → (readBytes hvReadByte u s).1[i]? = some b := by
  induction u generalizing s with
  | zero => simp [readBytes, hvReadEvents, pageAfter]
  | succ u ih =>
    obtain ⟨h1, h2, h3⟩ := ih (hvReadByte s).2.advance
    simp only [readBytes]
    refine ⟨?_, by simp only [List.length_cons, h2], fun i b hi hb => ?_⟩
    · rw [h1, hvReadByte_eq]
      simp only [State.advance, hvReadEvents, ← pageAfter_succ .eeprom u s.currentAddress s.prevPage, pageKey,
        add_one_add, List.append_assoc, List.cons_append, List.nil_append, List.drop_drop,
        ← List.drop_one, Nat.add_assoc, show 1 + u = u + 1 by omega]
    · match i with
      | 0 =>
        rw [hvReadByte_eq]
        cases h : s.hvBytes <;> simp_all
      | i + 1 =>
        simp only [List.getElem?_cons_succ]
        refine h3 i b (by omega) ?_
        rw [hvReadByte_eq]
        simpa [← List.drop_one, List.getElem?_drop, Nat.add_comm] using hb

/-! ### ISP units -/

theorem ispXfer_eq (q : Quad) (s : State) :
    ispXfer q s = (s.ispAnswers.headD (Config.freeQuad s.drawn), { s with
      trace := s.trace ++ [.ispXfer s.ispRung q]
      ispAnswers := s.ispAnswers.tail
      drawn := s.drawn + 1 }) := rfl

/-- How many answers `ExtCheck` draws at an address. -/
def extDraws (a : Word) : Nat := if byteOf a 3 = byteOf a 2 then 0 else 1

/-- The state after `ExtCheck`. -/
theorem extCheck_eq (s : State) :
    extCheck s = { s with
      trace := s.trace ++ extEvents s.ispRung s.currentAddress
      currentAddress := extAddress s.currentAddress
      ispAnswers := s.ispAnswers.drop (extDraws s.currentAddress)
      drawn := s.drawn + extDraws s.currentAddress } := by
  by_cases h : byteOf s.currentAddress 3 = byteOf s.currentAddress 2
  · have ha : extAddress s.currentAddress = s.currentAddress := by
      simp only [extAddress, byteOf] at h ⊢
      rw [← h]
      apply BitVec.eq_of_getLsbD_eq
      intro i hi
      simp only [BitVec.getLsbD_append, BitVec.getLsbD_extractLsb']
      by_cases h24 : i < 24
      · simp [h24]
      · simp only [h24, decide_false]
        simp [show i - 24 < 8 by omega, show 24 + (i - 24) = i by omega]
    simp [extCheck, h, ha, extEvents, extDraws]
  · simp [extCheck, h, extEvents, extDraws, extAddress, ispXfer_eq, loadExtended]

theorem byteOf_extAddress (a : Word) (k : Nat) (h : k < 3) : byteOf (extAddress a) k = byteOf a k := by
  simp only [extAddress, byteOf]
  apply BitVec.eq_of_getLsbD_eq
  intro i hi
  simp only [BitVec.getLsbD_extractLsb', BitVec.getLsbD_append, show 8 * k + i < 24 by omega, decide_true]
  simp

theorem ispFlashAnswers_succ (u : Nat) (a : Word) :
    ispFlashAnswers (u + 1) a = extDraws a + 2 + ispFlashAnswers u (extAddress a + 1#32) := by
  simp only [ispFlashAnswers, extDraws]
  split <;> rfl

theorem ispLoadWord_eq (lo hi : Byte) (s : State) :
    ispLoadWord lo hi s = { s with
      trace := s.trace ++ extEvents s.ispRung s.currentAddress ++
        [.ispXfer s.ispRung ⟨Config.ispLoadFlashLo, byteOf s.currentAddress 1, byteOf s.currentAddress 0, lo⟩,
         .ispXfer s.ispRung ⟨Config.ispLoadFlashHi, byteOf s.currentAddress 1, byteOf s.currentAddress 0, hi⟩]
      currentAddress := extAddress s.currentAddress
      ispAnswers := s.ispAnswers.drop (extDraws s.currentAddress + 2)
      drawn := s.drawn + (extDraws s.currentAddress + 2) } := by
  simp only [ispLoadWord, extCheck_eq, ispXfer_eq, addressed,
    byteOf_extAddress _ 1 (by decide), byteOf_extAddress _ 0 (by decide), List.append_assoc, List.cons_append,
    List.nil_append, ← List.drop_one, List.drop_drop, Nat.add_assoc]

theorem ispLoadByte_eq (b : Byte) (s : State) :
    ispLoadByte b s = { s with
      trace := s.trace ++
        [.ispXfer s.ispRung ⟨Config.ispLoadEepromPage, byteOf s.currentAddress 1, byteOf s.currentAddress 0, b⟩]
      ispAnswers := s.ispAnswers.tail
      drawn := s.drawn + 1 } := rfl

/-- The state after the units of an ISP flash write. -/
theorem eachWord_ispLoadWord (data : List Byte) (s : State) :
    eachWord ispLoadWord data s = { s with
      trace := s.trace ++ ispFlashUnits s.ispRung s.currentAddress data
      currentAddress := ispFlashAddress (data.length / 2) s.currentAddress
      ispAnswers := s.ispAnswers.drop (ispFlashAnswers (data.length / 2) s.currentAddress)
      drawn := s.drawn + ispFlashAnswers (data.length / 2) s.currentAddress } := by
  match data with
  | [] => simp [eachWord, ispFlashUnits, ispFlashAddress, ispFlashAnswers]
  | [b] => simp [eachWord, ispFlashUnits, ispFlashAddress, ispFlashAnswers]
  | lo :: hi :: rest =>
    rw [eachWord, eachWord_ispLoadWord rest, ispFlashUnits, ispLoadWord_eq]
    simp only [State.advance, List.append_assoc, List.cons_append, List.nil_append, List.length_cons,
      show (rest.length + 1 + 1) / 2 = rest.length / 2 + 1 by omega, ispFlashAddress, ispFlashAnswers_succ,
      List.drop_drop, Nat.add_assoc]

/-- The state after the units of an ISP EEPROM write. -/
theorem eachByte_ispLoadByte (data : List Byte) (s : State) :
    eachByte ispLoadByte data s = { s with
      trace := s.trace ++ ispEepromUnits s.ispRung s.currentAddress data
      currentAddress := s.currentAddress + BitVec.ofNat 32 data.length
      ispAnswers := s.ispAnswers.drop data.length
      drawn := s.drawn + data.length } := by
  induction data generalizing s with
  | nil => simp [eachByte, ispEepromUnits]
  | cons b rest ih =>
    rw [eachByte, ih, ispEepromUnits, ispLoadByte_eq]
    simp only [State.advance, add_one_add, List.append_assoc, List.cons_append, List.nil_append, List.length_cons,
      ← List.drop_one, List.drop_drop, Nat.add_assoc, Nat.add_comm 1]

theorem ispReadWord_eq (s : State) :
    ispReadWord s =
      ((((s.ispAnswers.drop (extDraws s.currentAddress)).headD
          (Config.freeQuad (s.drawn + extDraws s.currentAddress))).b4,
        ((s.ispAnswers.drop (extDraws s.currentAddress)).tail.headD
          (Config.freeQuad (s.drawn + extDraws s.currentAddress + 1))).b4),
      { s with
        trace := s.trace ++ extEvents s.ispRung s.currentAddress ++
          [.ispXfer s.ispRung ⟨Config.ispReadFlashLo, byteOf s.currentAddress 1, byteOf s.currentAddress 0, 0x00#8⟩,
           .ispXfer s.ispRung ⟨Config.ispReadFlashHi, byteOf s.currentAddress 1, byteOf s.currentAddress 0, 0x00#8⟩]
        currentAddress := extAddress s.currentAddress
        ispAnswers := s.ispAnswers.drop (extDraws s.currentAddress + 2)
        drawn := s.drawn + (extDraws s.currentAddress + 2) }) := by
  simp only [ispReadWord, extCheck_eq, ispXfer_eq, addressed,
    byteOf_extAddress _ 1 (by decide), byteOf_extAddress _ 0 (by decide), List.append_assoc, List.cons_append,
    List.nil_append, ← List.drop_one, List.drop_drop, Nat.add_assoc]

theorem ispFlashPlaces_shift (u : Nat) (a : Word) (j d : Nat) :
    ispFlashPlaces u a (j + d) = (ispFlashPlaces u a j).map (· + d) := by
  induction u generalizing a j with
  | zero => rfl
  | succ u ih =>
    simp only [ispFlashPlaces, List.map_cons]
    split
    · rw [show j + d + 2 = j + 2 + d by omega, ih, show j + d + 1 = j + 1 + d by omega]
    · rw [show j + d + 1 + 2 = j + 1 + 2 + d by omega, ih, show j + d + 1 = j + 1 + d by omega,
        show j + 1 + d + 1 = j + 1 + 1 + d by omega]

/-- The state after `u` words of an ISP flash read, and the bytes read: as many as the units need, each the last byte of the
answer in its place, where that is listed. -/
theorem readWords_ispReadWord (u : Nat) (s : State) :
    (readWords ispReadWord u s).2 = { s with
      trace := s.trace ++ ispFlashReads s.ispRung u s.currentAddress
      currentAddress := ispFlashAddress u s.currentAddress
      ispAnswers := s.ispAnswers.drop (ispFlashAnswers u s.currentAddress)
      drawn := s.drawn + ispFlashAnswers u s.currentAddress } ∧
    (readWords ispReadWord u s).1.length = 2 * u ∧
    ∀ (i p : Nat) (q : Quad), (ispFlashPlaces u s.currentAddress 0)[i]? = some p → s.ispAnswers[p]? = some q →
      (readWords ispReadWord u s).1[i]? = some q.b4 := by
  induction u generalizing s with
  | zero => simp [readWords, ispFlashReads, ispFlashAddress, ispFlashAnswers, ispFlashPlaces]
  | succ u ih =>
    obtain ⟨h1, h2, h3⟩ := ih (ispReadWord s).2.advance
    simp only [readWords]
    refine ⟨?_, by simp only [List.length_cons, h2]; omega, fun i p q hp hq => ?_⟩
    · rw [h1, ispReadWord_eq]
      simp only [State.advance, ispFlashReads, ispFlashAddress, ispFlashAnswers_succ, List.append_assoc, List.cons_append,
        List.nil_append, List.drop_drop, Nat.add_assoc]
    · have hk : (if byteOf s.currentAddress 3 = byteOf s.currentAddress 2 then 0 else 0 + 1)
          = extDraws s.currentAddress := by
        rw [extDraws]
      simp only [ispFlashPlaces, hk] at hp
      match i with
      | 0 =>
        obtain rfl : extDraws s.currentAddress = p := by simpa using hp
        rw [ispReadWord_eq]
        simp [List.head?_drop, hq]
      | 1 =>
        obtain rfl : extDraws s.currentAddress + 1 = p := by simpa using hp
        rw [ispReadWord_eq]
        simp [← List.drop_one, List.head?_drop, hq]
      | i + 2 =>
        simp only [List.getElem?_cons_succ] at hp ⊢
        rw [show extDraws s.currentAddress + 2 = 0 + (extDraws s.currentAddress + 2) by omega, ispFlashPlaces_shift,
          List.getElem?_map] at hp
        obtain ⟨p', hp', rfl⟩ := Option.map_eq_some_iff.mp hp
        have ha : (ispReadWord s).2.advance.currentAddress = extAddress s.currentAddress + 1#32 := by
          rw [ispReadWord_eq]
          rfl
        refine h3 i p' q (by rw [ha]; exact hp') ?_
        rw [ispReadWord_eq]
        simpa [List.getElem?_drop, Nat.add_comm] using hq

/-- The state after `u` bytes of an ISP EEPROM read, and the bytes read. -/
theorem readBytes_ispReadByte (u : Nat) (s : State) :
    (readBytes ispReadByte u s).2 = { s with
      trace := s.trace ++ ispEepromReads s.ispRung u s.currentAddress
      currentAddress := s.currentAddress + BitVec.ofNat 32 u
      ispAnswers := s.ispAnswers.drop u
      drawn := s.drawn + u } ∧
    (readBytes ispReadByte u s).1.length = u ∧
    ∀ (i : Nat) (q : Quad), i < u → s.ispAnswers[i]? = some q → (readBytes ispReadByte u s).1[i]? = some q.b4 := by
  induction u generalizing s with
  | zero => simp [readBytes, ispEepromReads]
  | succ u ih =>
    have hr : ispReadByte s = ((s.ispAnswers.headD (Config.freeQuad s.drawn)).b4, { s with
      trace := s.trace ++
        [.ispXfer s.ispRung ⟨Config.ispReadEeprom, byteOf s.currentAddress 1, byteOf s.currentAddress 0, 0x00#8⟩]
      ispAnswers := s.ispAnswers.tail
      drawn := s.drawn + 1 }) := rfl
    obtain ⟨h1, h2, h3⟩ := ih (ispReadByte s).2.advance
    simp only [readBytes]
    refine ⟨?_, by simp only [List.length_cons, h2], fun i q hi hq => ?_⟩
    · rw [h1, hr]
      simp only [State.advance, ispEepromReads, add_one_add, List.append_assoc, List.cons_append,
        List.nil_append, ← List.drop_one, List.drop_drop, Nat.add_assoc, Nat.add_comm 1]
    · match i with
      | 0 =>
        rw [hr]
        cases h : s.ispAnswers <;> simp_all
      | i + 1 =>
        simp only [List.getElem?_cons_succ]
        refine h3 i q (by omega) ?_
        rw [hr]
        simpa [← List.drop_one, List.getElem?_drop, Nat.add_comm] using hq

/-! ### TPI loops -/

theorem tpiWrite_eq (a : Word) (v : Byte) (s : State) :
    tpiWrite a v s = { s with trace := s.trace ++ [.tpiWrite a v] } := rfl

theorem afterPoll_tpi (ready : Bool) (k : Nat) (s : State) (h : s.activeFamily = .tpi) :
    afterPoll ready k s = { s with
      trace := s.trace ++ List.replicate k .tpiBusy
      clock := s.clock + BitVec.ofNat 32 (msSum (s.elapsed.take (if ready then k else k + 1)))
      elapsed := s.elapsed.drop (if ready then k else k + 1)
      tpiFrames := s.tpiFrames.drop k
      drawn := s.drawn + k + (if ready then k else k + 1) } := by
  simp [afterPoll, h, sampleEventOf]

theorem samplesOf_tpi (s : State) (h : s.activeFamily = .tpi) : samplesOf s = s.tpiFrames.map tpiReadyBit := by
  simp [samplesOf, h]

theorem samplesOf_afterPoll_tpi (ready : Bool) (k : Nat) (s : State) (h : s.activeFamily = .tpi) :
    samplesOf (afterPoll ready k s) = (samplesOf s).drop k := by
  rw [afterPoll_tpi _ _ _ h]
  simp [samplesOf, h, List.map_drop]

theorem elapsed_afterPoll_ready (k : Nat) (s : State) : (afterPoll true k s).elapsed = s.elapsed.drop k := rfl

theorem msSum_take_add (es : List Millis) (j k : Nat) :
    msSum (es.take (j + k)) = msSum (es.take j) + msSum ((es.drop j).take k) := by
  rw [List.take_add]
  simp [msSum]

/-- A write of two bytes with the poll after them, of a run of two or more. -/
theorem tpiWriteLoop_pair (addr : Word) (m : Nat) (b c : Byte) (rest : List Byte) (s : State) :
    tpiWriteLoop addr (2 * m) (b :: c :: rest) s =
      (let t := { s with trace := s.trace ++
          [.tpiWrite (addr + BitVec.ofNat 32 (2 * m)) b, .tpiWrite (addr + BitVec.ofNat 32 (2 * m + 1)) c] }
       if (pollReady Config.tpiTimeout t).1 then tpiWriteLoop addr (2 * (m + 1)) rest (pollReady Config.tpiTimeout t).2
       else (false, (pollReady Config.tpiTimeout t).2)) := by
  have h1 : ¬ ((2 * m + 1) % 2 = 0 ∨ c :: rest = []) := by simp
  have h2 : 2 * (m + 1) % 2 = 0 ∨ rest = [] := Or.inl (by omega)
  rw [tpiWriteLoop]
  simp only [Config.tpiWriteUnit, h1, if_false]
  rw [tpiWriteLoop]
  simp only [Config.tpiWriteUnit, show 2 * m + 1 + 1 = 2 * (m + 1) by omega, h2, if_true, tpiWrite_eq,
    List.append_assoc, List.cons_append, List.nil_append]

/-- A write of one last byte with the poll after it. -/
theorem tpiWriteLoop_last (addr : Word) (m : Nat) (b : Byte) (s : State) :
    tpiWriteLoop addr (2 * m) [b] s =
      (let t := { s with trace := s.trace ++ [.tpiWrite (addr + BitVec.ofNat 32 (2 * m)) b] }
       ((pollReady Config.tpiTimeout t).1, (pollReady Config.tpiTimeout t).2)) := by
  rw [tpiWriteLoop]
  simp only [tpiWrite_eq, or_true, if_true, tpiWriteLoop]
  have h : ∀ p : Bool × State, (if p.1 = true then (true, p.2) else (false, p.2)) = (p.1, p.2) := by
    rintro ⟨b, t⟩
    cases b <;> rfl
  exact h _

theorem tpiWriteEvents_pair (k : Nat) (ks : List Nat) (m : Nat) (a : Word) (b c : Byte) (rest : List Byte) :
    tpiWriteEvents (k :: ks) (2 * m) a (b :: c :: rest) =
      .tpiWrite a b :: .tpiWrite (a + 1#32) c :: List.replicate k .tpiBusy ++
        tpiWriteEvents ks (2 * (m + 1)) (a + 1#32 + 1#32) rest := by
  have h1 : ¬ (2 * m % 2 = 1 ∨ c :: rest = []) := by simp
  have h2 : (2 * m + 1) % 2 = 1 ∨ rest = [] := Or.inl (by omega)
  rw [tpiWriteEvents, if_neg h1, tpiWriteEvents, if_pos h2, show 2 * m + 1 + 1 = 2 * (m + 1) by omega]
  rfl

/-- The loop of `XWriteMem` where every poll ends ready. -/
theorem tpiWriteLoop_ready (addr : Word) (m : Nat) (data : List Byte) (ks : List Nat) (s : State)
    (hf : s.activeFamily = .tpi) (hks : ks.length = tpiPolls data.length)
    (hp : PollsReady (samplesOf s) s.elapsed Config.tpiTimeout.toNat ks) :
    tpiWriteLoop addr (2 * m) data s = (true, { s with
      trace := s.trace ++ tpiWriteEvents ks (2 * m) (addr + BitVec.ofNat 32 (2 * m)) data
      clock := s.clock + BitVec.ofNat 32 (msSum (s.elapsed.take ks.sum))
      elapsed := s.elapsed.drop ks.sum
      tpiFrames := s.tpiFrames.drop ks.sum
      drawn := s.drawn + 2 * ks.sum }) := by
  match data with
  | [] =>
    obtain rfl : ks = [] := by
      cases ks <;> simp [tpiPolls] at hks ⊢
    simp [tpiWriteLoop, tpiWriteEvents]
  | [b] =>
    obtain ⟨k, rfl⟩ : ∃ k, ks = [k] := by
      match ks with
      | [k] => exact ⟨k, rfl⟩
      | [] => simp [tpiPolls] at hks
      | _ :: _ :: _ => simp [tpiPolls] at hks
    obtain ⟨t, ht⟩ : ∃ t : State, t = { s with trace :=
        s.trace ++ [.tpiWrite (addr + BitVec.ofNat 32 (2 * m)) b] } := ⟨_, rfl⟩
    have htf : t.activeFamily = .tpi := by rw [ht]; exact hf
    have hts : samplesOf t = samplesOf s := by rw [ht]; rfl
    have hte : t.elapsed = s.elapsed := by rw [ht]
    have h := pollReady_ends Config.tpiTimeout true k t (by rw [hts, hte]; exact hp.1)
    rw [tpiWriteLoop_last, ← ht]
    simp only [h]
    rw [afterPoll_tpi _ _ _ htf, ht]
    simp [tpiWriteEvents]
    omega
  | b :: c :: rest =>
    obtain ⟨k, ks, rfl⟩ : ∃ k ks', ks = k :: ks' := by
      cases ks with
      | nil =>
        simp only [tpiPolls, List.length_nil, List.length_cons] at hks
        omega
      | cons k ks => exact ⟨k, ks, rfl⟩
    obtain ⟨t, ht⟩ : ∃ t : State, t = { s with trace := s.trace ++ [.tpiWrite (addr + BitVec.ofNat 32 (2 * m)) b,
        .tpiWrite (addr + BitVec.ofNat 32 (2 * m + 1)) c] } := ⟨_, rfl⟩
    have htf : t.activeFamily = .tpi := by rw [ht]; exact hf
    have hts : samplesOf t = samplesOf s := by rw [ht]; rfl
    have hte : t.elapsed = s.elapsed := by rw [ht]
    have h := pollReady_ends Config.tpiTimeout true k t (by rw [hts, hte]; exact hp.1)
    have hr := tpiWriteLoop_ready addr (m + 1) rest ks (afterPoll true k t) htf
      (by simp only [tpiPolls, List.length_cons] at hks ⊢; omega)
      (by rw [samplesOf_afterPoll_tpi _ _ _ htf, elapsed_afterPoll_ready, hts, hte]; exact hp.2)
    have e1 : addr + BitVec.ofNat 32 (2 * m) + 1#32 = addr + BitVec.ofNat 32 (2 * m + 1) := by
      rw [BitVec.add_assoc, BitVec.ofNat_add]
    have e2 : addr + BitVec.ofNat 32 (2 * m) + 1#32 + 1#32 = addr + BitVec.ofNat 32 (2 * (m + 1)) := by
      rw [BitVec.add_assoc, BitVec.add_assoc, show 2 * (m + 1) = 2 * m + 1 + 1 by omega, BitVec.ofNat_add (2 * m + 1) 1,
          BitVec.ofNat_add (2 * m) 1, BitVec.add_assoc]
    rw [tpiWriteLoop_pair, ← ht]
    simp only [h, if_true]
    rw [hr, afterPoll_tpi _ _ _ htf, tpiWriteEvents_pair, e2, e1, ht]
    simp only [List.append_assoc, List.cons_append, List.nil_append, List.sum_cons, List.drop_drop, if_true,
      msSum_take_add, BitVec.ofNat_add, BitVec.add_assoc, show s.drawn + k + k + 2 * ks.sum = s.drawn + 2 * (k + ks.sum) by omega]

/-- The loop of `XWriteMem` where the polls before end ready and the next one times out: the bytes after its unit are not
written. -/
theorem tpiWriteLoop_timeout (addr : Word) (m : Nat) (data : List Byte) (ks : List Nat) (k : Nat) (s : State)
    (hf : s.activeFamily = .tpi) (hks : ks.length < tpiPolls data.length)
    (hp : PollsReady (samplesOf s) s.elapsed Config.tpiTimeout.toNat ks)
    (hk : PollEnds ((samplesOf s).drop ks.sum) (s.elapsed.drop ks.sum) Config.tpiTimeout.toNat false k) :
    tpiWriteLoop addr (2 * m) data s = (false, { s with
      trace := s.trace ++ tpiWriteEvents (ks ++ [k]) (2 * m) (addr + BitVec.ofNat 32 (2 * m))
        (data.take (2 * (ks.length + 1)))
      clock := s.clock + BitVec.ofNat 32 (msSum (s.elapsed.take (ks.sum + k + 1)))
      elapsed := s.elapsed.drop (ks.sum + k + 1)
      tpiFrames := s.tpiFrames.drop (ks.sum + k)
      drawn := s.drawn + 2 * (ks.sum + k) + 1 }) := by
  match data with
  | [] => simp [tpiPolls] at hks
  | [b] =>
    obtain rfl : ks = [] := by
      cases ks <;> simp [tpiPolls] at hks ⊢
    obtain ⟨t, ht⟩ : ∃ t : State, t = { s with trace :=
        s.trace ++ [.tpiWrite (addr + BitVec.ofNat 32 (2 * m)) b] } := ⟨_, rfl⟩
    have htf : t.activeFamily = .tpi := by rw [ht]; exact hf
    have hts : samplesOf t = samplesOf s := by rw [ht]; rfl
    have hte : t.elapsed = s.elapsed := by rw [ht]
    have h := pollReady_ends Config.tpiTimeout false k t (by rw [hts, hte]; exact hk)
    rw [tpiWriteLoop_last, ← ht]
    simp only [h]
    rw [afterPoll_tpi _ _ _ htf, ht]
    simp [tpiWriteEvents]
    omega
  | b :: c :: rest =>
    match ks with
    | [] =>
      obtain ⟨t, ht⟩ : ∃ t : State, t = { s with trace := s.trace ++ [.tpiWrite (addr + BitVec.ofNat 32 (2 * m)) b,
          .tpiWrite (addr + BitVec.ofNat 32 (2 * m + 1)) c] } := ⟨_, rfl⟩
      have htf : t.activeFamily = .tpi := by rw [ht]; exact hf
      have hts : samplesOf t = samplesOf s := by rw [ht]; rfl
      have hte : t.elapsed = s.elapsed := by rw [ht]
      have h := pollReady_ends Config.tpiTimeout false k t (by rw [hts, hte]; exact hk)
      have e1 : addr + BitVec.ofNat 32 (2 * m) + 1#32 = addr + BitVec.ofNat 32 (2 * m + 1) := by
        rw [BitVec.add_assoc, BitVec.ofNat_add]
      rw [tpiWriteLoop_pair, ← ht]
      simp only [h, Bool.false_eq_true, if_false]
      rw [afterPoll_tpi _ _ _ htf, ht]
      simp only [List.nil_append, List.length_nil, Nat.zero_add, Nat.mul_one, List.take_succ_cons, List.take_zero,
        tpiWriteEvents_pair, e1, List.append_assoc, List.cons_append, List.sum_nil, tpiWriteEvents, List.append_nil,
        Bool.false_eq_true, if_false, show s.drawn + k + (k + 1) = s.drawn + 2 * k + 1 by omega]
    | j :: ks =>
      obtain ⟨t, ht⟩ : ∃ t : State, t = { s with trace := s.trace ++ [.tpiWrite (addr + BitVec.ofNat 32 (2 * m)) b,
          .tpiWrite (addr + BitVec.ofNat 32 (2 * m + 1)) c] } := ⟨_, rfl⟩
      have htf : t.activeFamily = .tpi := by rw [ht]; exact hf
      have hts : samplesOf t = samplesOf s := by rw [ht]; rfl
      have hte : t.elapsed = s.elapsed := by rw [ht]
      have h := pollReady_ends Config.tpiTimeout true j t (by rw [hts, hte]; exact hp.1)
      have hr := tpiWriteLoop_timeout addr (m + 1) rest ks k (afterPoll true j t) htf
        (by simp only [tpiPolls, List.length_cons] at hks ⊢; omega)
        (by rw [samplesOf_afterPoll_tpi _ _ _ htf, elapsed_afterPoll_ready, hts, hte]; exact hp.2)
        (by
          rw [List.sum_cons] at hk
          rw [samplesOf_afterPoll_tpi _ _ _ htf, elapsed_afterPoll_ready, hts, hte, List.drop_drop, List.drop_drop]
          exact hk)
      rw [tpiWriteLoop_pair, ← ht]
      simp only [h, if_true]
      have e1 : addr + BitVec.ofNat 32 (2 * m) + 1#32 = addr + BitVec.ofNat 32 (2 * m + 1) := by
        rw [BitVec.add_assoc, BitVec.ofNat_add]
      have e2 : addr + BitVec.ofNat 32 (2 * m) + 1#32 + 1#32 = addr + BitVec.ofNat 32 (2 * (m + 1)) := by
        rw [BitVec.add_assoc, BitVec.add_assoc, show 2 * (m + 1) = 2 * m + 1 + 1 by omega, BitVec.ofNat_add (2 * m + 1) 1,
          BitVec.ofNat_add (2 * m) 1, BitVec.add_assoc]
      have e3 : 2 * ((j :: ks).length + 1) = 2 * (ks.length + 1) + 1 + 1 := by
        simp only [List.length_cons]
        omega
      rw [hr, afterPoll_tpi _ _ _ htf, ht, e3, List.take_succ_cons, List.take_succ_cons, List.cons_append,
        tpiWriteEvents_pair, e2, e1]
      simp only [List.append_assoc, List.cons_append, List.nil_append, List.sum_cons, List.drop_drop, if_true,
        msSum_take_add, BitVec.ofNat_add, BitVec.add_assoc, Nat.add_assoc,
        show s.drawn + (j + (j + (2 * (ks.sum + k) + 1))) = s.drawn + (2 * (j + (ks.sum + k)) + 1) by omega]

/-- The loop of `XReadMem`: one event for each byte, as many bytes as asked for, and each that a listed frame holds. -/
theorem tpiReadLoop_eq (n : Nat) (a : Word) (s : State) :
    (tpiReadLoop a n s).2 = { s with
      trace := s.trace ++ tpiReadEvents n a
      tpiFrames := s.tpiFrames.drop n
      drawn := (tpiReadLoop a n s).2.drawn } ∧
    (tpiReadLoop a n s).1.length = n ∧
    ∀ (i : Nat) (f : Frame) (x : Byte), i < n → s.tpiFrames[i]? = some f → tpiDecode f = .byte x →
      (tpiReadLoop a n s).1[i]? = some x := by
  induction n generalizing a s with
  | zero => simp [tpiReadLoop, tpiReadEvents]
  | succ n ih =>
    have hd : ∀ v t, (tpiDataByte v t).2 = { t with drawn := (tpiDataByte v t).2.drawn } := by
      intro v t
      cases v <;> rfl
    obtain ⟨h1, h2, h3⟩ := ih (a + 1#32) (tpiDataByte (tpiReceive (.tpiRead a) s).1 (tpiReceive (.tpiRead a) s).2).2
    simp only [tpiReadLoop]
    refine ⟨?_, by simp only [List.length_cons, h2], fun i f x hi hf hx => ?_⟩
    · rw [h1, hd]
      simp [tpiReceive, tpiReadEvents, State.log, State.takeTpi, ← List.drop_one, List.drop_drop, Nat.add_comm]
    · match i with
      | 0 =>
        have : (tpiReceive (.tpiRead a) s).1 = .byte x := by
          cases h : s.tpiFrames with
          | nil => simp [h] at hf
          | cons g gs =>
            obtain rfl : g = f := by simpa [h] using hf
            simp [tpiReceive, State.tpiAnswer, h, hx]
        rw [this]
        rfl
      | i + 1 =>
        simp only [List.getElem?_cons_succ]
        refine h3 i f x (by omega) ?_ hx
        rw [hd]
        simpa [tpiReceive, ← List.drop_one, List.getElem?_drop, Nat.add_comm] using hf

/-! ### What a whole operation leaves alone -/

/-- Only `currentAddress`, TRACE and the draws differ, and TRACE grows. -/
def Stepped (s t : State) : Prop := Drawn { s with currentAddress := t.currentAddress } t

/-- Only `currentAddress`, `prevPage`, TRACE and the draws differ, and TRACE grows. -/
def Latched (s t : State) : Prop := Drawn { s with currentAddress := t.currentAddress, prevPage := t.prevPage } t

theorem Drawn.stepped {s t : State} (h : Drawn s t) : Stepped s t := by
  have ha : t.currentAddress = s.currentAddress := by rw [h.1]
  rw [Stepped, ha]
  exact h

theorem Stepped.latched {s t : State} (h : Stepped s t) : Latched s t := by
  have ha : t.prevPage = s.prevPage := by rw [h.1]
  rw [Latched, ha]
  exact h

theorem pollThenOk_drawn (n : Half) (s : State) : Drawn s (pollThenOk n s).state ∧ (pollThenOk n s).data = [] := by
  simp only [pollThenOk]
  split <;> exact ⟨drawn_pollReady n s, rfl⟩

/-- The end of an operation that only makes transactions, with its data. -/
theorem ispChipErase_drawn (n : Half) (c : Quad) (s : State) :
    Drawn s (ispChipErase n c s).state ∧ (ispChipErase n c s).data = [] :=
  ⟨(drawn_ispXfer c s).trans (pollThenOk_drawn n _).1, (pollThenOk_drawn n _).2⟩

theorem hvChipErase_drawn (n : Half) (s : State) :
    Drawn s (hvChipErase n s).state ∧ (hvChipErase n s).data = [] :=
  ⟨((drawn_hvLoad _ _ _ s).trans (drawn_hvStrobe _ _ _)).trans (pollThenOk_drawn n _).1, (pollThenOk_drawn n _).2⟩

theorem hvProgramFuse_drawn (which value : Byte) (n : Half) (s : State) :
    Drawn s (hvProgramFuse which value n s).state ∧ (hvProgramFuse which value n s).data = [] := by
  simp only [hvProgramFuse]
  split
  · exact ⟨Drawn.refl s, rfl⟩
  · exact ⟨(((drawn_hvLoad _ _ _ s).trans (drawn_hvLoad _ _ _ _)).trans (drawn_hvStrobe _ _ _)).trans
      (pollThenOk_drawn n _).1, (pollThenOk_drawn n _).2⟩

theorem hvProgramLock_drawn (value : Byte) (n : Half) (s : State) :
    Drawn s (hvProgramLock value n s).state ∧ (hvProgramLock value n s).data = [] :=
  ⟨(((drawn_hvLoad _ _ _ s).trans (drawn_hvLoad _ _ _ _)).trans (drawn_hvStrobe _ _ _)).trans
      (pollThenOk_drawn n _).1, (pollThenOk_drawn n _).2⟩

theorem hvReadFuse_drawn (which : Byte) (s : State) :
    Drawn s (hvReadFuse which s).state ∧ (hvReadFuse which s).data.length ≤ 1 := by
  simp only [hvReadFuse]
  split
  · exact ⟨Drawn.refl s, by simp [doneFailed]⟩
  · exact ⟨(drawn_hvLoad _ _ _ s).trans (drawn_hvRead _ _), by simp [doneByte, doneData]⟩

theorem hvReadLock_drawn (s : State) : Drawn s (hvReadLock s).state ∧ (hvReadLock s).data.length ≤ 1 :=
  ⟨(drawn_hvLoad _ _ _ s).trans (drawn_hvRead _ _), by simp [hvReadLock, doneByte, doneData]⟩

theorem hvReadSignature_drawn (which : Byte) (s : State) :
    Drawn s (hvReadSignature which s).state ∧ (hvReadSignature which s).data.length ≤ 1 :=
  ⟨((drawn_hvLoad _ _ _ s).trans (drawn_hvLoad _ _ _ _)).trans (drawn_hvRead _ _),
    by simp [hvReadSignature, doneByte, doneData]⟩

theorem hvReadOsccal_drawn (which : Byte) (s : State) :
    Drawn s (hvReadOsccal which s).state ∧ (hvReadOsccal which s).data.length ≤ 1 :=
  ⟨((drawn_hvLoad _ _ _ s).trans (drawn_hvLoad _ _ _ _)).trans (drawn_hvRead _ _),
    by simp [hvReadOsccal, doneByte, doneData]⟩

theorem ispWriteConfig_drawn (c : Quad) (s : State) :
    Drawn s (ispWriteConfig c s).state ∧ (ispWriteConfig c s).data = [] := ⟨drawn_ispXfer c s, rfl⟩

theorem ispReadConfig_drawn (i : Byte) (c : Quad) (s : State) :
    Drawn s (ispReadConfig i c s).state ∧ (ispReadConfig i c s).data.length ≤ 1 :=
  ⟨drawn_ispXfer c s, by simp [ispReadConfig, doneData]⟩

theorem drawn_tpiWriteLoop (addr : Word) (i : Nat) (data : List Byte) (s : State) :
    Drawn s (tpiWriteLoop addr i data s).2 := by
  induction data generalizing i s with
  | nil => exact Drawn.refl s
  | cons b rest ih =>
    simp only [tpiWriteLoop]
    split
    · split
      · exact ((drawn_tpiWrite _ _ s).trans (drawn_pollReady _ _)).trans (ih _ _)
      · exact (drawn_tpiWrite _ _ s).trans (drawn_pollReady _ _)
    · exact (drawn_tpiWrite _ _ s).trans (ih _ _)

theorem tpiErase_drawn (m : Byte) (a : Word) (s : State) : Drawn s (tpiErase m a s).state ∧ (tpiErase m a s).data = [] :=
  ⟨((drawn_tpiSetNvmCmd _ s).trans (drawn_tpiWrite _ _ _)).trans (pollThenOk_drawn _ _).1, (pollThenOk_drawn _ _).2⟩

theorem tpiWriteMem_drawn (a : Word) (data : List Byte) (s : State) :
    Drawn s (tpiWriteMem a data s).state ∧ (tpiWriteMem a data s).data = [] := by
  have h := (drawn_tpiSetNvmCmd Config.nvmWordWrite s).trans (drawn_tpiWriteLoop a 0 data _)
  simp only [tpiWriteMem]
  generalize tpiWriteLoop a 0 data (tpiSetNvmCmd Config.nvmWordWrite s) = r at h ⊢
  obtain ⟨b, t⟩ := r
  cases b <;> exact ⟨h, rfl⟩

theorem tpiReadMem_drawn (a : Word) (n : Nat) (s : State) :
    Drawn s (tpiReadMem a n s).state ∧ (tpiReadMem a n s).data.length = n := by
  obtain ⟨h1, h2, -⟩ := tpiReadLoop_eq n a s
  refine ⟨?_, h2⟩
  show Drawn s (tpiReadLoop a n s).2
  rw [h1]
  exact ⟨rfl, by simp⟩

theorem tpiEnter_drawn (s : State) : Drawn s (tpiEnter s).state ∧ (tpiEnter s).data = [] := by
  have h := (drawn_log s .tpiBringUp).trans (drawn_tpiReceive .tpiReadId _)
  simp only [tpiEnter]
  split
  · exact ⟨h, rfl⟩
  · exact ⟨h.trans (drawn_log _ _), rfl⟩

theorem hvEnter_drawn (s : State) : Drawn s (hvEnter s).state ∧ (hvEnter s).data = [] :=
  ⟨(drawn_log s _).trans (drawn_hvStrobe _ _ _), rfl⟩

/-- The ladder: only TRACE and the draws differ, and a rung that matched is one of those tried. -/
theorem drawn_ispLadder (v i : Byte) (e : Quad) (left k : Nat) (s : State) :
    Drawn s (ispLadder v i e left k s).2 ∧
      ∀ r, (ispLadder v i e left k s).1 = some r → k ≤ r ∧ r < k + left := by
  induction left generalizing k s with
  | zero => exact ⟨Drawn.refl s, by simp [ispLadder]⟩
  | succ n ih =>
    simp only [ispLadder]
    split
    · exact ⟨drawn_ispXferAt k e s, by rintro r ⟨rfl⟩; omega⟩
    · obtain ⟨h1, h2⟩ := ih (k + 1) (ispXferAt k e s).2
      exact ⟨(drawn_ispXferAt k e s).trans h1, fun r hr => by have := h2 r hr; omega⟩

/-- `Enter_ISP`: beside TRACE and the draws only `ispRung` differs, and only where the status is ok; it is a rung. -/
theorem ispEnter_drawn (v i : Byte) (e : Quad) (s : State) :
    Drawn { s with ispRung := (ispEnter v i e s).state.ispRung } (ispEnter v i e s).state ∧
    (ispEnter v i e s).data = [] ∧
    ((ispEnter v i e s).state.ispRung = s.ispRung ∨ (ispEnter v i e s).state.ispRung ≤ Config.ispLadder) := by
  have hl := drawn_ispLadder v i e (Config.ispLadder + 1) 0 (s.log .ispBringUp)
  have h := (drawn_log s .ispBringUp).trans hl.1
  have hr := hl.2
  simp only [ispEnter]
  generalize ispLadder v i e (Config.ispLadder + 1) 0 (s.log .ispBringUp) = r at h hr ⊢
  obtain ⟨k, t⟩ := r
  have hk : t.ispRung = s.ispRung := by
    have := h.1
    simp only at this
    rw [this]
  cases k with
  | none =>
    refine ⟨?_, rfl, Or.inl ?_⟩
    · show Drawn { s with ispRung := t.ispRung } (t.log .ispRelease)
      rw [hk]
      exact h.trans (drawn_log _ _)
    · exact hk
  | some k =>
    refine ⟨⟨?_, h.2⟩, rfl, Or.inr ?_⟩
    · have := h.1
      simp only [doneOk] at this ⊢
      rw [this]
    · have := hr k rfl
      simp only [doneOk, Config.ispLadder] at this ⊢
      omega

theorem ispProgram_stepped (mem : Mem) (mode : Byte) (n : Half) (data : List Byte) (s : State) :
    Stepped s (ispProgram mem mode n data s).state ∧ (ispProgram mem mode n data s).data = [] := by
  have hc : ∀ (cmd : Byte) (a : Word) (t : State), Stepped s t → Stepped s (pollThenOk n (ispCommit cmd a t)).state := by
    intro cmd a t h
    have h' := (drawn_ispXfer (addressed cmd a 0x00#8) t).trans (pollThenOk_drawn n (ispCommit cmd a t)).1
    have ha : (pollThenOk n (ispCommit cmd a t)).state.currentAddress = t.currentAddress := by rw [h'.1]
    rw [Stepped, ha]
    exact Drawn.trans h h'
  cases mem with
  | flash =>
    have hu : Stepped s (eachWord ispLoadWord data s) := by
      rw [eachWord_ispLoadWord]
      exact ⟨rfl, by simp⟩
    simp only [ispProgram, pagedWrite]
    split
    · exact ⟨hc _ _ _ hu, (pollThenOk_drawn n _).2⟩
    · exact ⟨hu, rfl⟩
  | eeprom =>
    have hu : Stepped s (eachByte ispLoadByte data s) := by
      rw [eachByte_ispLoadByte]
      exact ⟨rfl, by simp⟩
    simp only [ispProgram, pagedWrite]
    split
    · exact ⟨hc _ _ _ hu, (pollThenOk_drawn n _).2⟩
    · exact ⟨hu, rfl⟩

theorem drawn_hvCommit (a : Word) (s : State) : Drawn s (hvCommit a s) := by
  rw [hvCommit, hvLatchHigh_eq]
  refine Drawn.trans ⟨rfl, ?_⟩ (drawn_hvStrobe _ _ _)
  simp

theorem hvProgram_stepped (mem : Mem) (mode : Byte) (n : Half) (data : List Byte) (s : State) :
    Stepped s (hvProgram mem mode n data s).state ∧ (hvProgram mem mode n data s).data = [] := by
  have hc : ∀ (a : Word) (t : State), Stepped s t → Stepped s (pollThenOk n (hvCommit a t)).state := by
    intro a t h
    have h' := (drawn_hvCommit a t).trans (pollThenOk_drawn n (hvCommit a t)).1
    have ha : (pollThenOk n (hvCommit a t)).state.currentAddress = t.currentAddress := by rw [h'.1]
    rw [Stepped, ha]
    exact Drawn.trans h h'
  cases mem with
  | flash =>
    have hu : Stepped s (eachWord hvLoadWord data (hvLoad .loadCmd .low (hvWriteCmd .flash) s)) := by
      rw [eachWord_hvLoadWord, hvLoad_eq]
      exact ⟨rfl, by simp⟩
    simp only [hvProgram, pagedWrite]
    split
    · exact ⟨hc _ _ hu, (pollThenOk_drawn n _).2⟩
    · exact ⟨hu, rfl⟩
  | eeprom =>
    have hu : Stepped s (eachByte hvLoadByte data (hvLoad .loadCmd .low (hvWriteCmd .eeprom) s)) := by
      rw [eachByte_hvLoadByte, hvLoad_eq]
      exact ⟨rfl, by simp⟩
    simp only [hvProgram, pagedWrite]
    split
    · exact ⟨hc _ _ hu, (pollThenOk_drawn n _).2⟩
    · exact ⟨hu, rfl⟩

theorem ispRead_stepped (mem : Mem) (n : Nat) (s : State) :
    Stepped s (ispRead mem n s).state ∧ (ispRead mem n s).data.length ≤ n := by
  cases mem with
  | flash =>
    obtain ⟨h1, h2, -⟩ := readWords_ispReadWord (n / 2) s
    refine ⟨?_, ?_⟩
    · show Stepped s (readWords ispReadWord (n / 2) s).2
      rw [h1]
      exact ⟨rfl, by simp⟩
    · show (readWords ispReadWord (n / 2) s).1.length ≤ n
      omega
  | eeprom =>
    obtain ⟨h1, h2, -⟩ := readBytes_ispReadByte n s
    refine ⟨?_, ?_⟩
    · show Stepped s (readBytes ispReadByte n s).2
      rw [h1]
      exact ⟨rfl, by simp⟩
    · show (readBytes ispReadByte n s).1.length ≤ n
      omega

theorem hvReadMem_latched (mem : Mem) (n : Nat) (s : State) :
    Latched s (hvReadMem mem n s).state ∧ (hvReadMem mem n s).data.length ≤ n := by
  cases mem with
  | flash =>
    obtain ⟨h1, h2, -⟩ := readWords_hvReadWord (n / 2) (hvLoad .loadCmd .low (hvReadCmd .flash) s)
    refine ⟨?_, ?_⟩
    · show Latched s (readWords hvReadWord (n / 2) (hvLoad .loadCmd .low (hvReadCmd .flash) s)).2
      rw [h1, hvLoad_eq]
      exact ⟨rfl, by simp⟩
    · show (readWords hvReadWord (n / 2) (hvLoad .loadCmd .low (hvReadCmd .flash) s)).1.length ≤ n
      omega
  | eeprom =>
    obtain ⟨h1, h2, -⟩ := readBytes_hvReadByte n (hvLoad .loadCmd .low (hvReadCmd .eeprom) s)
    refine ⟨?_, ?_⟩
    · show Latched s (readBytes hvReadByte n (hvLoad .loadCmd .low (hvReadCmd .eeprom) s)).2
      rw [h1, hvLoad_eq]
      exact ⟨rfl, by simp⟩
    · show (readBytes hvReadByte n (hvLoad .loadCmd .low (hvReadCmd .eeprom) s)).1.length ≤ n
      omega

end Sys2Proof.Machine
end

