-- ==== Sys2Proof/Laws/Exec.lean ====
section
/-! SUPPORT. One equation for `exec`: a command is checked, performed, and ended in the form of its request. Later lemmas
about every command are about `perform`, and cite the lemma of its driver operation. -/

namespace Sys2Proof.Machine

/-- The operation a command performs, with 42_driver_common.md R170 applied first (but for the paged reads). -/
def perform (i : Instr) (s : State) : Done :=
  match i with
  | .setParameter id value => setParameter id value s.invalidatePage
  | .loadAddress addr => loadAddress addr s.invalidatePage
  | .enterProgmodeIsp _ _ pollValue pollIndex e => entering .isp (ispEnter pollValue pollIndex e) s.invalidatePage
  | .leaveProgmodeIsp _ => routed ispLeave hvLeave s.invalidatePage
  | .chipEraseIsp timeout _ c => routed (ispChipErase (timeoutOf timeout) c) (hvChipErase (timeoutOf timeout)) s.invalidatePage
  | .programFlashIsp mode timeout _ data => routed (ispProgram .flash mode (timeoutOf timeout) data)
      (hvProgram .flash mode (timeoutOf timeout) data) s.invalidatePage
  | .readFlashIsp n _ => routed (ispRead .flash n.toNat) (hvReadMem .flash n.toNat) s
  | .programEepromIsp mode timeout _ data => routed (ispProgram .eeprom mode (timeoutOf timeout) data)
      (hvProgram .eeprom mode (timeoutOf timeout) data) s.invalidatePage
  | .readEepromIsp n _ => routed (ispRead .eeprom n.toNat) (hvReadMem .eeprom n.toNat) s
  | .programFuseIsp c => routed (ispWriteConfig c) doneFailed s.invalidatePage
  | .readFuseIsp retIndex c => routed (ispReadConfig retIndex c) doneFailed s.invalidatePage
  | .programLockIsp c => routed (ispWriteConfig c) doneFailed s.invalidatePage
  | .readLockIsp retIndex c => routed (ispReadConfig retIndex c) hvReadLock s.invalidatePage
  | .readSignatureIsp retIndex c => routed (ispReadConfig retIndex c) doneFailed s.invalidatePage
  | .readOsccalIsp retIndex c => routed (ispReadConfig retIndex c) doneFailed s.invalidatePage
  | .enterProgmodePp _ => entering .hvpp hvEnter s.invalidatePage
  | .leaveProgmodePp _ => routed ispLeave hvLeave s.invalidatePage
  | .chipErasePp _ timeout => routed doneFailed (hvChipErase (timeoutOf timeout)) s.invalidatePage
  | .programFlashPp mode timeout data => routed (ispProgram .flash mode (timeoutOf timeout) data)
      (hvProgram .flash mode (timeoutOf timeout) data) s.invalidatePage
  | .readFlashPp n => routed (ispRead .flash n.toNat) (hvReadMem .flash n.toNat) s
  | .programEepromPp mode timeout data => routed (ispProgram .eeprom mode (timeoutOf timeout) data)
      (hvProgram .eeprom mode (timeoutOf timeout) data) s.invalidatePage
  | .readEepromPp n => routed (ispRead .eeprom n.toNat) (hvReadMem .eeprom n.toNat) s
  | .programFusePp which value _ timeout => routed doneFailed (hvProgramFuse which value (timeoutOf timeout)) s.invalidatePage
  | .readFusePp which => routed doneFailed (hvReadFuse which) s.invalidatePage
  | .programLockPp _ value _ timeout => routed doneFailed (hvProgramLock value (timeoutOf timeout)) s.invalidatePage
  | .readLockPp _ => routed doneFailed hvReadLock s.invalidatePage
  | .readSignaturePp which => routed doneFailed (hvReadSignature which) s.invalidatePage
  | .readOsccalPp which => routed doneFailed (hvReadOsccal which) s.invalidatePage
  | .setControlStack stack => setControlStack stack s.invalidatePage
  | .enterProgmodeHvsp _ => entering .hvsp hvEnter s.invalidatePage
  | .leaveProgmodeHvsp _ => routed ispLeave hvLeave s.invalidatePage
  | .chipEraseHvsp timeout _ => routed doneFailed (hvChipErase (timeoutOf timeout)) s.invalidatePage
  | .programFlashHvsp mode timeout data => routed (ispProgram .flash mode (timeoutOf timeout) data)
      (hvProgram .flash mode (timeoutOf timeout) data) s.invalidatePage
  | .readFlashHvsp n => routed (ispRead .flash n.toNat) (hvReadMem .flash n.toNat) s
  | .programEepromHvsp mode timeout data => routed (ispProgram .eeprom mode (timeoutOf timeout) data)
      (hvProgram .eeprom mode (timeoutOf timeout) data) s.invalidatePage
  | .readEepromHvsp n => routed (ispRead .eeprom n.toNat) (hvReadMem .eeprom n.toNat) s
  | .programFuseHvsp which value timeout => routed doneFailed (hvProgramFuse which value (timeoutOf timeout)) s.invalidatePage
  | .readFuseHvsp which => routed doneFailed (hvReadFuse which) s.invalidatePage
  | .programLockHvsp _ value timeout => routed doneFailed (hvProgramLock value (timeoutOf timeout)) s.invalidatePage
  | .readLockHvsp _ => routed doneFailed hvReadLock s.invalidatePage
  | .readSignatureHvsp which => routed doneFailed (hvReadSignature which) s.invalidatePage
  | .readOsccalHvsp which => routed doneFailed (hvReadOsccal which) s.invalidatePage
  | .xprgEnterProgmode => entering .tpi tpiEnter s.invalidatePage
  | .xprgLeaveProgmode => routedTpi tpiLeave s.invalidatePage
  | .xprgErase eraseMode addr => routedTpi (tpiErase eraseMode addr) s.invalidatePage
  | .xprgWriteMem _ _ addr data => routedTpi (tpiWriteMem addr data) s.invalidatePage
  | .xprgReadMem _ addr n => routedTpi (tpiReadMem addr n.toNat) s.invalidatePage
  | .xprgSetParam _ => routedTpi doneOk s.invalidatePage

/-- Whether a command has the XPROG form. -/
def isXprog : Instr → Bool
  | .xprgEnterProgmode | .xprgLeaveProgmode | .xprgErase _ _ | .xprgWriteMem _ _ _ _ | .xprgReadMem _ _ _
  | .xprgSetParam _ => true
  | _ => false

/-- The end of an operation in the form of the request. -/
def answer (i : Instr) (d : Done) : Result := if isXprog i then respondX d else respond d

theorem validIndex_eq (i : Byte) : validIndex i = decide (1 ≤ i.toNat ∧ i.toNat ≤ 4) := by
  simp [validIndex]

/-- `exec`, for every command: the operand check, the operation and its end. -/
theorem exec_eq (i : Instr) (s : State) : exec i s = checkThen (operandFault i) (answer i (perform i s)) := by
  cases i <;>
    first
    | rfl
    | (simp only [exec, execEnterProgmodeIsp, execReadFuseIsp, execReadLockIsp, execReadSignatureIsp, execReadOsccalIsp,
        pollIndexFault, returnIndexFault, validIndex_eq, operandFault, perform, decide_eq_true_eq]
       rfl)
    | (simp only [exec, execProgramFlashIsp, execProgramFlashPp, execProgramFlashHvsp, writeFault, operandFault, perform,
        true_and]
       rfl)
    | (simp only [exec, execReadFlashIsp, execReadFlashPp, execReadFlashHvsp, readFault, operandFault, perform,
        Config.bodyMax, true_and]
       rfl)

/-- An operation ends in a next state where its data fit. -/
theorem answer_next (i : Instr) (d : Done) (h : d.data.length ≤ 274) (hx : isXprog i = true → d.data.length ≤ 273) :
    ∃ f m x c, answer i d = .next { d.state with fs := f, buf := m, tx := x, calls := c } := by
  cases hi : isXprog i with
  | false =>
    obtain ⟨f, m, x, c, h1, -⟩ := respond_ends d h
    exact ⟨f, m, x, c, by simpa [answer, hi] using h1⟩
  | true =>
    obtain ⟨f, m, x, c, h1, -⟩ := respondX_ends d (hx hi)
    exact ⟨f, m, x, c, by simpa [answer, hi] using h1⟩

/-- `Ended` speaks of the state before only through these fields. -/
theorem Ended.of_eq {s e t : State} {c : Status} {data : List Byte} (h : Ended e t c data) (hfs : e.fs = s.fs)
    (htx : e.tx = s.tx) (hseq : e.seq = s.seq) (hbuf : e.buf = s.buf) (hc : e.calls = s.calls) : Ended s t c data := by
  cases c <;> simpa only [Ended, Answered, TimedOut, State.bodyByte, hfs, htx, hseq, hbuf, hc] using h

theorem EndedX.of_eq {s e t : State} {c : Status} {data : List Byte} (h : EndedX e t c data) (hfs : e.fs = s.fs)
    (htx : e.tx = s.tx) (hseq : e.seq = s.seq) (hbuf : e.buf = s.buf) (hc : e.calls = s.calls) : EndedX s t c data := by
  cases c <;> simpa only [EndedX, AnsweredX, TimedOutX, State.bodyByte, hfs, htx, hseq, hbuf, hc] using h

/-- A state that differs in `FS`, `Buf`, the transmit stream and the calls alone keeps the expected state. -/
theorem Kept.of_update (e : State) (f : FramerState) (m : Memory) (x : List Byte) (c : List PortCall) :
    Kept e { e with fs := f, buf := m, tx := x, calls := c } := by
  simp [Kept, FramerKept, SessionKept, DrawsKept]

/-- A command of the normal form whose operation only makes transactions and writes session registers, and ends with `d`: it ends
as `d` says, and the next state is `d`'s. -/
theorem exec_ends (i : Instr) (s : State) (d : Done) (hf : operandFault i = none) (hx : isXprog i = false)
    (hp : perform i s = d) (hl : d.data.length ≤ 274) (hfs : d.state.fs = s.fs) (htx : d.state.tx = s.tx)
    (hseq : d.state.seq = s.seq) (hbuf : d.state.buf = s.buf) (hc : d.state.calls = s.calls) :
    ∃ t, exec i s = .next t ∧ Ended s t d.status d.data ∧ Kept d.state t := by
  obtain ⟨f, m, x, c, h1, h2, -⟩ := respond_ends d hl
  refine ⟨_, ?_, h2.of_eq hfs htx hseq hbuf hc, Kept.of_update _ _ _ _ _⟩
  rw [exec_eq, hf, hp]
  simpa [checkThen, answer, hx] using h1

/-- The same of a command of the XPROG form. -/
theorem exec_endsX (i : Instr) (s : State) (d : Done) (hf : operandFault i = none) (hx : isXprog i = true)
    (hp : perform i s = d) (hl : d.data.length ≤ 273) (hfs : d.state.fs = s.fs) (htx : d.state.tx = s.tx)
    (hseq : d.state.seq = s.seq) (hbuf : d.state.buf = s.buf) (hc : d.state.calls = s.calls) :
    ∃ t, exec i s = .next t ∧ EndedX s t d.status d.data ∧ Kept d.state t := by
  obtain ⟨f, m, x, c, h1, h2, -⟩ := respondX_ends d hl
  refine ⟨_, ?_, h2.of_eq hfs htx hseq hbuf hc, Kept.of_update _ _ _ _ _⟩
  rw [exec_eq, hf, hp]
  simpa [checkThen, answer, hx] using h1

/-- A command with an operand that has no meaning stops. -/
theorem exec_fault (i : Instr) (s : State) (r : Fault) (hf : operandFault i = some r) : exec i s = .fault r := by
  rw [exec_eq, hf]
  rfl

end Sys2Proof.Machine
end

