-- ==== Sys2Proof/Laws/PerInstr.lean ====
section
/-! SUPPORT. The family of statements made for every command: a well-formed command is sent as a body of at least one byte that fits
in the body buffer (30_encoding.md R74). -/

namespace Sys2Proof.Laws

/-- A well-formed command's body has at least one byte and fits. -/
def EncodeFits.Statement (i : Instr) : Prop :=
  i.wf = true → 1 ≤ (encode i).length ∧ (encode i).length ≤ Config.bodyMax

/-- A code with at most `k` bytes after it fits. -/
theorem tail_fits (c : Byte) (bs : List Byte) (k : Nat) (hk : k < Config.bodyMax) (h : bs.length ≤ k) :
    1 ≤ (c :: bs).length ∧ (c :: bs).length ≤ Config.bodyMax := by
  simp only [List.length_cons]
  omega

/-- Fixed fields with data after them fit where the data have room. -/
theorem data_fits (fields ignored data : List Byte) (base : Nat) (hb : fields.length + ignored.length = base)
    (h : base + data.length ≤ Config.bodyMax) (h0 : 1 ≤ fields.length := by exact Nat.le_of_ble_eq_true rfl) :
    1 ≤ (fields ++ ignored ++ data).length ∧ (fields ++ ignored ++ data).length ≤ Config.bodyMax := by
  simp only [List.length_append]
  omega

theorem EncodeFits.setParameter (id value : Byte) :
    EncodeFits.Statement (.setParameter id value) :=
  fun _ => ⟨Nat.le_of_ble_eq_true rfl, Nat.le_of_ble_eq_true rfl⟩

theorem EncodeFits.loadAddress (addr : Word) :
    EncodeFits.Statement (.loadAddress addr) :=
  fun _ => ⟨Nat.le_of_ble_eq_true rfl, Nat.le_of_ble_eq_true rfl⟩

theorem EncodeFits.enterProgmodeIsp (timeout : Byte) (delays : Quad) (pollValue pollIndex : Byte) (e : Quad) :
    EncodeFits.Statement (.enterProgmodeIsp timeout delays pollValue pollIndex e) :=
  fun _ => ⟨Nat.le_of_ble_eq_true rfl, Nat.le_of_ble_eq_true rfl⟩

theorem EncodeFits.leaveProgmodeIsp (delays : List Byte) :
    EncodeFits.Statement (.leaveProgmodeIsp delays) :=
  fun h => tail_fits _ delays 2 (by decide) (of_decide_eq_true h)

theorem EncodeFits.chipEraseIsp (timeout pollMethod : Byte) (c : Quad) :
    EncodeFits.Statement (.chipEraseIsp timeout pollMethod c) :=
  fun _ => ⟨Nat.le_of_ble_eq_true rfl, Nat.le_of_ble_eq_true rfl⟩

theorem EncodeFits.programFlashIsp (mode timeout : Byte) (ignored data : List Byte) :
    EncodeFits.Statement (.programFlashIsp mode timeout ignored data) := by
  intro h
  have h' := (Bool.and_eq_true _ _).mp h
  exact data_fits [_, _, _, _, _] ignored data 10
    (by rw [of_decide_eq_true h'.1]; rfl) (of_decide_eq_true h'.2)

theorem EncodeFits.readFlashIsp (n : Half) (readCmd : Option Byte) :
    EncodeFits.Statement (.readFlashIsp n readCmd) := by
  intro _
  cases readCmd <;> exact ⟨Nat.le_of_ble_eq_true rfl, Nat.le_of_ble_eq_true rfl⟩

theorem EncodeFits.programEepromIsp (mode timeout : Byte) (ignored data : List Byte) :
    EncodeFits.Statement (.programEepromIsp mode timeout ignored data) := by
  intro h
  have h' := (Bool.and_eq_true _ _).mp h
  exact data_fits [_, _, _, _, _] ignored data 10
    (by rw [of_decide_eq_true h'.1]; rfl) (of_decide_eq_true h'.2)

theorem EncodeFits.readEepromIsp (n : Half) (readCmd : Option Byte) :
    EncodeFits.Statement (.readEepromIsp n readCmd) := by
  intro _
  cases readCmd <;> exact ⟨Nat.le_of_ble_eq_true rfl, Nat.le_of_ble_eq_true rfl⟩

theorem EncodeFits.programFuseIsp (c : Quad) :
    EncodeFits.Statement (.programFuseIsp c) :=
  fun _ => ⟨Nat.le_of_ble_eq_true rfl, Nat.le_of_ble_eq_true rfl⟩

theorem EncodeFits.readFuseIsp (retIndex : Byte) (c : Quad) :
    EncodeFits.Statement (.readFuseIsp retIndex c) :=
  fun _ => ⟨Nat.le_of_ble_eq_true rfl, Nat.le_of_ble_eq_true rfl⟩

theorem EncodeFits.programLockIsp (c : Quad) :
    EncodeFits.Statement (.programLockIsp c) :=
  fun _ => ⟨Nat.le_of_ble_eq_true rfl, Nat.le_of_ble_eq_true rfl⟩

theorem EncodeFits.readLockIsp (retIndex : Byte) (c : Quad) :
    EncodeFits.Statement (.readLockIsp retIndex c) :=
  fun _ => ⟨Nat.le_of_ble_eq_true rfl, Nat.le_of_ble_eq_true rfl⟩

theorem EncodeFits.readSignatureIsp (retIndex : Byte) (c : Quad) :
    EncodeFits.Statement (.readSignatureIsp retIndex c) :=
  fun _ => ⟨Nat.le_of_ble_eq_true rfl, Nat.le_of_ble_eq_true rfl⟩

theorem EncodeFits.readOsccalIsp (retIndex : Byte) (c : Quad) :
    EncodeFits.Statement (.readOsccalIsp retIndex c) :=
  fun _ => ⟨Nat.le_of_ble_eq_true rfl, Nat.le_of_ble_eq_true rfl⟩

theorem EncodeFits.enterProgmodePp (delays : List Byte) :
    EncodeFits.Statement (.enterProgmodePp delays) :=
  fun h => tail_fits _ delays 7 (by decide) (of_decide_eq_true h)

theorem EncodeFits.leaveProgmodePp (delays : List Byte) :
    EncodeFits.Statement (.leaveProgmodePp delays) :=
  fun h => tail_fits _ delays 2 (by decide) (of_decide_eq_true h)

theorem EncodeFits.chipErasePp (pulseWidth timeout : Byte) :
    EncodeFits.Statement (.chipErasePp pulseWidth timeout) :=
  fun _ => ⟨Nat.le_of_ble_eq_true rfl, Nat.le_of_ble_eq_true rfl⟩

theorem EncodeFits.programFlashPp (mode timeout : Byte) (data : List Byte) :
    EncodeFits.Statement (.programFlashPp mode timeout data) :=
  fun h => data_fits [_, _, _, _, _] [] data 5 rfl (of_decide_eq_true h)

theorem EncodeFits.readFlashPp (n : Half) :
    EncodeFits.Statement (.readFlashPp n) :=
  fun _ => ⟨Nat.le_of_ble_eq_true rfl, Nat.le_of_ble_eq_true rfl⟩

theorem EncodeFits.programEepromPp (mode timeout : Byte) (data : List Byte) :
    EncodeFits.Statement (.programEepromPp mode timeout data) :=
  fun h => data_fits [_, _, _, _, _] [] data 5 rfl (of_decide_eq_true h)

theorem EncodeFits.readEepromPp (n : Half) :
    EncodeFits.Statement (.readEepromPp n) :=
  fun _ => ⟨Nat.le_of_ble_eq_true rfl, Nat.le_of_ble_eq_true rfl⟩

theorem EncodeFits.programFusePp (which value pulseWidth timeout : Byte) :
    EncodeFits.Statement (.programFusePp which value pulseWidth timeout) :=
  fun _ => ⟨Nat.le_of_ble_eq_true rfl, Nat.le_of_ble_eq_true rfl⟩

theorem EncodeFits.readFusePp (which : Byte) :
    EncodeFits.Statement (.readFusePp which) :=
  fun _ => ⟨Nat.le_of_ble_eq_true rfl, Nat.le_of_ble_eq_true rfl⟩

theorem EncodeFits.programLockPp (which value pulseWidth timeout : Byte) :
    EncodeFits.Statement (.programLockPp which value pulseWidth timeout) :=
  fun _ => ⟨Nat.le_of_ble_eq_true rfl, Nat.le_of_ble_eq_true rfl⟩

theorem EncodeFits.readLockPp (which : Byte) :
    EncodeFits.Statement (.readLockPp which) :=
  fun _ => ⟨Nat.le_of_ble_eq_true rfl, Nat.le_of_ble_eq_true rfl⟩

theorem EncodeFits.readSignaturePp (which : Byte) :
    EncodeFits.Statement (.readSignaturePp which) :=
  fun _ => ⟨Nat.le_of_ble_eq_true rfl, Nat.le_of_ble_eq_true rfl⟩

theorem EncodeFits.readOsccalPp (which : Byte) :
    EncodeFits.Statement (.readOsccalPp which) :=
  fun _ => ⟨Nat.le_of_ble_eq_true rfl, Nat.le_of_ble_eq_true rfl⟩

theorem EncodeFits.setControlStack (stack : List Byte) :
    EncodeFits.Statement (.setControlStack stack) :=
  fun h => tail_fits _ stack 32 (by decide) (Nat.le_of_eq (of_decide_eq_true h))

theorem EncodeFits.enterProgmodeHvsp (delays : List Byte) :
    EncodeFits.Statement (.enterProgmodeHvsp delays) :=
  fun h => tail_fits _ delays 8 (by decide) (of_decide_eq_true h)

theorem EncodeFits.leaveProgmodeHvsp (delays : List Byte) :
    EncodeFits.Statement (.leaveProgmodeHvsp delays) :=
  fun h => tail_fits _ delays 2 (by decide) (of_decide_eq_true h)

theorem EncodeFits.chipEraseHvsp (timeout : Byte) (eraseTime : Option Byte) :
    EncodeFits.Statement (.chipEraseHvsp timeout eraseTime) := by
  intro _
  cases eraseTime <;> exact ⟨Nat.le_of_ble_eq_true rfl, Nat.le_of_ble_eq_true rfl⟩

theorem EncodeFits.programFlashHvsp (mode timeout : Byte) (data : List Byte) :
    EncodeFits.Statement (.programFlashHvsp mode timeout data) :=
  fun h => data_fits [_, _, _, _, _] [] data 5 rfl (of_decide_eq_true h)

theorem EncodeFits.readFlashHvsp (n : Half) :
    EncodeFits.Statement (.readFlashHvsp n) :=
  fun _ => ⟨Nat.le_of_ble_eq_true rfl, Nat.le_of_ble_eq_true rfl⟩

theorem EncodeFits.programEepromHvsp (mode timeout : Byte) (data : List Byte) :
    EncodeFits.Statement (.programEepromHvsp mode timeout data) :=
  fun h => data_fits [_, _, _, _, _] [] data 5 rfl (of_decide_eq_true h)

theorem EncodeFits.readEepromHvsp (n : Half) :
    EncodeFits.Statement (.readEepromHvsp n) :=
  fun _ => ⟨Nat.le_of_ble_eq_true rfl, Nat.le_of_ble_eq_true rfl⟩

theorem EncodeFits.programFuseHvsp (which value timeout : Byte) :
    EncodeFits.Statement (.programFuseHvsp which value timeout) :=
  fun _ => ⟨Nat.le_of_ble_eq_true rfl, Nat.le_of_ble_eq_true rfl⟩

theorem EncodeFits.readFuseHvsp (which : Byte) :
    EncodeFits.Statement (.readFuseHvsp which) :=
  fun _ => ⟨Nat.le_of_ble_eq_true rfl, Nat.le_of_ble_eq_true rfl⟩

theorem EncodeFits.programLockHvsp (which value timeout : Byte) :
    EncodeFits.Statement (.programLockHvsp which value timeout) :=
  fun _ => ⟨Nat.le_of_ble_eq_true rfl, Nat.le_of_ble_eq_true rfl⟩

theorem EncodeFits.readLockHvsp (which : Byte) :
    EncodeFits.Statement (.readLockHvsp which) :=
  fun _ => ⟨Nat.le_of_ble_eq_true rfl, Nat.le_of_ble_eq_true rfl⟩

theorem EncodeFits.readSignatureHvsp (which : Byte) :
    EncodeFits.Statement (.readSignatureHvsp which) :=
  fun _ => ⟨Nat.le_of_ble_eq_true rfl, Nat.le_of_ble_eq_true rfl⟩

theorem EncodeFits.readOsccalHvsp (which : Byte) :
    EncodeFits.Statement (.readOsccalHvsp which) :=
  fun _ => ⟨Nat.le_of_ble_eq_true rfl, Nat.le_of_ble_eq_true rfl⟩

theorem EncodeFits.xprgEnterProgmode :
    EncodeFits.Statement (.xprgEnterProgmode) :=
  fun _ => ⟨Nat.le_of_ble_eq_true rfl, Nat.le_of_ble_eq_true rfl⟩

theorem EncodeFits.xprgLeaveProgmode :
    EncodeFits.Statement (.xprgLeaveProgmode) :=
  fun _ => ⟨Nat.le_of_ble_eq_true rfl, Nat.le_of_ble_eq_true rfl⟩

theorem EncodeFits.xprgErase (eraseMode : Byte) (addr : Word) :
    EncodeFits.Statement (.xprgErase eraseMode addr) :=
  fun _ => ⟨Nat.le_of_ble_eq_true rfl, Nat.le_of_ble_eq_true rfl⟩

theorem EncodeFits.xprgWriteMem (memType pageMode : Byte) (addr : Word) (data : List Byte) :
    EncodeFits.Statement (.xprgWriteMem memType pageMode addr data) :=
  fun h => data_fits [_, _, _, _, _, _, _, _, _, _] [] data 10 rfl (of_decide_eq_true h)

theorem EncodeFits.xprgReadMem (memType : Byte) (addr : Word) (n : Half) :
    EncodeFits.Statement (.xprgReadMem memType addr n) :=
  fun _ => ⟨Nat.le_of_ble_eq_true rfl, Nat.le_of_ble_eq_true rfl⟩

theorem EncodeFits.xprgSetParam (params : List Byte) :
    EncodeFits.Statement (.xprgSetParam params) :=
  fun h => data_fits [_, _] [] params 2 rfl (of_decide_eq_true h)

end Sys2Proof.Laws
end

