-- ==== Sys2Proof/Laws/Perform.lean ====
section
/-! SUPPORT. The frame of every command at once: what its operation may change, and how it ends. Lemmas about every
command cite `performed` and `exec_next` and unfold no meaning. -/

namespace Sys2Proof.Machine

/-- What a whole operation may change, for any command: the fields named here and TRACE and the draws. -/
def Performed (i : Instr) (s : State) (d : Done) : Prop :=
  Drawn { s with
    currentAddress := d.state.currentAddress, clockSelector := d.state.clockSelector,
    controlStack := d.state.controlStack, activeFamily := (entersFamily i).getD s.activeFamily,
    inMode := d.state.inMode, prevPage := d.state.prevPage, ispRung := d.state.ispRung } d.state ∧
  (d.state.clockSelector = s.clockSelector ∨ ∃ value, i = .setParameter 0x98#8 value) ∧
  (d.state.controlStack = s.controlStack ∨ ∃ stack, i = .setControlStack stack ∧ d.state.controlStack = stack) ∧
  (d.state.ispRung = s.ispRung ∨ entersFamily i = some .isp ∧ d.state.ispRung ≤ 3) ∧
  (d.state.inMode = s.inMode ∨ (entersFamily i).isSome ∨ isLeave i ∨ i = .xprgLeaveProgmode) ∧
  (d.state.currentAddress = s.currentAddress ∨ (∃ addr, i = .loadAddress addr) ∨
    (pagedOf i).isSome ∧ s.activeFamily ≠ .tpi) ∧
  (isPagedRead i = false → d.state.prevPage = none) ∧
  (isPagedRead i = true → ¬ HvActive s → d.state.prevPage = s.prevPage) ∧
  (operandFault i = none → d.data.length ≤ 274 ∧ (isXprog i = true → d.data.length ≤ 273))

/-- No data always fit. -/
theorem fits_nil {i : Instr} : ([] : List Byte).length ≤ 274 ∧ (isXprog i = true → ([] : List Byte).length ≤ 273) :=
  ⟨Nat.zero_le _, fun _ => Nat.zero_le _⟩

/-- A normal or XPROG command whose operation only makes transactions. -/
theorem performed_of_drawn (i : Instr) (s : State) (d : Done) (h : Drawn s.invalidatePage d.state)
    (he : entersFamily i = none) (hp : isPagedRead i = false)
        (hl : operandFault i = none → d.data.length ≤ 273) : Performed i s d := by
  have e := h.1
  refine ⟨⟨?_, h.2⟩, .inl ?_, .inl ?_, .inl ?_, .inl ?_, .inl ?_, fun _ => ?_, fun h' => ?_,
    fun hf => ⟨?_, fun _ => hl hf⟩⟩
  · rw [he]; rw [e]; rfl
  · rw [e]; rfl
  · rw [e]; rfl
  · rw [e]; rfl
  · rw [e]; rfl
  · rw [e]; rfl
  · rw [e]; rfl
  · simp [hp] at h'
  · exact Nat.le_trans (hl hf) (by decide)

/-- A paged write of a family that has it. -/
theorem performed_of_stepped (i : Instr) (s : State) (d : Done) (h : Stepped s.invalidatePage d.state)
    (he : entersFamily i = none) (hp : isPagedRead i = false) (hg : (pagedOf i).isSome) (hs : s.activeFamily ≠ .tpi)
    (hl : d.data = []) : Performed i s d := by
  have e := h.1
  refine ⟨⟨?_, h.2⟩, .inl ?_, .inl ?_, .inl ?_, .inl ?_, .inr (.inr ⟨hg, hs⟩), fun _ => ?_, fun h' => ?_,
      fun hf => by simp [hl]⟩
  · rw [he]; rw [e]; rfl
  · rw [e]; rfl
  · rw [e]; rfl
  · rw [e]; rfl
  · rw [e]; rfl
  · rw [e]; rfl
  · simp [hp] at h'

/-- A paged read of a family that has it. -/
theorem performed_of_latched (i : Instr) (s : State) (d : Done) (h : Latched s d.state)
    (he : entersFamily i = none) (hp : isPagedRead i = true) (hg : (pagedOf i).isSome) (hx : isXprog i = false)
    (hs : s.activeFamily ≠ .tpi) (hr : ¬ HvActive s → d.state.prevPage = s.prevPage)
    (hl : operandFault i = none → d.data.length ≤ 274) : Performed i s d := by
  have e := h.1
  refine ⟨⟨?_, h.2⟩, .inl ?_, .inl ?_, .inl ?_, .inl ?_, .inr (.inr ⟨hg, hs⟩), fun h' => ?_, fun _ => hr,
      fun hf => ⟨hl hf, by simp [hx]⟩⟩
  · rw [he]; rw [e]; rfl
  · rw [e]
  · rw [e]
  · rw [e]
  · rw [e]
  · simp [hp] at h'

/-- What `routed` can answer: the operation of the active family, or the failure of a family that lacks it. -/
theorem routed_cases (isp hv : State → Done) (s : State) (P : Done → Prop)
   (h1 : s.activeFamily = .isp → P (isp s)) (h2 : HvActive s → P (hv s))
       (h3 : s.activeFamily = .tpi → P (doneFailed s)) : P (routed isp hv s) := by
  unfold routed
  split
  · exact h1 ‹_›
  · exact h2 (.inl ‹_›)
  · exact h2 (.inr ‹_›)
  · exact h3 ‹_›

/-- What `routedTpi` can answer. -/
theorem routedTpi_cases (op : State → Done) (s : State) (P : Done → Prop)
   (h1 : s.activeFamily = .tpi → P (op s)) (h3 : P (doneFailed s)) : P (routedTpi op s) := by
  unfold routedTpi
  split
  · exact h1 ‹_›
  all_goals exact h3

/-- An operation the family lacks. -/
theorem performed_failed (i : Instr) (s : State) (he : entersFamily i = none)
    (hp : isPagedRead i = false) : Performed i s (doneFailed s.invalidatePage) :=
  performed_of_drawn i s _ (Drawn.refl _) he hp (fun _ => Nat.zero_le _)

/-- A paged write, whatever family is active. -/
theorem performed_program (i : Instr) (s : State) (mem : Mem) (mode : Byte) (n : Half) (data : List Byte)
    (he : entersFamily i = none) (hp : isPagedRead i = false) (hg : (pagedOf i).isSome) :
    Performed i s (routed (ispProgram mem mode n data) (hvProgram mem mode n data) s.invalidatePage) := by
  apply routed_cases
  · intro h
    exact performed_of_stepped i s _ (ispProgram_stepped mem mode n data _).1 he hp hg
        (by rw [State.invalidatePage_activeFamily] at h; simp [h]) (ispProgram_stepped mem mode n data _).2
  · intro h
    exact performed_of_stepped i s _ (hvProgram_stepped mem mode n data _).1 he hp hg
        (by rcases h with h | h <;> rw [State.invalidatePage_activeFamily] at h <;> simp [h])
            (hvProgram_stepped mem mode n data _).2
  · intro h; exact performed_failed i s he hp

/-- A paged read, whatever family is active. -/
theorem performed_read (i : Instr) (s : State) (mem : Mem) (n : Nat)
    (he : entersFamily i = none) (hp : isPagedRead i = true) (hg : (pagedOf i).isSome)
        (hx : isXprog i = false) (hl : operandFault i = none → n ≤ 274) :
    Performed i s (routed (ispRead mem n) (hvReadMem mem n) s) := by
  apply routed_cases
  · intro h
    refine performed_of_latched i s _ (ispRead_stepped mem n _).1.latched he hp hg hx
        (by simp [h]) (fun _ => ?_) (fun hf => Nat.le_trans (ispRead_stepped mem n s).2 (hl hf))
    rw [(ispRead_stepped mem n s).1.1]
  · intro h
    exact performed_of_latched i s _ (hvReadMem_latched mem n _).1 he hp hg hx
        (by rcases h with h | h <;> simp [h]) (fun h' => absurd h h')
            (fun hf => Nat.le_trans (hvReadMem_latched mem n s).2 (hl hf))
  · intro h
    have e : (doneFailed s).state = s := rfl
    refine ⟨⟨by rw [he]; rfl, List.prefix_refl _⟩, .inl rfl, .inl rfl, .inl rfl, .inl rfl, .inl rfl, by simp [hp],
        fun _ _ => rfl, fun _ => fits_nil⟩

/-- An operation that only makes transactions, whatever family is active. -/
theorem performed_routed (i : Instr) (s : State) (isp hv : State → Done)
    (he : entersFamily i = none) (hp : isPagedRead i = false)
    (h1 : Drawn s.invalidatePage (isp s.invalidatePage).state ∧
      (operandFault i = none → (isp s.invalidatePage).data.length ≤ 273))
    (h2 : Drawn s.invalidatePage (hv s.invalidatePage).state ∧
      (operandFault i = none → (hv s.invalidatePage).data.length ≤ 273)) :
   Performed i s (routed isp hv s.invalidatePage) := by
  apply routed_cases
  · intro _; exact performed_of_drawn i s _ h1.1 he hp h1.2
  · intro _; exact performed_of_drawn i s _ h2.1 he hp h2.2
  · intro _; exact performed_failed i s he hp

/-- The two halves of a driver's frame lemma as `performed_routed` wants them. -/
theorem frame_of_nil {d : Done} {a} (h : Drawn a d.state ∧ d.data = [])
    (i : Instr) : Drawn a d.state ∧ (operandFault i = none → d.data.length ≤ 273) :=
  ⟨h.1, fun _ => by simp [h.2]⟩

theorem frame_of_one {d : Done} {a} (h : Drawn a d.state ∧ d.data.length ≤ 1)
    (i : Instr) : Drawn a d.state ∧ (operandFault i = none → d.data.length ≤ 273) :=
  ⟨h.1, fun _ => Nat.le_trans h.2 (by decide)⟩

theorem frame_of_failed (a : State) (i : Instr) : Drawn a (doneFailed a).state ∧
    (operandFault i = none → (doneFailed a).data.length ≤ 273) :=
  ⟨Drawn.refl a, fun _ => Nat.zero_le _⟩

/-- A Leave, whatever family is active. -/
theorem performed_leave (i : Instr) (s : State) (hl : isLeave i)
    (he : entersFamily i = none) (hp : isPagedRead i = false) : Performed i s
        (routed ispLeave hvLeave s.invalidatePage) := by
  apply routed_cases
  · intro _
    exact ⟨⟨by rw [he]; rfl, by simp [ispLeave, doneOk]⟩, .inl rfl, .inl rfl, .inl rfl, .inr (.inr (.inl hl)), .inl rfl,
        fun _ => rfl, by simp [hp], fun _ => fits_nil⟩
  · intro _
    exact ⟨⟨by rw [he]; rfl, by simp [hvLeave, doneOk]⟩, .inl rfl, .inl rfl, .inl rfl, .inr (.inr (.inl hl)), .inl rfl,
        fun _ => rfl, by simp [hp], fun _ => fits_nil⟩
  · intro _; exact performed_failed i s he hp

/-- An Enter of a family whose bring-up changes no register. -/
theorem performed_enter (i : Instr) (s : State) (f : Family) (op : State → Done)
    (he : entersFamily i = some f) (hp : isPagedRead i = false)
    (h : Drawn { s.invalidatePage with activeFamily := f }
      (op { s.invalidatePage with activeFamily := f }).state ∧
      (op { s.invalidatePage with activeFamily := f }).data = []) :
   Performed i s (entering f op s.invalidatePage) := by
  obtain ⟨⟨e, hpre⟩, hd⟩ := h
  simp only [entering]
  generalize op { s.invalidatePage with activeFamily := f } = d at *
  obtain ⟨st, data, t⟩ := d
  simp only at e hpre hd
  subst hd
  refine ⟨⟨?_, hpre⟩, .inl ?_, .inl ?_, .inl ?_, .inr (.inl (by simp [he])), .inl ?_, fun _ => ?_, by simp [hp],
      fun _ => fits_nil⟩
  all_goals simp only [he, Option.getD_some]; rw [e]; try rfl

/-- What any command's operation may change. -/
theorem performed (i : Instr) (s : State) : Performed i s (perform i s) := by
  cases i <;> simp only [perform]
  case setParameter id value =>
    simp only [setParameter]
    split
    · rename_i h; subst h
      exact ⟨⟨rfl, List.prefix_refl _⟩, .inr ⟨_, rfl⟩, .inl rfl, .inl rfl, .inl rfl, .inl rfl, fun _ => rfl,
          by simp [isPagedRead], fun _ => fits_nil⟩
    · exact performed_failed _ _ rfl rfl
  case loadAddress a =>
    exact ⟨⟨rfl, List.prefix_refl _⟩, .inl rfl, .inl rfl, .inl rfl, .inl rfl, .inr (.inl ⟨_, rfl⟩), fun _ => rfl,
        by simp [isPagedRead], fun _ => fits_nil⟩
  case setControlStack a =>
    exact ⟨⟨rfl, List.prefix_refl _⟩, .inl rfl, .inr ⟨_, rfl, rfl⟩, .inl rfl, .inl rfl, .inl rfl, fun _ => rfl,
        by simp [isPagedRead], fun _ => fits_nil⟩
  case programFlashIsp | programEepromIsp | programFlashPp | programEepromPp | programFlashHvsp | programEepromHvsp =>
    exact performed_program _ _ _ _ _ _ rfl rfl rfl
  case readFlashIsp | readEepromIsp | readFlashPp | readEepromPp | readFlashHvsp | readEepromHvsp =>
    refine performed_read _ _ _ _ rfl rfl rfl rfl (fun h => ?_)
    simp only [operandFault] at h
    split at h
    · cases h
    · omega
  case leaveProgmodeIsp | leaveProgmodePp | leaveProgmodeHvsp =>
    exact performed_leave _ _ rfl rfl rfl
  case chipEraseIsp =>
    exact performed_routed _ _ _ _ rfl rfl (frame_of_nil (ispChipErase_drawn _ _ _) _) (frame_of_nil (hvChipErase_drawn _ _) _)
  case chipErasePp | chipEraseHvsp =>
    exact performed_routed _ _ _ _ rfl rfl (frame_of_failed _ _) (frame_of_nil (hvChipErase_drawn _ _) _)
  case programFuseIsp | programLockIsp =>
    exact performed_routed _ _ _ _ rfl rfl (frame_of_nil (ispWriteConfig_drawn _ _) _) (frame_of_failed _ _)
  case readFuseIsp | readSignatureIsp | readOsccalIsp =>
    exact performed_routed _ _ _ _ rfl rfl (frame_of_one (ispReadConfig_drawn _ _ _) _) (frame_of_failed _ _)
  case readLockIsp =>
    exact performed_routed _ _ _ _ rfl rfl (frame_of_one (ispReadConfig_drawn _ _ _) _) (frame_of_one (hvReadLock_drawn _) _)
  case programFusePp | programFuseHvsp =>
    exact performed_routed _ _ _ _ rfl rfl (frame_of_failed _ _) (frame_of_nil (hvProgramFuse_drawn _ _ _ _) _)
  case programLockPp | programLockHvsp =>
    exact performed_routed _ _ _ _ rfl rfl (frame_of_failed _ _) (frame_of_nil (hvProgramLock_drawn _ _ _) _)
  case readFusePp | readFuseHvsp =>
    exact performed_routed _ _ _ _ rfl rfl (frame_of_failed _ _) (frame_of_one (hvReadFuse_drawn _ _) _)
  case readLockPp | readLockHvsp =>
    exact performed_routed _ _ _ _ rfl rfl (frame_of_failed _ _) (frame_of_one (hvReadLock_drawn _) _)
  case readSignaturePp | readSignatureHvsp =>
    exact performed_routed _ _ _ _ rfl rfl (frame_of_failed _ _) (frame_of_one (hvReadSignature_drawn _ _) _)
  case readOsccalPp | readOsccalHvsp =>
    exact performed_routed _ _ _ _ rfl rfl (frame_of_failed _ _) (frame_of_one (hvReadOsccal_drawn _ _) _)
  case enterProgmodePp | enterProgmodeHvsp =>
    exact performed_enter _ _ _ _ rfl rfl (hvEnter_drawn _)
  case xprgEnterProgmode =>
    exact performed_enter _ _ _ _ rfl rfl (tpiEnter_drawn _)
  case enterProgmodeIsp t dl pv pi e =>
    obtain ⟨⟨h1, h2⟩, h3, h4⟩ := ispEnter_drawn pv pi e { s.invalidatePage with activeFamily := .isp }
    simp only [entering]
    generalize ispEnter pv pi e { s.invalidatePage with activeFamily := .isp } = d at *
    obtain ⟨st, data, t⟩ := d
    simp only at h1 h2 h3 h4
    subst h3
    refine ⟨⟨?_, h2⟩, .inl ?_, .inl ?_, ?_, .inr (.inl rfl), .inl ?_, fun _ => ?_, by simp [isPagedRead],
        fun _ => fits_nil⟩
    · rw [h1]; rfl
    · rw [h1]; rfl
    · rw [h1]; rfl
    · rcases h4 with h4 | h4
      · exact .inl h4
      · exact .inr ⟨rfl, h4⟩
    · rw [h1]; rfl
    · rw [h1]; rfl
  case xprgLeaveProgmode =>
    refine routedTpi_cases _ _ _ (fun _ => ?_) (performed_failed _ _ rfl rfl)
    exact ⟨⟨rfl, by simp [tpiLeave, doneOk]⟩, .inl rfl, .inl rfl, .inl rfl, .inr (.inr (.inr rfl)), .inl rfl,
        fun _ => rfl, by simp [isPagedRead], fun _ => fits_nil⟩
  case xprgErase =>
    exact routedTpi_cases _ _ _ (fun _ => performed_of_drawn _ _ _ (tpiErase_drawn _ _ _).1 rfl rfl
      (frame_of_nil (tpiErase_drawn _ _ _) _).2) (performed_failed _ _ rfl rfl)
  case xprgWriteMem =>
    exact routedTpi_cases _ _ _ (fun _ => performed_of_drawn _ _ _ (tpiWriteMem_drawn _ _ _).1 rfl rfl
      (frame_of_nil (tpiWriteMem_drawn _ _ _) _).2) (performed_failed _ _ rfl rfl)
  case xprgReadMem m a n =>
    refine routedTpi_cases _ _ _ (fun _ => performed_of_drawn _ _ _ (tpiReadMem_drawn _ _ _).1 rfl rfl (fun h => ?_))
        (performed_failed _ _ rfl rfl)
    rw [(tpiReadMem_drawn _ _ _).2]
    simp only [operandFault] at h
    split at h
    · cases h
    · omega
  case xprgSetParam =>
    exact routedTpi_cases _ _ _ (fun _ => performed_of_drawn _ _ _ (Drawn.refl _) rfl rfl (fun _ => Nat.zero_le _))
        (performed_failed _ _ rfl rfl)

/-- Where a command answers a next state it is the state its operation ends with, but for what the end of an operation writes. -/
theorem exec_next (i : Instr) (s t : State) (h : exec i s = .next t) :
    operandFault i = none ∧ ∃ f m x c, t = { (perform i s).state with fs := f, buf := m, tx := x, calls := c } ∧
      (if isXprog i then EndedX (perform i s).state t (perform i s).status (perform i s).data
       else Ended (perform i s).state t (perform i s).status (perform i s).data) ∧
      (Memory.wf (perform i s).state.buf → Memory.wf m) ∧ (perform i s).data.length ≤ 274 ∧
      (isXprog i = true → (perform i s).data.length ≤ 273) := by
  have hf : operandFault i = none := by
    cases hf : operandFault i with
    | none => rfl
    | some r =>
      rw [exec_fault i s r hf] at h
      cases h
  obtain ⟨hl, hlx⟩ := (performed i s).2.2.2.2.2.2.2.2 hf
  rw [exec_eq, hf] at h
  simp only [checkThen, answer] at h
  refine ⟨hf, ?_⟩
  cases hx : isXprog i with
  | false =>
    obtain ⟨f, m, x, c, h1, h2, h3⟩ := respond_ends (perform i s) hl
    rw [hx] at h
    simp only [Bool.false_eq_true, if_false] at h
    have := h1.symm.trans h
    injection this with this
    subst this
    exact ⟨f, m, x, c, rfl, by simpa using h2, h3, hl, by simp⟩
  | true =>
    obtain ⟨f, m, x, c, h1, h2, h3⟩ := respondX_ends (perform i s) (hlx hx)
    rw [hx] at h
    simp only [if_true] at h
    have := h1.symm.trans h
    injection this with this
    subst this
    exact ⟨f, m, x, c, rfl, by simpa using h2, h3, hl, fun _ => hlx hx⟩

end Sys2Proof.Machine
end

