-- ==== Sys2Proof/Laws/Step.lean ====
section
/-! SUPPORT. What a step can do: the inversion of `step` into a port call, a dispatch or a `FeedByte`, and what each leaves
alone. -/

namespace Sys2Proof.Machine

/-- What a dispatch that answers a next state can do: a command's operation, or that of an unknown request. -/
theorem dispatch_next (s t : State) (h : dispatch s = .next t) :
    ∃ f m x c, (f = s.fs ∨ f = .idle) ∧ s.tx <+: x ∧ (Memory.wf s.buf → Memory.wf m) ∧
      ((∃ i, operandFault i = none ∧ t = { (perform i s).state with fs := f, buf := m, tx := x, calls := c }) ∨
        t = { s with prevPage := none, fs := f, buf := m, tx := x, calls := c }) := by
  rw [dispatch] at h
  split at h
  · rename_i i _
    obtain ⟨hf, f, m, x, c, rfl, ha, hw, -⟩ := exec_next i s t h
    have e := (performed i s).1.1
    have hd : s.tx <+: x ∧ (f = s.fs ∨ f = .idle) := by
      split at ha
      · simpa only [show (perform i s).state.tx = s.tx by rw [e], show (perform i s).state.fs = s.fs by rw [e]] using
          ha.tx_prefix
      · simpa only [show (perform i s).state.tx = s.tx by rw [e], show (perform i s).state.fs = s.fs by rw [e]] using
          ha.tx_prefix
    exact ⟨f, m, x, c, hd.2, hd.1, by rw [e] at hw; exact hw, .inl ⟨i, hf, rfl⟩⟩
  · rename_i xp _
    cases xp
    · obtain ⟨f, m, x, c, g, ga, gw⟩ := respond_ends (doneFailed s.invalidatePage) (Nat.zero_le _)
      have := g.symm.trans h; injection this with this; subst this
      exact ⟨f, m, x, c, ga.tx_prefix.2, ga.tx_prefix.1, gw, .inr rfl⟩
    · obtain ⟨f, m, x, c, g, ga, gw⟩ := respondX_ends (doneFailed s.invalidatePage) (Nat.zero_le _)
      have := g.symm.trans h; injection this with this; subst this
      exact ⟨f, m, x, c, ga.tx_prefix.2, ga.tx_prefix.1, gw, .inr rfl⟩
  · cases h
  · cases h

/-- What `SendResponse` can do. -/
theorem sendResponse_cases (st : Byte) (n : Half) (s t : State) (h : sendResponse st n s = .next t) :
    ∃ m x, t = { s with fs := .idle, buf := m, tx := x } ∧ s.tx <+: x ∧ (Memory.wf s.buf → Memory.wf m) := by
  by_cases hn : n.toNat ≤ Config.bodyMax
  · rw [sendResponse_next _ _ _ hn] at h; cases h
    exact ⟨_, _, rfl, by simp, fun hw => Memory.write_wf _ _ _ hw (by decide)⟩
  · rw [sendResponse_fault _ _ _ (by omega)] at h; cases h

/-- What `SendXPROGResponse` can do. -/
theorem sendXprogResponse_cases (st : Byte) (n : Half) (s t : State) (h : sendXprogResponse st n s = .next t) :
    ∃ m x, t = { s with fs := .idle, buf := m, tx := x } ∧ s.tx <+: x ∧ (Memory.wf s.buf → Memory.wf m) := by
  by_cases hn : n.toNat ≤ Config.bodyMax
  · rw [sendXprogResponse_next _ _ _ hn] at h; cases h
    exact ⟨_, _, rfl, by simp, fun hw => Memory.write_wf _ _ _ hw (by decide)⟩
  · rw [sendXprogResponse_fault _ _ _ (by omega)] at h; cases h

/-- What a `FeedByte` leaves alone: TRACE, the session, the previous page and the fault mark; it takes from the front of the
receive port and adds to the transmit stream. -/
theorem feedByte_keeps (s t : State) (h : feedByte s = .next t) :
    s.trace = t.trace ∧ s.tx <+: t.tx ∧ t.rx <:+ s.rx ∧ t.faultMark = s.faultMark ∧ SessionKept s t ∧
      t.prevPage = s.prevPage ∧ (Memory.wf s.buf → Memory.wf t.buf) := by
  rw [feedByte] at h
  split at h
  · cases h
  · cases h; simp [State.returning, SessionKept]
  · cases h; simp [State.returning, SessionKept]
  · cases h; simp [State.returning, SessionKept]
  · rename_i b rest hs hr
    rw [feedIdle] at h
    split at h <;> cases h <;> simp [State.returning, SessionKept, hr]
  · rename_i b rest hs hr
    rw [feedHeader] at h
    split at h
    · cases h
    · simp only at h
      split at h
      · cases h; simp [State.returning, SessionKept, hr]
      · rw [acceptHeader] at h
        simp only at h
        split at h
        · cases h; simp [State.returning, SessionKept, hr]
        · split at h <;> cases h <;> simp [State.returning, SessionKept, hr]
  · rename_i b rest hs hr
    rw [feedBody] at h
    split at h
    · cases h
    · rename_i hg
      simp only at h
      have hwf : ∀ u : State, u = (if s.nread < s.len then ({ s with rx := rest } : State).writeBody s.nread.toNat b
          else { s with rx := rest }) →
         u.trace = s.trace ∧ u.tx = s.tx ∧ u.rx = rest ∧ u.faultMark = s.faultMark ∧ SessionKept s u ∧
         u.prevPage = s.prevPage ∧ (Memory.wf s.buf → Memory.wf u.buf) := by
        rintro u rfl
        split
        · rename_i hlt
          refine ⟨rfl, rfl, rfl, rfl, by simp [SessionKept, State.writeBody], rfl, fun hw => ?_⟩
          refine Memory.write_wf _ _ _ hw ?_
          simp only [not_and, not_le] at hg
          exact hg hlt
        · exact ⟨rfl, rfl, rfl, rfl, by simp [SessionKept], rfl, fun hw => hw⟩
      generalize hu : (if s.nread < s.len then ({ s with rx := rest } : State).writeBody s.nread.toNat b
        else { s with rx := rest }) = u at *
      obtain ⟨u1, u2, u3, u4, u5, u6, u7⟩ := hwf u rfl
      have suf : u.rx <:+ s.rx := by rw [u3, hr]; exact List.suffix_cons _ _
      split at h
      · cases h; exact ⟨u1.symm, by simp [State.returning, u2], suf, u4, u5, u6, u7⟩
      · rw [endBody] at h
        split at h
        · cases h; exact ⟨u1.symm, by simp [State.returning, u2], suf, u4, u5, u6, u7⟩
        · rw [checksumError] at h
          split at h
          · rename_i v hv
            obtain ⟨m, x, rfl, hx, hw⟩ := sendResponse_cases _ _ _ _ hv
            cases h; exact ⟨u1.symm, by simpa [State.returning, u2] using hx, suf, u4, u5, u6, fun h => hw (u7 h)⟩
          · cases h
          · cases h

/-- Which of its three parts a step that answers a next state is. -/
theorem step_cases (s t : State) (h : step s = .next t) : s.faultMark = none ∧
   ((∃ c rest, s.calls = c :: rest ∧ portCall c { s with calls := rest } = .next t) ∨
      (s.calls = [] ∧ s.fs = .complete ∧ dispatch s = .next t) ∨
      (s.calls = [] ∧ s.fs ≠ .complete ∧ feedByte s = .next t)) := by
  rw [step] at h
  split at h
  · cases h
  · refine ⟨‹_›, ?_⟩
    split at h
    · exact .inl ⟨_, _, ‹_›, h⟩
    · split at h
      · exact .inr (.inl ⟨‹_›, ‹_›, h⟩)
      · exact .inr (.inr ⟨‹_›, ‹_›, h⟩)

end Sys2Proof.Machine
end

