-- ==== Sys2Proof/Tests/Slice0.lean ====
section
/-! SUPPORT. The model's own tests: the checks of WellFormed, one request of each constructor written out from the layouts and
decoded, single steps whose expected events and responses are those of spec/95_test_vectors.md, and a witness for the hypotheses
of each statement of Certificates/Slice0/Obligations.lean. -/

set_option maxRecDepth 100000
set_option Elab.async false

namespace Sys2Proof.Tests
open Sys2Proof Sys2Proof.Machine

/-! ### WellFormed: each check refuses an ill-formed term -/

/-- `n` zero bytes. -/
def zeros (n : Nat) : List Byte := List.replicate n 0x00#8

theorem test_wf_refuses_control_stack_of_31_bytes : Instr.wf (.setControlStack (zeros 31)) = false := by decide
theorem test_wf_refuses_control_stack_of_33_bytes : Instr.wf (.setControlStack (zeros 33)) = false := by decide
theorem test_wf_refuses_leave_isp_delays : Instr.wf (.leaveProgmodeIsp (zeros 3)) = false := by decide
theorem test_wf_refuses_leave_pp_delays : Instr.wf (.leaveProgmodePp (zeros 3)) = false := by decide
theorem test_wf_refuses_leave_hvsp_delays : Instr.wf (.leaveProgmodeHvsp (zeros 3)) = false := by decide
theorem test_wf_refuses_enter_pp_delays : Instr.wf (.enterProgmodePp (zeros 8)) = false := by decide
theorem test_wf_refuses_enter_hvsp_delays : Instr.wf (.enterProgmodeHvsp (zeros 9)) = false := by decide
theorem test_wf_refuses_flash_isp_ignored : Instr.wf (.programFlashIsp 0x00#8 0x00#8 (zeros 4) []) = false := by decide
theorem test_wf_refuses_eeprom_isp_ignored : Instr.wf (.programEepromIsp 0x00#8 0x00#8 (zeros 6) []) = false := by decide
theorem test_wf_refuses_flash_isp_data : Instr.wf (.programFlashIsp 0x00#8 0x00#8 (zeros 5) (zeros 266)) = false := by decide
theorem test_wf_refuses_eeprom_isp_data : Instr.wf (.programEepromIsp 0x00#8 0x00#8 (zeros 5) (zeros 266)) = false := by decide
theorem test_wf_refuses_flash_pp_data : Instr.wf (.programFlashPp 0x00#8 0x00#8 (zeros 271)) = false := by decide
theorem test_wf_refuses_eeprom_pp_data : Instr.wf (.programEepromPp 0x00#8 0x00#8 (zeros 271)) = false := by decide
theorem test_wf_refuses_flash_hvsp_data : Instr.wf (.programFlashHvsp 0x00#8 0x00#8 (zeros 271)) = false := by decide
theorem test_wf_refuses_eeprom_hvsp_data : Instr.wf (.programEepromHvsp 0x00#8 0x00#8 (zeros 271)) = false := by decide
theorem test_wf_refuses_xprg_data : Instr.wf (.xprgWriteMem 0x00#8 0x00#8 0x00000000#32 (zeros 266)) = false := by decide
theorem test_wf_refuses_xprg_params : Instr.wf (.xprgSetParam (zeros 274)) = false := by decide

/-! ### Decoding: a request of each constructor, from the codes R84, R85 and the layouts R88 to R94 -/

theorem test_decode_set_parameter : decodeRequest 0x00#8 [0x02#8, 0x98#8, 0x03#8]
    = .instr (.setParameter 0x98#8 0x03#8) := by decide
theorem test_decode_load_address : decodeRequest 0x00#8 [0x06#8, 0x80#8, 0x00#8, 0x01#8, 0x02#8]
    = .instr (.loadAddress 0x80000102#32) := by decide
theorem test_decode_enter_progmode_isp : decodeRequest 0x00#8 [0x10#8, 0xC8#8, 0x64#8, 0x19#8, 0x20#8, 0x00#8, 0x53#8, 0x03#8, 0xAC#8, 0x53#8, 0x00#8, 0x00#8]
    = .instr (.enterProgmodeIsp 0xC8#8 ⟨0x64#8, 0x19#8, 0x20#8, 0x00#8⟩ 0x53#8 0x03#8 ⟨0xAC#8, 0x53#8, 0x00#8, 0x00#8⟩) := by decide
theorem test_decode_leave_progmode_isp : decodeRequest 0x00#8 [0x11#8, 0x01#8, 0x02#8]
    = .instr (.leaveProgmodeIsp [0x01#8, 0x02#8]) := by decide
theorem test_decode_chip_erase_isp : decodeRequest 0x00#8 [0x12#8, 0x0A#8, 0x01#8, 0xAC#8, 0x80#8, 0x00#8, 0x00#8]
    = .instr (.chipEraseIsp 0x0A#8 0x01#8 ⟨0xAC#8, 0x80#8, 0x00#8, 0x00#8⟩) := by decide
theorem test_decode_program_flash_isp : decodeRequest 0x00#8 [0x13#8, 0x00#8, 0x02#8, 0x80#8, 0x0A#8, 0x4C#8, 0x40#8, 0x48#8, 0x00#8, 0x00#8, 0x11#8, 0x22#8]
    = .instr (.programFlashIsp 0x80#8 0x0A#8 [0x4C#8, 0x40#8, 0x48#8, 0x00#8, 0x00#8] [0x11#8, 0x22#8]) := by decide
theorem test_decode_read_flash_isp : decodeRequest 0x00#8 [0x14#8, 0x00#8, 0x02#8, 0x20#8]
    = .instr (.readFlashIsp 0x0002#16 (some 0x20#8)) := by decide
theorem test_decode_program_eeprom_isp : decodeRequest 0x00#8 [0x15#8, 0x00#8, 0x02#8, 0x80#8, 0x0A#8, 0xC1#8, 0xC2#8, 0xA0#8, 0x00#8, 0x00#8, 0xAA#8, 0x55#8]
    = .instr (.programEepromIsp 0x80#8 0x0A#8 [0xC1#8, 0xC2#8, 0xA0#8, 0x00#8, 0x00#8] [0xAA#8, 0x55#8]) := by decide
theorem test_decode_read_eeprom_isp : decodeRequest 0x00#8 [0x16#8, 0x01#8, 0x12#8]
    = .instr (.readEepromIsp 0x0112#16 none) := by decide
theorem test_decode_program_fuse_isp : decodeRequest 0x00#8 [0x17#8, 0xAC#8, 0xA0#8, 0x00#8, 0x62#8]
    = .instr (.programFuseIsp ⟨0xAC#8, 0xA0#8, 0x00#8, 0x62#8⟩) := by decide
theorem test_decode_read_fuse_isp : decodeRequest 0x00#8 [0x18#8, 0x04#8, 0x50#8, 0x00#8, 0x00#8, 0x00#8]
    = .instr (.readFuseIsp 0x04#8 ⟨0x50#8, 0x00#8, 0x00#8, 0x00#8⟩) := by decide
theorem test_decode_program_lock_isp : decodeRequest 0x00#8 [0x19#8, 0xAC#8, 0xE0#8, 0x00#8, 0xFC#8]
    = .instr (.programLockIsp ⟨0xAC#8, 0xE0#8, 0x00#8, 0xFC#8⟩) := by decide
theorem test_decode_read_lock_isp : decodeRequest 0x00#8 [0x1A#8, 0x04#8, 0x58#8, 0x00#8, 0x00#8, 0x00#8]
    = .instr (.readLockIsp 0x04#8 ⟨0x58#8, 0x00#8, 0x00#8, 0x00#8⟩) := by decide
theorem test_decode_read_signature_isp : decodeRequest 0x00#8 [0x1B#8, 0x04#8, 0x30#8, 0x00#8, 0x01#8, 0x00#8]
    = .instr (.readSignatureIsp 0x04#8 ⟨0x30#8, 0x00#8, 0x01#8, 0x00#8⟩) := by decide
theorem test_decode_read_osccal_isp : decodeRequest 0x00#8 [0x1C#8, 0x04#8, 0x38#8, 0x00#8, 0x00#8, 0x00#8]
    = .instr (.readOsccalIsp 0x04#8 ⟨0x38#8, 0x00#8, 0x00#8, 0x00#8⟩) := by decide
theorem test_decode_enter_progmode_pp : decodeRequest 0x00#8 [0x20#8, 0x01#8, 0x02#8, 0x03#8, 0x04#8, 0x05#8, 0x06#8, 0x07#8]
    = .instr (.enterProgmodePp [0x01#8, 0x02#8, 0x03#8, 0x04#8, 0x05#8, 0x06#8, 0x07#8]) := by decide
theorem test_decode_leave_progmode_pp : decodeRequest 0x00#8 [0x21#8, 0x0F#8, 0x0E#8]
    = .instr (.leaveProgmodePp [0x0F#8, 0x0E#8]) := by decide
theorem test_decode_chip_erase_pp : decodeRequest 0x00#8 [0x22#8, 0x05#8, 0x0A#8]
    = .instr (.chipErasePp 0x05#8 0x0A#8) := by decide
theorem test_decode_program_flash_pp : decodeRequest 0x00#8 [0x23#8, 0x00#8, 0x02#8, 0x80#8, 0x0A#8, 0x11#8, 0x22#8]
    = .instr (.programFlashPp 0x80#8 0x0A#8 [0x11#8, 0x22#8]) := by decide
theorem test_decode_read_flash_pp : decodeRequest 0x00#8 [0x24#8, 0x01#8, 0x00#8]
    = .instr (.readFlashPp 0x0100#16) := by decide
theorem test_decode_program_eeprom_pp : decodeRequest 0x00#8 [0x25#8, 0x00#8, 0x01#8, 0x80#8, 0x0A#8, 0x33#8]
    = .instr (.programEepromPp 0x80#8 0x0A#8 [0x33#8]) := by decide
theorem test_decode_read_eeprom_pp : decodeRequest 0x00#8 [0x26#8, 0x00#8, 0x01#8]
    = .instr (.readEepromPp 0x0001#16) := by decide
theorem test_decode_program_fuse_pp : decodeRequest 0x00#8 [0x27#8, 0x01#8, 0xDF#8, 0x00#8, 0x0A#8]
    = .instr (.programFusePp 0x01#8 0xDF#8 0x00#8 0x0A#8) := by decide
theorem test_decode_read_fuse_pp : decodeRequest 0x00#8 [0x28#8, 0x02#8]
    = .instr (.readFusePp 0x02#8) := by decide
theorem test_decode_program_lock_pp : decodeRequest 0x00#8 [0x29#8, 0x00#8, 0xFC#8, 0x00#8, 0x05#8]
    = .instr (.programLockPp 0x00#8 0xFC#8 0x00#8 0x05#8) := by decide
theorem test_decode_read_lock_pp : decodeRequest 0x00#8 [0x2A#8, 0x00#8]
    = .instr (.readLockPp 0x00#8) := by decide
theorem test_decode_read_signature_pp : decodeRequest 0x00#8 [0x2B#8, 0x01#8]
    = .instr (.readSignaturePp 0x01#8) := by decide
theorem test_decode_read_osccal_pp : decodeRequest 0x00#8 [0x2C#8, 0x00#8]
    = .instr (.readOsccalPp 0x00#8) := by decide
theorem test_decode_set_control_stack : decodeRequest 0x00#8 (0x2D#8 :: (List.range 32).map (BitVec.ofNat 8))
    = .instr (.setControlStack ((List.range 32).map (BitVec.ofNat 8))) := by decide
theorem test_decode_enter_progmode_hvsp : decodeRequest 0x00#8 [0x30#8, 0x01#8, 0x02#8, 0x03#8, 0x04#8, 0x05#8, 0x06#8, 0x07#8, 0x08#8]
    = .instr (.enterProgmodeHvsp [0x01#8, 0x02#8, 0x03#8, 0x04#8, 0x05#8, 0x06#8, 0x07#8, 0x08#8]) := by decide
theorem test_decode_leave_progmode_hvsp : decodeRequest 0x00#8 [0x31#8]
    = .instr (.leaveProgmodeHvsp []) := by decide
theorem test_decode_chip_erase_hvsp : decodeRequest 0x00#8 [0x32#8, 0x0A#8, 0x05#8]
    = .instr (.chipEraseHvsp 0x0A#8 (some 0x05#8)) := by decide
theorem test_decode_program_flash_hvsp : decodeRequest 0x00#8 [0x33#8, 0x00#8, 0x02#8, 0x00#8, 0x0A#8, 0x11#8, 0x22#8]
    = .instr (.programFlashHvsp 0x00#8 0x0A#8 [0x11#8, 0x22#8]) := by decide
theorem test_decode_read_flash_hvsp : decodeRequest 0x00#8 [0x34#8, 0x00#8, 0x04#8]
    = .instr (.readFlashHvsp 0x0004#16) := by decide
theorem test_decode_program_eeprom_hvsp : decodeRequest 0x00#8 [0x35#8, 0x00#8, 0x01#8, 0x80#8, 0x05#8, 0x7E#8]
    = .instr (.programEepromHvsp 0x80#8 0x05#8 [0x7E#8]) := by decide
theorem test_decode_read_eeprom_hvsp : decodeRequest 0x00#8 [0x36#8, 0x00#8, 0x03#8]
    = .instr (.readEepromHvsp 0x0003#16) := by decide
theorem test_decode_program_fuse_hvsp : decodeRequest 0x00#8 [0x37#8, 0x01#8, 0xDF#8, 0x0A#8]
    = .instr (.programFuseHvsp 0x01#8 0xDF#8 0x0A#8) := by decide
theorem test_decode_read_fuse_hvsp : decodeRequest 0x00#8 [0x38#8, 0x01#8]
    = .instr (.readFuseHvsp 0x01#8) := by decide
theorem test_decode_program_lock_hvsp : decodeRequest 0x00#8 [0x39#8, 0x00#8, 0xFC#8, 0x05#8]
    = .instr (.programLockHvsp 0x00#8 0xFC#8 0x05#8) := by decide
theorem test_decode_read_lock_hvsp : decodeRequest 0x00#8 [0x3A#8, 0x00#8]
    = .instr (.readLockHvsp 0x00#8) := by decide
theorem test_decode_read_signature_hvsp : decodeRequest 0x00#8 [0x3B#8, 0x02#8]
    = .instr (.readSignatureHvsp 0x02#8) := by decide
theorem test_decode_read_osccal_hvsp : decodeRequest 0x00#8 [0x3C#8, 0x01#8]
    = .instr (.readOsccalHvsp 0x01#8) := by decide
theorem test_decode_xprg_enter_progmode : decodeRequest 0x00#8 [0x50#8, 0x01#8]
    = .instr (.xprgEnterProgmode) := by decide
theorem test_decode_xprg_leave_progmode : decodeRequest 0x00#8 [0x50#8, 0x02#8]
    = .instr (.xprgLeaveProgmode) := by decide
theorem test_decode_xprg_erase : decodeRequest 0x00#8 [0x50#8, 0x03#8, 0x01#8, 0x00#8, 0x00#8, 0x40#8, 0x00#8]
    = .instr (.xprgErase 0x01#8 0x00004000#32) := by decide
theorem test_decode_xprg_write_mem : decodeRequest 0x00#8 [0x50#8, 0x04#8, 0x01#8, 0x00#8, 0x00#8, 0x00#8, 0x40#8, 0x00#8, 0x00#8, 0x03#8, 0x01#8, 0x02#8, 0x03#8]
    = .instr (.xprgWriteMem 0x01#8 0x00#8 0x00004000#32 [0x01#8, 0x02#8, 0x03#8]) := by decide
theorem test_decode_xprg_read_mem : decodeRequest 0x00#8 [0x50#8, 0x05#8, 0x01#8, 0x00#8, 0x00#8, 0x3F#8, 0xC0#8, 0x00#8, 0x03#8]
    = .instr (.xprgReadMem 0x01#8 0x00003FC0#32 0x0003#16) := by decide
theorem test_decode_xprg_set_param : decodeRequest 0x00#8 [0x50#8, 0x07#8, 0x01#8, 0x00#8, 0x40#8]
    = .instr (.xprgSetParam [0x01#8, 0x00#8, 0x40#8]) := by decide

/-- The opcode table's numbering of an XPROG row: `XPROG_CMD` at bits 15:8 (log 13). -/
theorem test_table_word_xprog : decodeTableWord 16 0x5003 = some (.xprgErase 0x00#8 0x00000000#32) := by decide +kernel

/-- The opcode table's numbering of a row of `OpMap`. -/
theorem test_table_word_main : decodeTableWord 8 0x06 = some (.loadAddress 0x00000000#32) := by decide +kernel

/-- An instruction put where the step fetches is the one the step runs. -/
theorem test_with_fetch_word : fetchRequest (State.reset.withFetchWord 8 0x21) = .instr (.leaveProgmodePp [0x00#8, 0x00#8]) := by
  decide +kernel

/-! ### Single steps: the vectors of spec/95_test_vectors.md -/

/-- The engine with a family active, in programming mode, the control stack `0, 1, .., 31` and the counter at 0. -/
def active (f : Family) : State :=
  { State.reset with
    activeFamily := f, inMode := true, clock := 0x00000000#32, controlStack := (List.range 32).map (BitVec.ofNat 8) }

/-- The state with a request received. -/
def holding (s : State) (seq : Byte) (body : List Byte) : State :=
  { s with fs := .complete, seq := seq, len := BitVec.ofNat 16 body.length, buf := cellsFrom 0 body }

/-- The state after a request: the step that performs it and, where the operation leaves the response to the dispatch loop, the
step that sends it. -/
def settled (s : State) (seq : Byte) (body : List Byte) : Option State :=
  match step (holding s seq body) with
  | .next t =>
    match t.calls with
    | [] => some t
    | _ :: _ =>
      match step t with
      | .next u => some u
      | .fault _ => none
      | .refused _ => none
  | .fault _ => none
  | .refused _ => none

/-- What a request adds to TRACE and sends. -/
def performs (s : State) (seq : Byte) (body : List Byte) : Option (List Event × List Byte) :=
  (settled s seq body).map fun t => (t.trace, t.tx)

/-- Where a request stops. -/
def faultOf (r : Result) : Option Fault :=
  match r with
  | .next _ => none
  | .fault f => some f
  | .refused _ => none

/-- Whether an outcome is a next state. -/
def isNext (r : Result) : Bool :=
  match r with
  | .next _ => true
  | .fault _ => false
  | .refused _ => false

/-- A field of the state after a request. -/
def after {α : Type} (get : State → α) (s : State) (seq : Byte) (body : List Byte) : Option α :=
  (settled s seq body).map get

/-- The operation and its response are two steps: after the first nothing is sent and the request is still held (R11, R141). -/
theorem test_operation_then_response :
    (match step (holding (active .isp) 0x09#8 [0x06#8, 0x1B#8, 0x1B#8, 0x1B#8, 0x1B#8]) with
      | .next t => some (t.fs, t.tx, t.calls)
      | .fault _ => none
      | .refused _ => none) = some (.complete, [], [.sendResponse 0x00#8 1#16]) := by decide +kernel

/-- Answers to ISP transactions that hold only a last byte. -/
def lastBytes (bs : List Byte) : List Quad := bs.map fun b => ⟨0x00#8, 0x00#8, 0x00#8, b⟩

/-- V-DS-6. -/
theorem test_set_parameter : after State.clockSelector (active .isp) 0x01#8 [0x02#8, 0x98#8, 0x03#8] = some (0x0003#16) := by decide +kernel

/-- V-DS-4. -/
theorem test_set_parameter_unsupported : performs (active .isp) 0x03#8 [0x02#8, 0x99#8, 0x05#8]
    = some ([],
      [0x1B#8, 0x03#8, 0x00#8, 0x01#8, 0x0E#8, 0xC0#8, 0xD7#8]) := by decide +kernel

/-- V-DS-8. -/
theorem test_load_address : after State.currentAddress (active .isp) 0x03#8 [0x06#8, 0x80#8, 0x00#8, 0x00#8, 0x00#8] = some (0x80000000#32) := by decide +kernel

/-- V-FR-10. -/
theorem test_load_address_response : performs (active .isp) 0x09#8 [0x06#8, 0x1B#8, 0x1B#8, 0x1B#8, 0x1B#8]
    = some ([],
      [0x1B#8, 0x09#8, 0x00#8, 0x01#8, 0x0E#8, 0x00#8, 0x1D#8]) := by decide +kernel

/-- V-DS-9. -/
theorem test_set_control_stack :
    after (fun t => (t.controlStack.getD 31 0x00#8, t.tx)) State.reset 0x01#8
      (0x2D#8 :: (List.range 32).map (BitVec.ofNat 8))
    = some (0x1F#8, [0x1B#8, 0x01#8, 0x00#8, 0x01#8, 0x0E#8, 0x00#8, 0x15#8]) := by decide +kernel

/-- E7. -/
theorem test_enter_isp : performs { active .isp with ispAnswers := [⟨0x00#8, 0x00#8, 0x53#8, 0x00#8⟩] } 0x01#8 [0x10#8, 0xC8#8, 0x64#8, 0x19#8, 0x20#8, 0x00#8, 0x53#8, 0x03#8, 0xAC#8, 0x53#8, 0x00#8, 0x00#8]
    = some ([.ispBringUp, .ispXfer 0 ⟨0xAC#8, 0x53#8, 0x00#8, 0x00#8⟩],
      [0x1B#8, 0x01#8, 0x00#8, 0x01#8, 0x0E#8, 0x00#8, 0x15#8]) := by decide +kernel

/-- V-ISP-2. -/
theorem test_enter_isp_fails : performs { active .isp with ispAnswers := List.replicate 4 ⟨0xFF#8, 0xFF#8, 0xFF#8, 0xFF#8⟩ } 0x01#8 [0x10#8, 0xC8#8, 0x64#8, 0x19#8, 0x20#8, 0x00#8, 0x53#8, 0x03#8, 0xAC#8, 0x53#8, 0x00#8, 0x00#8]
    = some ([.ispBringUp, .ispXfer 0 ⟨0xAC#8, 0x53#8, 0x00#8, 0x00#8⟩, .ispXfer 1 ⟨0xAC#8, 0x53#8, 0x00#8, 0x00#8⟩, .ispXfer 2 ⟨0xAC#8, 0x53#8, 0x00#8, 0x00#8⟩, .ispXfer 3 ⟨0xAC#8, 0x53#8, 0x00#8, 0x00#8⟩, .ispRelease],
      [0x1B#8, 0x01#8, 0x00#8, 0x01#8, 0x0E#8, 0xC0#8, 0xD5#8]) := by decide +kernel

/-- V-ISP-17. -/
theorem test_leave_isp : performs (active .isp) 0x06#8 [0x11#8, 0x01#8, 0x01#8]
    = some ([.ispRelease],
      [0x1B#8, 0x06#8, 0x00#8, 0x01#8, 0x0E#8, 0x00#8, 0x12#8]) := by decide +kernel

/-- V-ISP-3. -/
theorem test_chip_erase_isp_timeout : performs { active .isp with ispAnswers := lastBytes [0x00#8, 0x01#8], elapsed := [0#31, 0#31] } 0x04#8 [0x12#8, 0x00#8, 0x01#8, 0xAC#8, 0x80#8, 0x00#8, 0x00#8]
    = some ([.ispXfer 0 ⟨0xAC#8, 0x80#8, 0x00#8, 0x00#8⟩, .ispXfer 0 ⟨0xF0#8, 0x00#8, 0x00#8, 0x00#8⟩],
      [0x1B#8, 0x04#8, 0x00#8, 0x01#8, 0x0E#8, 0x81#8, 0x91#8]) := by decide +kernel

/-- V-DS-13. -/
theorem test_chip_erase_isp_in_hvpp : performs { active .hvpp with hvReadies := [true], elapsed := [0#31] } 0x04#8 [0x12#8, 0x0A#8, 0x01#8, 0xAC#8, 0x80#8, 0x00#8, 0x00#8]
    = some ([.hvLoad .loadCmd .low 0x80#8 (some 0x08#8), .hvStrobe .commit .low (some 0x0C#8), .hvReady],
      [0x1B#8, 0x04#8, 0x00#8, 0x01#8, 0x0E#8, 0x00#8, 0x10#8]) := by decide +kernel

/-- V-ISP-5. -/
theorem test_program_flash_isp_crossing : performs { active .isp with currentAddress := 0x0000FFFF#32, ispAnswers := lastBytes (zeros 7), elapsed := [0#31] } 0x03#8 [0x13#8, 0x00#8, 0x04#8, 0x80#8, 0x0A#8, 0x4C#8, 0x40#8, 0x48#8, 0x00#8, 0x00#8, 0x11#8, 0x22#8, 0x33#8, 0x44#8]
    = some ([.ispXfer 0 ⟨0x40#8, 0xFF#8, 0xFF#8, 0x11#8⟩, .ispXfer 0 ⟨0x48#8, 0xFF#8, 0xFF#8, 0x22#8⟩, .ispXfer 0 ⟨0x4D#8, 0x00#8, 0x01#8, 0x00#8⟩, .ispXfer 0 ⟨0x40#8, 0x00#8, 0x00#8, 0x33#8⟩, .ispXfer 0 ⟨0x48#8, 0x00#8, 0x00#8, 0x44#8⟩, .ispXfer 0 ⟨0x4C#8, 0xFF#8, 0xFF#8, 0x00#8⟩, .ispXfer 0 ⟨0xF0#8, 0x00#8, 0x00#8, 0x00#8⟩],
      [0x1B#8, 0x03#8, 0x00#8, 0x01#8, 0x0E#8, 0x00#8, 0x17#8]) := by decide +kernel

/-- V-ISP-5, the address. -/
theorem test_program_flash_isp_address : after State.currentAddress { active .isp with currentAddress := 0x0000FFFF#32, ispAnswers := lastBytes (zeros 7), elapsed := [0#31] } 0x03#8 [0x13#8, 0x00#8, 0x04#8, 0x80#8, 0x0A#8, 0x4C#8, 0x40#8, 0x48#8, 0x00#8, 0x00#8, 0x11#8, 0x22#8, 0x33#8, 0x44#8] = some (0x01010001#32) := by decide +kernel

/-- V-ISP-8. -/
theorem test_read_flash_isp : performs { active .isp with currentAddress := 0x80000000#32, ispAnswers := lastBytes [0x00#8, 0x0C#8, 0x94#8] } 0x05#8 [0x14#8, 0x00#8, 0x02#8, 0x20#8]
    = some ([.ispXfer 0 ⟨0x4D#8, 0x00#8, 0x00#8, 0x00#8⟩, .ispXfer 0 ⟨0x20#8, 0x00#8, 0x00#8, 0x00#8⟩, .ispXfer 0 ⟨0x28#8, 0x00#8, 0x00#8, 0x00#8⟩],
      [0x1B#8, 0x05#8, 0x00#8, 0x03#8, 0x0E#8, 0x00#8, 0x0C#8, 0x94#8, 0x8B#8]) := by decide +kernel

/-- V-ISP-10, the address. -/
theorem test_read_flash_isp_segment : after State.currentAddress { active .isp with currentAddress := 0x0101FFFF#32 } 0x03#8 [0x14#8, 0x00#8, 0x04#8, 0x20#8] = some (0x02020001#32) := by decide +kernel

/-- V-ISP-6. -/
theorem test_program_eeprom_isp : performs { active .isp with currentAddress := 0x00000010#32, ispAnswers := lastBytes (zeros 4), elapsed := [0#31] } 0x07#8 [0x15#8, 0x00#8, 0x02#8, 0x80#8, 0x0A#8, 0xC1#8, 0xC2#8, 0xA0#8, 0x00#8, 0x00#8, 0xAA#8, 0x55#8]
    = some ([.ispXfer 0 ⟨0xC1#8, 0x00#8, 0x10#8, 0xAA#8⟩, .ispXfer 0 ⟨0xC1#8, 0x00#8, 0x11#8, 0x55#8⟩, .ispXfer 0 ⟨0xC2#8, 0x00#8, 0x10#8, 0x00#8⟩, .ispXfer 0 ⟨0xF0#8, 0x00#8, 0x00#8, 0x00#8⟩],
      [0x1B#8, 0x07#8, 0x00#8, 0x01#8, 0x0E#8, 0x00#8, 0x13#8]) := by decide +kernel

/-- V-ISP-12. -/
theorem test_read_eeprom_isp : performs { active .isp with ispAnswers := lastBytes [0xFF#8] } 0x06#8 [0x16#8, 0x00#8, 0x01#8, 0xA0#8]
    = some ([.ispXfer 0 ⟨0xA0#8, 0x00#8, 0x00#8, 0x00#8⟩],
      [0x1B#8, 0x06#8, 0x00#8, 0x02#8, 0x0E#8, 0x00#8, 0xFF#8, 0xEE#8]) := by decide +kernel

/-- V-ISP-13. -/
theorem test_program_fuse_isp : performs (active .isp) 0x05#8 [0x17#8, 0xAC#8, 0xA0#8, 0x00#8, 0x62#8]
    = some ([.ispXfer 0 ⟨0xAC#8, 0xA0#8, 0x00#8, 0x62#8⟩],
      [0x1B#8, 0x05#8, 0x00#8, 0x01#8, 0x0E#8, 0x00#8, 0x11#8]) := by decide +kernel

/-- V-DS-12. -/
theorem test_program_fuse_isp_in_hvsp : performs (active .hvsp) 0x09#8 [0x17#8, 0xAC#8, 0xA0#8, 0x00#8, 0x62#8]
    = some ([],
      [0x1B#8, 0x09#8, 0x00#8, 0x01#8, 0x0E#8, 0xC0#8, 0xDD#8]) := by decide +kernel

/-- V-ISP-14. -/
theorem test_read_fuse_isp : performs { active .isp with ispAnswers := lastBytes [0x62#8] } 0x05#8 [0x18#8, 0x04#8, 0x50#8, 0x00#8, 0x00#8, 0x00#8]
    = some ([.ispXfer 0 ⟨0x50#8, 0x00#8, 0x00#8, 0x00#8⟩],
      [0x1B#8, 0x05#8, 0x00#8, 0x02#8, 0x0E#8, 0x00#8, 0x62#8, 0x70#8]) := by decide +kernel

/-- V-ISP-15. -/
theorem test_read_fuse_isp_index : faultOf (step (holding (active .isp) 0x05#8 [0x18#8, 0x05#8, 0x50#8, 0x00#8, 0x00#8, 0x00#8])) = some .ispReturnIndex := by
  decide +kernel

/-- R203: the fuse write's form with the lock's transaction. -/
theorem test_program_lock_isp : performs (active .isp) 0x05#8 [0x19#8, 0xAC#8, 0xE0#8, 0x00#8, 0xFC#8]
    = some ([.ispXfer 0 ⟨0xAC#8, 0xE0#8, 0x00#8, 0xFC#8⟩],
      [0x1B#8, 0x05#8, 0x00#8, 0x01#8, 0x0E#8, 0x00#8, 0x11#8]) := by decide +kernel

/-- R205: the second byte of the answer for index 2. -/
theorem test_read_lock_isp : performs { active .isp with ispAnswers := [⟨0x01#8, 0x02#8, 0xFF#8, 0x03#8⟩] } 0x05#8 [0x1A#8, 0x02#8, 0x58#8, 0x00#8, 0x00#8, 0x00#8]
    = some ([.ispXfer 0 ⟨0x58#8, 0x00#8, 0x00#8, 0x00#8⟩],
      [0x1B#8, 0x05#8, 0x00#8, 0x02#8, 0x0E#8, 0x00#8, 0x02#8, 0x10#8]) := by decide +kernel

/-- Program P3, request 3. -/
theorem test_read_signature_isp : performs { active .isp with ispAnswers := lastBytes [0x1E#8], ispRung := 2 } 0x03#8 [0x1B#8, 0x04#8, 0x30#8, 0x00#8, 0x00#8, 0x00#8]
    = some ([.ispXfer 2 ⟨0x30#8, 0x00#8, 0x00#8, 0x00#8⟩],
      [0x1B#8, 0x03#8, 0x00#8, 0x02#8, 0x0E#8, 0x00#8, 0x1E#8, 0x0A#8]) := by decide +kernel

/-- R207: the first byte of the answer for index 1. -/
theorem test_read_osccal_isp : performs { active .isp with ispAnswers := [⟨0x9A#8, 0x00#8, 0x00#8, 0x00#8⟩] } 0x05#8 [0x1C#8, 0x01#8, 0x38#8, 0x00#8, 0x00#8, 0x00#8]
    = some ([.ispXfer 0 ⟨0x38#8, 0x00#8, 0x00#8, 0x00#8⟩],
      [0x1B#8, 0x05#8, 0x00#8, 0x02#8, 0x0E#8, 0x00#8, 0x9A#8, 0x88#8]) := by decide +kernel

/-- V-HV-1. -/
theorem test_enter_pp : performs (active .isp) 0x03#8 [0x20#8, 0x00#8, 0x00#8, 0x00#8, 0x00#8, 0x00#8, 0x00#8, 0x00#8]
    = some ([.hvBringUp .hvpp, .hvStrobe .init .low (some 0x18#8)],
      [0x1B#8, 0x03#8, 0x00#8, 0x01#8, 0x0E#8, 0x00#8, 0x17#8]) := by decide +kernel

/-- V-HV-14. -/
theorem test_leave_pp : performs (active .hvpp) 0x08#8 [0x21#8, 0x00#8, 0x00#8]
    = some ([.hvRelease .hvpp],
      [0x1B#8, 0x08#8, 0x00#8, 0x01#8, 0x0E#8, 0x00#8, 0x1C#8]) := by decide +kernel

/-- A request of no bytes with the stale code of `Leave` (R81, R93, R225). -/
theorem test_leave_empty_request :
    (match step { holding (active .hvsp) 0x08#8 [0x31#8] with len := 0#16 } with
      | .next t => some (t.trace, t.inMode, t.calls)
      | .fault _ => none
      | .refused _ => none) = some ([.hvRelease .hvsp], false, [.sendResponse 0x00#8 1#16]) := by decide +kernel

/-- V-DS-13 in its own layout. -/
theorem test_chip_erase_pp : performs { active .hvpp with hvReadies := [true], elapsed := [0#31] } 0x04#8 [0x22#8, 0x00#8, 0x0A#8]
    = some ([.hvLoad .loadCmd .low 0x80#8 (some 0x08#8), .hvStrobe .commit .low (some 0x0C#8), .hvReady],
      [0x1B#8, 0x04#8, 0x00#8, 0x01#8, 0x0E#8, 0x00#8, 0x10#8]) := by decide +kernel

/-- V-DS-12. -/
theorem test_chip_erase_pp_in_isp : performs (active .isp) 0x04#8 [0x22#8, 0x00#8, 0x0A#8]
    = some ([],
      [0x1B#8, 0x04#8, 0x00#8, 0x01#8, 0x0E#8, 0xC0#8, 0xD0#8]) := by decide +kernel

/-- V-HV-3. -/
theorem test_program_flash_pp : performs { active .hvpp with currentAddress := 0x00800000#32, hvReadies := [true], elapsed := [0#31] } 0x05#8 [0x23#8, 0x00#8, 0x02#8, 0x80#8, 0x0A#8, 0xAA#8, 0xBB#8]
    = some ([.hvLoad .loadCmd .low 0x10#8 (some 0x08#8), .hvLoad .loadAddr .low 0x00#8 (some 0x00#8), .hvLoad .loadData .low 0xAA#8 (some 0x04#8), .hvLoad .loadData .high 0xBB#8 (some 0x05#8), .hvStrobe .pageLoad .low (some 0x14#8), .hvLoad .loadAddr .high 0x00#8 (some 0x01#8), .hvLoad .loadAddr .ext 0x80#8 (some 0x02#8), .hvStrobe .commit .low (some 0x0C#8), .hvReady],
      [0x1B#8, 0x05#8, 0x00#8, 0x01#8, 0x0E#8, 0x00#8, 0x11#8]) := by decide +kernel

/-- V-HV-4. -/
theorem test_program_flash_pp_no_data : performs { active .hvpp with currentAddress := 0x00000100#32, hvReadies := [true], elapsed := [0#31] } 0x05#8 [0x23#8, 0x00#8, 0x00#8, 0x80#8, 0x0A#8]
    = some ([.hvLoad .loadCmd .low 0x10#8 (some 0x08#8), .hvLoad .loadAddr .high 0x01#8 (some 0x01#8), .hvStrobe .commit .low (some 0x0C#8), .hvReady],
      [0x1B#8, 0x05#8, 0x00#8, 0x01#8, 0x0E#8, 0x00#8, 0x11#8]) := by decide +kernel

/-- V-HV-6, request 1. -/
theorem test_read_flash_pp : performs { active .hvpp with currentAddress := 0x000000FF#32, hvBytes := [0xA1#8, 0xA2#8, 0xB1#8, 0xB2#8] } 0x03#8 [0x24#8, 0x00#8, 0x04#8]
    = some ([.hvLoad .loadCmd .low 0x02#8 (some 0x08#8), .hvLoad .loadAddr .high 0x00#8 (some 0x01#8), .hvLoad .loadAddr .low 0xFF#8 (some 0x00#8), .hvRead .low (some 0x10#8), .hvRead .high (some 0x11#8), .hvLoad .loadAddr .high 0x01#8 (some 0x01#8), .hvLoad .loadAddr .low 0x00#8 (some 0x00#8), .hvRead .low (some 0x10#8), .hvRead .high (some 0x11#8)],
      [0x1B#8, 0x03#8, 0x00#8, 0x05#8, 0x0E#8, 0x00#8, 0xA1#8, 0xA2#8, 0xB1#8, 0xB2#8, 0x13#8]) := by decide +kernel

/-- Program P2, request 7: the cache holds the page. -/
theorem test_read_flash_pp_cached : performs { active .hvpp with currentAddress := 0x00000102#32, hvBytes := [0x55#8, 0x66#8], prevPage := some ⟨.flash, 0x0001#16⟩ } 0x07#8 [0x24#8, 0x00#8, 0x02#8]
    = some ([.hvLoad .loadCmd .low 0x02#8 (some 0x08#8), .hvLoad .loadAddr .low 0x02#8 (some 0x00#8), .hvRead .low (some 0x10#8), .hvRead .high (some 0x11#8)],
      [0x1B#8, 0x07#8, 0x00#8, 0x03#8, 0x0E#8, 0x00#8, 0x55#8, 0x66#8, 0x22#8]) := by decide +kernel

/-- R228: one data load for each byte; no commit. -/
theorem test_program_eeprom_pp : performs { active .hvpp with currentAddress := 0x00000001#32 } 0x05#8 [0x25#8, 0x00#8, 0x01#8, 0x00#8, 0x0A#8, 0x33#8]
    = some ([.hvLoad .loadCmd .low 0x11#8 (some 0x08#8), .hvLoad .loadAddr .low 0x01#8 (some 0x00#8), .hvLoad .loadData .low 0x33#8 (some 0x04#8), .hvStrobe .pageLoad .low (some 0x14#8)],
      [0x1B#8, 0x05#8, 0x00#8, 0x01#8, 0x0E#8, 0x00#8, 0x11#8]) := by decide +kernel

/-- V-HV-6, request 2: the same page number, another memory. -/
theorem test_read_eeprom_pp : performs { active .hvpp with currentAddress := 0x00000101#32, hvBytes := [0x5A#8], prevPage := some ⟨.flash, 0x0001#16⟩ } 0x04#8 [0x26#8, 0x00#8, 0x01#8]
    = some ([.hvLoad .loadCmd .low 0x03#8 (some 0x08#8), .hvLoad .loadAddr .high 0x01#8 (some 0x01#8), .hvLoad .loadAddr .low 0x01#8 (some 0x00#8), .hvRead .low (some 0x10#8)],
      [0x1B#8, 0x04#8, 0x00#8, 0x02#8, 0x0E#8, 0x00#8, 0x5A#8, 0x49#8]) := by decide +kernel

/-- V-HV-7 with the pattern of HVPP. -/
theorem test_program_fuse_pp : performs { active .hvpp with hvReadies := [true], elapsed := [0#31] } 0x06#8 [0x27#8, 0x01#8, 0xDF#8, 0x00#8, 0x0A#8]
    = some ([.hvLoad .loadCmd .low 0x40#8 (some 0x08#8), .hvLoad .loadData .low 0xDF#8 (some 0x04#8), .hvStrobe .commit .high (some 0x0D#8), .hvReady],
      [0x1B#8, 0x06#8, 0x00#8, 0x01#8, 0x0E#8, 0x00#8, 0x12#8]) := by decide +kernel

/-- V-HV-9 with `which` 2. -/
theorem test_read_fuse_pp : performs { active .hvpp with hvBytes := [0xFF#8] } 0x07#8 [0x28#8, 0x02#8]
    = some ([.hvLoad .loadCmd .low 0x04#8 (some 0x08#8), .hvRead .ext (some 0x12#8)],
      [0x1B#8, 0x07#8, 0x00#8, 0x02#8, 0x0E#8, 0x00#8, 0xFF#8, 0xEF#8]) := by decide +kernel

/-- V-HV-13. -/
theorem test_program_lock_pp : performs { active .hvpp with hvReadies := [true], elapsed := [0#31] } 0x06#8 [0x29#8, 0x00#8, 0xFC#8, 0x00#8, 0x05#8]
    = some ([.hvLoad .loadCmd .low 0x20#8 (some 0x08#8), .hvLoad .loadData .low 0xFC#8 (some 0x04#8), .hvStrobe .commit .low (some 0x0C#8), .hvReady],
      [0x1B#8, 0x06#8, 0x00#8, 0x01#8, 0x0E#8, 0x00#8, 0x12#8]) := by decide +kernel

/-- V-HV-10. -/
theorem test_read_lock_pp : performs { active .hvpp with hvBytes := [0xFC#8] } 0x07#8 [0x2A#8, 0x00#8]
    = some ([.hvLoad .loadCmd .low 0x04#8 (some 0x08#8), .hvRead .high (some 0x11#8)],
      [0x1B#8, 0x07#8, 0x00#8, 0x02#8, 0x0E#8, 0x00#8, 0xFC#8, 0xEC#8]) := by decide +kernel

/-- V-HV-11. -/
theorem test_read_signature_pp : performs { active .hvpp with hvBytes := [0x93#8] } 0x08#8 [0x2B#8, 0x01#8]
    = some ([.hvLoad .loadCmd .low 0x08#8 (some 0x08#8), .hvLoad .loadAddr .low 0x01#8 (some 0x00#8), .hvRead .low (some 0x10#8)],
      [0x1B#8, 0x08#8, 0x00#8, 0x02#8, 0x0E#8, 0x00#8, 0x93#8, 0x8C#8]) := by decide +kernel

/-- V-HV-12. -/
theorem test_read_osccal_pp : performs { active .hvpp with hvBytes := [0x9A#8] } 0x08#8 [0x2C#8, 0x00#8]
    = some ([.hvLoad .loadCmd .low 0x08#8 (some 0x08#8), .hvLoad .loadAddr .low 0x00#8 (some 0x00#8), .hvRead .high (some 0x11#8)],
      [0x1B#8, 0x08#8, 0x00#8, 0x02#8, 0x0E#8, 0x00#8, 0x9A#8, 0x85#8]) := by decide +kernel

/-- V-HV-1. -/
theorem test_enter_hvsp : performs (active .isp) 0x01#8 [0x30#8, 0x00#8, 0x00#8, 0x00#8, 0x00#8, 0x00#8, 0x00#8, 0x00#8, 0x00#8]
    = some ([.hvBringUp .hvsp, .hvStrobe .init .low none],
      [0x1B#8, 0x01#8, 0x00#8, 0x01#8, 0x0E#8, 0x00#8, 0x15#8]) := by decide +kernel

/-- R225, with no delay bytes. -/
theorem test_leave_hvsp : performs (active .hvsp) 0x08#8 [0x31#8]
    = some ([.hvRelease .hvsp],
      [0x1B#8, 0x08#8, 0x00#8, 0x01#8, 0x0E#8, 0x00#8, 0x1C#8]) := by decide +kernel

/-- V-HV-2. -/
theorem test_chip_erase_hvsp : performs { active .hvsp with hvReadies := [false, true], elapsed := [0#31, 1#31] } 0x09#8 [0x32#8, 0x0A#8, 0x00#8]
    = some ([.hvLoad .loadCmd .low 0x80#8 none, .hvStrobe .commit .low none, .hvReady, .hvReady],
      [0x1B#8, 0x09#8, 0x00#8, 0x01#8, 0x0E#8, 0x00#8, 0x1D#8]) := by decide +kernel

/-- V-HV-3's data with no pattern and no commit. -/
theorem test_program_flash_hvsp : performs (active .hvsp) 0x05#8 [0x33#8, 0x00#8, 0x02#8, 0x00#8, 0x0A#8, 0xAA#8, 0xBB#8]
    = some ([.hvLoad .loadCmd .low 0x10#8 none, .hvLoad .loadAddr .low 0x00#8 none, .hvLoad .loadData .low 0xAA#8 none, .hvLoad .loadData .high 0xBB#8 none, .hvStrobe .pageLoad .low none],
      [0x1B#8, 0x05#8, 0x00#8, 0x01#8, 0x0E#8, 0x00#8, 0x11#8]) := by decide +kernel

/-- V-DS-11 in its own layout. -/
theorem test_read_flash_hvsp : performs { active .hvsp with hvBytes := [0x01#8, 0x02#8] } 0x03#8 [0x34#8, 0x00#8, 0x02#8]
    = some ([.hvLoad .loadCmd .low 0x02#8 none, .hvLoad .loadAddr .high 0x00#8 none, .hvLoad .loadAddr .low 0x00#8 none, .hvRead .low none, .hvRead .high none],
      [0x1B#8, 0x03#8, 0x00#8, 0x03#8, 0x0E#8, 0x00#8, 0x01#8, 0x02#8, 0x16#8]) := by decide +kernel

/-- R228 with the commit flag. -/
theorem test_program_eeprom_hvsp : performs { active .hvsp with currentAddress := 0x00000102#32, hvReadies := [true], elapsed := [0#31] } 0x05#8 [0x35#8, 0x00#8, 0x01#8, 0x80#8, 0x05#8, 0x7E#8]
    = some ([.hvLoad .loadCmd .low 0x11#8 none, .hvLoad .loadAddr .low 0x02#8 none, .hvLoad .loadData .low 0x7E#8 none, .hvStrobe .pageLoad .low none, .hvLoad .loadAddr .high 0x01#8 none, .hvStrobe .commit .low none, .hvReady],
      [0x1B#8, 0x05#8, 0x00#8, 0x01#8, 0x0E#8, 0x00#8, 0x11#8]) := by decide +kernel

/-- R229 with one byte. -/
theorem test_read_eeprom_hvsp : performs { active .hvsp with hvBytes := [0x5A#8] } 0x04#8 [0x36#8, 0x00#8, 0x01#8]
    = some ([.hvLoad .loadCmd .low 0x03#8 none, .hvLoad .loadAddr .high 0x00#8 none, .hvLoad .loadAddr .low 0x00#8 none, .hvRead .low none],
      [0x1B#8, 0x04#8, 0x00#8, 0x02#8, 0x0E#8, 0x00#8, 0x5A#8, 0x49#8]) := by decide +kernel

/-- V-HV-7. -/
theorem test_program_fuse_hvsp : performs { active .hvsp with hvReadies := [true], elapsed := [0#31] } 0x06#8 [0x37#8, 0x01#8, 0xDF#8, 0x0A#8]
    = some ([.hvLoad .loadCmd .low 0x40#8 none, .hvLoad .loadData .low 0xDF#8 none, .hvStrobe .commit .high none, .hvReady],
      [0x1B#8, 0x06#8, 0x00#8, 0x01#8, 0x0E#8, 0x00#8, 0x12#8]) := by decide +kernel

/-- V-HV-8. -/
theorem test_program_fuse_hvsp_no_select : performs (active .hvsp) 0x06#8 [0x37#8, 0x03#8, 0xDF#8, 0x0A#8]
    = some ([],
      [0x1B#8, 0x06#8, 0x00#8, 0x01#8, 0x0E#8, 0xC0#8, 0xD2#8]) := by decide +kernel

/-- V-HV-9. -/
theorem test_read_fuse_hvsp : performs { active .hvsp with hvBytes := [0xFF#8] } 0x07#8 [0x38#8, 0x01#8]
    = some ([.hvLoad .loadCmd .low 0x04#8 none, .hvRead .ext2 none],
      [0x1B#8, 0x07#8, 0x00#8, 0x02#8, 0x0E#8, 0x00#8, 0xFF#8, 0xEF#8]) := by decide +kernel

/-- Program P5, request 2: a timeout across the rollover of the counter. -/
theorem test_program_lock_hvsp : performs { active .hvsp with clock := 0xFFFFFFFE#32, hvReadies := [false, false, false], elapsed := [0#31, 1#31, 2#31, 2#31] } 0x02#8 [0x39#8, 0x00#8, 0xFC#8, 0x05#8]
    = some ([.hvLoad .loadCmd .low 0x20#8 none, .hvLoad .loadData .low 0xFC#8 none, .hvStrobe .commit .low none, .hvReady, .hvReady, .hvReady],
      [0x1B#8, 0x02#8, 0x00#8, 0x01#8, 0x0E#8, 0x81#8, 0x97#8]) := by decide +kernel

/-- Program P5, request 3. -/
theorem test_read_lock_hvsp : performs { active .hvsp with hvBytes := [0xFC#8] } 0x03#8 [0x3A#8, 0x00#8]
    = some ([.hvLoad .loadCmd .low 0x04#8 none, .hvRead .high none],
      [0x1B#8, 0x03#8, 0x00#8, 0x02#8, 0x0E#8, 0x00#8, 0xFC#8, 0xE8#8]) := by decide +kernel

/-- R234 with index 2. -/
theorem test_read_signature_hvsp : performs { active .hvsp with hvBytes := [0x0B#8] } 0x08#8 [0x3B#8, 0x02#8]
    = some ([.hvLoad .loadCmd .low 0x08#8 none, .hvLoad .loadAddr .low 0x02#8 none, .hvRead .low none],
      [0x1B#8, 0x08#8, 0x00#8, 0x02#8, 0x0E#8, 0x00#8, 0x0B#8, 0x14#8]) := by decide +kernel

/-- R235 with index 1. -/
theorem test_read_osccal_hvsp : performs { active .hvsp with hvBytes := [0x9A#8] } 0x08#8 [0x3C#8, 0x01#8]
    = some ([.hvLoad .loadCmd .low 0x08#8 none, .hvLoad .loadAddr .low 0x01#8 none, .hvRead .high none],
      [0x1B#8, 0x08#8, 0x00#8, 0x02#8, 0x0E#8, 0x00#8, 0x9A#8, 0x85#8]) := by decide +kernel

/-- V-TPI-2; the frame of 80 is slots 0 0 0 0 0 0 0 0 1 1 1 1 (V-TPI-1). -/
theorem test_xprg_enter : performs { active .isp with tpiFrames := [0b111100000000#12] } 0x09#8 [0x50#8, 0x01#8]
    = some ([.tpiBringUp, .tpiReadId],
      [0x1B#8, 0x09#8, 0x00#8, 0x02#8, 0x0E#8, 0x50#8, 0x00#8, 0x4E#8]) := by decide +kernel

/-- V-TPI-2, the frame of the first decode example. -/
theorem test_xprg_enter_invalid : performs { active .isp with tpiFrames := [0b110000000010#12] } 0x09#8 [0x50#8, 0x01#8]
    = some ([.tpiBringUp, .tpiReadId, .tpiRelease],
      [0x1B#8, 0x09#8, 0x00#8, 0x02#8, 0x0E#8, 0x50#8, 0x01#8, 0x4F#8]) := by decide +kernel

/-- V-TPI-6. -/
theorem test_xprg_leave : performs (active .tpi) 0x06#8 [0x50#8, 0x02#8]
    = some ([.tpiRelease],
      [0x1B#8, 0x06#8, 0x00#8, 0x02#8, 0x0E#8, 0x50#8, 0x00#8, 0x41#8]) := by decide +kernel

/-- V-TPI-3. -/
theorem test_xprg_erase : performs { active .tpi with tpiFrames := [0b110000000000#12], elapsed := [0#31] } 0x02#8 [0x50#8, 0x03#8, 0x01#8, 0x00#8, 0x00#8, 0x40#8, 0x00#8]
    = some ([.tpiNvmCmd 0x10#8, .tpiWrite 0x00004000#32 0x00#8, .tpiBusy],
      [0x1B#8, 0x02#8, 0x00#8, 0x02#8, 0x0E#8, 0x50#8, 0x00#8, 0x45#8]) := by decide +kernel

/-- V-TPI-7. -/
theorem test_xprg_erase_timeout : performs { active .tpi with tpiFrames := List.replicate 3 0b111100000000#12, elapsed := [0x3E8#31, 50#31, 49#31, 1#31] } 0x02#8 [0x50#8, 0x03#8, 0x01#8, 0x00#8, 0x00#8, 0x40#8, 0x00#8]
    = some ([.tpiNvmCmd 0x10#8, .tpiWrite 0x00004000#32 0x00#8, .tpiBusy, .tpiBusy, .tpiBusy],
      [0x1B#8, 0x02#8, 0x00#8, 0x02#8, 0x0E#8, 0x50#8, 0x03#8, 0x46#8]) := by decide +kernel

/-- V-TPI-4. -/
theorem test_xprg_write_mem : performs { active .tpi with tpiFrames := List.replicate 2 0b110000000000#12, elapsed := [0#31, 0#31] } 0x03#8 [0x50#8, 0x04#8, 0x01#8, 0x00#8, 0x00#8, 0x00#8, 0x40#8, 0x00#8, 0x00#8, 0x03#8, 0x01#8, 0x02#8, 0x03#8]
    = some ([.tpiNvmCmd 0x1D#8, .tpiWrite 0x00004000#32 0x01#8, .tpiWrite 0x00004001#32 0x02#8, .tpiBusy, .tpiWrite 0x00004002#32 0x03#8, .tpiBusy],
      [0x1B#8, 0x03#8, 0x00#8, 0x02#8, 0x0E#8, 0x50#8, 0x00#8, 0x44#8]) := by decide +kernel

/-- V-TPI-8. -/
theorem test_xprg_write_mem_timeout : performs { active .tpi with tpiFrames := [0b110000000010#12], elapsed := [0#31, 100#31] } 0x03#8 [0x50#8, 0x04#8, 0x01#8, 0x00#8, 0x00#8, 0x00#8, 0x40#8, 0x00#8, 0x00#8, 0x04#8, 0x01#8, 0x02#8, 0x03#8, 0x04#8]
    = some ([.tpiNvmCmd 0x1D#8, .tpiWrite 0x00004000#32 0x01#8, .tpiWrite 0x00004001#32 0x02#8, .tpiBusy],
      [0x1B#8, 0x03#8, 0x00#8, 0x02#8, 0x0E#8, 0x50#8, 0x03#8, 0x47#8]) := by decide +kernel

/-- V-TPI-5; the frames by R105. -/
theorem test_xprg_read_mem : performs { active .tpi with tpiFrames := [0b110000111100#12, 0b110100100000#12, 0b110000000110#12] } 0x04#8 [0x50#8, 0x05#8, 0x01#8, 0x00#8, 0x00#8, 0x3F#8, 0xC0#8, 0x00#8, 0x03#8]
    = some ([.tpiRead 0x00003FC0#32, .tpiRead 0x00003FC1#32, .tpiRead 0x00003FC2#32],
      [0x1B#8, 0x04#8, 0x00#8, 0x05#8, 0x0E#8, 0x50#8, 0x00#8, 0x1E#8, 0x90#8, 0x03#8, 0xC9#8]) := by decide +kernel

/-- R145, V-DS-5's form. -/
theorem test_xprg_read_mem_in_isp : performs (active .isp) 0x01#8 [0x50#8, 0x05#8, 0x01#8, 0x00#8, 0x00#8, 0x3F#8, 0xC0#8, 0x00#8, 0x03#8]
    = some ([],
      [0x1B#8, 0x01#8, 0x00#8, 0x02#8, 0x0E#8, 0x50#8, 0x01#8, 0x47#8]) := by decide +kernel

/-- V-TPI-6. -/
theorem test_xprg_set_param : performs (active .tpi) 0x05#8 [0x50#8, 0x07#8, 0x01#8, 0x00#8, 0x40#8]
    = some ([],
      [0x1B#8, 0x05#8, 0x00#8, 0x02#8, 0x0E#8, 0x50#8, 0x00#8, 0x42#8]) := by decide +kernel

/-- V-FR-2, its last row: the seventh byte of a message completes the request. -/
theorem test_feed_byte_completes :
    (match step { State.reset with
        fs := .body, rx := [0x14#8], cks := 0x14#8, nread := 1#16, nwant := 2#16, len := 1#16, seq := 0x01#8,
        buf := [(0, 0x01#8)] } with
      | .next t => some (t.fs, t.cks, t.nread, t.feedResult)
      | .fault _ => none
      | .refused _ => none) = some (.complete, 0x00#8, 2#16, some (.command 0x01#8)) := by decide +kernel

/-- V-FR-8: a checksum error is answered in the normal layout, whatever the request. -/
theorem test_feed_byte_checksum_error :
    (match step { State.reset with
        fs := .body, rx := [0xBE#8], cks := 0xBF#8, nread := 2#16, nwant := 3#16, len := 2#16, seq := 0x07#8,
        buf := [(0, 0x50#8), (1, 0x01#8)] } with
      | .next t => some (t.fs, t.tx, t.buf)
      | .fault _ => none
      | .refused _ => none)
    = some (.idle, [0x1B#8, 0x07#8, 0x00#8, 0x01#8, 0x0E#8, 0xC1#8, 0xD2#8], [(0, 0xC1#8), (1, 0x01#8)]) := by
  decide +kernel

/-- V-PL-1: the deadline test across the rollover of the counter. -/
theorem test_expired :
    [0xFFFFFFF0#32, 0xFFFFFFFF#32, 0x0000000F#32, 0x00000010#32, 0x00000011#32].map (fun t => expired t 0x00000010#32)
      = [false, false, false, true, true] := by decide

/-! ### Witnesses: a state and operands that meet the hypotheses of each statement -/

/-- `DecodeOfEncode`: the most data a paged ISP write has room for. -/
theorem witness_DecodeOfEncode : Instr.wf (.programFlashIsp 0x00#8 0x00#8 (zeros 5) (zeros 265)) = true := by decide

/-- `DecodeAcceptsOnlyEncodings`: a request of the greatest length, and one of no bytes. -/
theorem witness_DecodeAcceptsOnlyEncodings :
    (0x50#8 :: 0x07#8 :: zeros 273).length ≤ 275 ∧
    decodeRequest 0x00#8 (0x50#8 :: 0x07#8 :: zeros 273) = .instr (.xprgSetParam (zeros 273)) ∧
    decodeRequest 0x21#8 [] = .instr (.leaveProgmodePp []) ∧ encode (.leaveProgmodePp []) = [0x21#8] := by decide

/-- `UnknownRequests`: codes at the edges of the maps, of a request and of the stale byte of a request of no bytes. -/
theorem witness_UnknownRequests :
    (0x01#8 ∉ opMapCodes ∧ 0x01#8 ≠ 0x50#8) ∧ (0x3D#8 ∉ opMapCodes ∧ 0x3D#8 ≠ 0x50#8) ∧ 0x06#8 ∉ xOpMapCodes ∧
    0x00#8 ∉ opMapCodes ∧ 0x02#8 ∈ opMapCodes ∧ 0x3C#8 ∈ opMapCodes ∧ 0x01#8 ∈ xOpMapCodes ∧ 0x07#8 ∈ xOpMapCodes ∧
    decodeRequest 0x00#8 [] = .unknown false ∧ decodeRequest 0x50#8 [] = .unknown false := by
  decide

/-- `ShortRequests`: requests at their least length and one byte below it, one of no bytes, and counts at and above what is
carried. -/
theorem witness_ShortRequests :
    (0x11#8 ∈ opMapCodes ∧ decodeRequest 0x11#8 [] = .shortRequest ∧ decodeRequest 0x30#8 [] = .shortRequest) ∧
    (0x06#8 ∈ opMapCodes ∧ decodeRequest 0x00#8 [0x06#8, 0#8, 0#8, 0#8] = .shortRequest ∧
      decodeRequest 0x00#8 [0x06#8, 0#8, 0#8, 0#8, 0#8] = .instr (.loadAddress 0x00000000#32)) ∧
    (0x03#8 ∈ xOpMapCodes ∧ decodeRequest 0x00#8 (0x50#8 :: 0x03#8 :: zeros 4) = .shortRequest) ∧
    (dataBase 0x23#8 = some 5 ∧ 5 ≤ [0#8, 0#8].length + 3 ∧
      decodeRequest 0x00#8 [0x23#8, 0x00#8, 0x01#8, 0#8, 0#8] = .countTooLarge ∧
      decodeRequest 0x00#8 [0x23#8, 0x00#8, 0x00#8, 0#8, 0#8] = .instr (.programFlashPp 0#8 0#8 [])) ∧
    decodeRequest 0x00#8 (0x50#8 :: 0x04#8 :: zeros 6 ++ [0x00#8, 0x01#8]) = .countTooLarge := by decide

/-- `FeedByteIdle`: the start marker and another byte. -/
theorem witness_FeedByteIdle :
    State.reset.fs = .idle ∧ ({ State.reset with rx := [0x1A#8] } : State).rx = [0x1A#8] ∧ 0x1A#8 ≠ 0x1B#8 ∧
    ({ State.reset with rx := [0x1B#8] } : State).rx = 0x1B#8 :: [] := by decide

/-- An engine in `Header` with `n` header bytes received and this length announced. -/
def inHeader (n : Half) (l : Half) (b : Byte) : State :=
  { State.reset with
    fs := .header, hdr := [0x1B#8, 0x01#8, hiByte l, loByte l, 0x00#8], nread := n, nwant := 5#16, rx := [b] }

/-- `FeedByteHeader`: the fourth byte; the fifth with a wrong token, with the least length too large, and with the greatest. -/
theorem witness_FeedByteHeader :
    (∀ s, s ∈ [inHeader 3#16 1#16 0x01#8, inHeader 4#16 1#16 0x0F#8, inHeader 4#16 276#16 0x0E#8, inHeader 4#16 275#16 0x0E#8] →
      s.fs = .header ∧ s.hdr.length = 5 ∧ s.nwant = 5#16 ∧ s.nread.toNat < 5) ∧
    (inHeader 3#16 1#16 0x01#8).nread.toNat < 4 ∧
    (inHeader 4#16 1#16 0x0F#8).nread.toNat = 4 ∧ 0x0F#8 ≠ 0x0E#8 ∧
    275 < ((inHeader 4#16 276#16 0x0E#8).hdr.getD 2 0#8 ++ (inHeader 4#16 276#16 0x0E#8).hdr.getD 3 0#8 : Half).toNat ∧
    ((inHeader 4#16 275#16 0x0E#8).hdr.getD 2 0#8 ++ (inHeader 4#16 275#16 0x0E#8).hdr.getD 3 0#8 : Half).toNat ≤ 275 := by
  decide

/-- An engine in `Body` with `n` of `l` body bytes received and this checksum. -/
def inBody (n l : Half) (c b : Byte) : State :=
  { State.reset with fs := .body, len := l, nwant := l + 1#16, nread := n, cks := c, rx := [b] }

/-- `FeedByteBody`: the last body byte of the longest body, and its checksum byte, right and wrong. -/
theorem witness_FeedByteBody :
    (∀ s, s ∈ [inBody 274#16 275#16 0x00#8 0x05#8, inBody 275#16 275#16 0x05#8 0x05#8, inBody 0#16 0#16 0x05#8 0x04#8] →
      s.fs = .body ∧ s.len.toNat ≤ 275 ∧ s.nwant = s.len + 1#16 ∧ s.nread.toNat ≤ s.len.toNat) ∧
    (inBody 274#16 275#16 0x00#8 0x05#8).nread.toNat < (inBody 274#16 275#16 0x00#8 0x05#8).len.toNat ∧
    (inBody 275#16 275#16 0x05#8 0x05#8).nread = (inBody 275#16 275#16 0x05#8 0x05#8).len ∧ 0x05#8 ^^^ 0x05#8 = 0x00#8 ∧
    (inBody 0#16 0#16 0x05#8 0x04#8).nread = (inBody 0#16 0#16 0x05#8 0x04#8).len ∧ 0x05#8 ^^^ 0x04#8 ≠ 0x00#8 := by decide

/-- `HeaderErrorChangesOnly`: a byte that is no start marker, and a wrong token. -/
theorem witness_HeaderErrorChangesOnly :
    (∃ t, feedByte { State.reset with rx := [0x1A#8] } = .next t ∧ t.feedResult = some .headerError) ∧
    (∃ t, feedByte (inHeader 4#16 1#16 0x0F#8) = .next t ∧ t.feedResult = some .headerError) :=
  ⟨⟨_, rfl, rfl⟩, _, rfl, rfl⟩

/-- `ChecksumErrorChangesOnly`: a wrong checksum byte of an empty body. -/
theorem witness_ChecksumErrorChangesOnly :
    FramerInv (inBody 0#16 0#16 0x05#8 0x04#8) ∧
    (∃ t, feedByte (inBody 0#16 0#16 0x05#8 0x04#8) = .next t ∧ t.feedResult = some .checksumError) := by
  unfold FramerInv
  exact ⟨by decide, _, rfl, rfl⟩

/-- `FeedByteWaits`: an empty port, and a request held. -/
theorem witness_FeedByteWaits :
    (State.reset.fs ≠ .complete ∧ State.reset.rx = []) ∧ (holding State.reset 0x01#8 []).fs = .complete := by decide

/-- `MessageRoundTrip`: the longest body and the shortest. -/
theorem witness_MessageRoundTrip :
    (∀ body, body ∈ [zeros 275, []] →
      let s := { State.reset with rx := encodeMessage 0x01#8 body ++ [0x55#8] }
      s.fs = .idle ∧ s.faultMark = none ∧ s.calls = [] ∧ s.hdr.length = 5 ∧ body.length ≤ 275 ∧
      s.rx = encodeMessage 0x01#8 body ++ [0x55#8]) := by decide +kernel

/-- `CorruptionDetected`: a changed sequence, body and checksum byte; a changed start byte; a changed token; a length byte that makes
the length 276, and one that makes it 275. -/
theorem witness_CorruptionDetected :
    (∀ c : Nat × Byte, c ∈ [(1, 0x02#8), (5, 0x01#8), (279, 0x01#8), (0, 0x1A#8), (4, 0x0F#8), (3, 0x14#8), (3, 0x13#8)] →
      let s := { State.reset with rx := (encodeMessage 0x01#8 (zeros 274)).set c.1 c.2 ++ [] }
      s.fs = .idle ∧ s.faultMark = none ∧ s.calls = [] ∧ s.hdr.length = 5 ∧ (zeros 274).length ≤ 275 ∧
      c.1 < (zeros 274).length + 6 ∧ (encodeMessage 0x01#8 (zeros 274))[c.1]? ≠ some c.2) ∧
    275 < (hiByte (countOf (zeros 274)) ++ 0x14#8 : Half).toNat ∧
    (hiByte (countOf (zeros 274)) ++ 0x13#8 : Half).toNat ≤ 275 := by decide +kernel

/-- `SendResponseEmits`: the greatest length that fits and the next one. -/
theorem witness_SendResponseEmits : (275#16 : Half).toNat ≤ 275 ∧ 275 < (276#16 : Half).toNat := by decide

/-- `SendXprogResponseEmits`: the least length, the greatest that fits and the next one. -/
theorem witness_SendXprogResponseEmits :
    (0#16 : Half).toNat ≤ 275 ∧ (275#16 : Half).toNat ≤ 275 ∧ 275 < (276#16 : Half).toNat := by decide

/-- `MessagesXorToZero`: both response operations answer. -/
theorem witness_MessagesXorToZero :
    isNext (sendResponse 0x00#8 275#16 State.reset) = true ∧ isNext (sendXprogResponse 0x00#8 275#16 State.reset) = true := by
  decide +kernel

/-- The request a state holds, from its buffer and its length. -/
def request (s : State) : Decoded := decodeRequest (s.bodyByte 0) (s.bodyFrom 0 s.len.toNat)

/-- `StepRunsDecodedRequest`: a command, a short request and a count too large. -/
theorem witness_StepRunsDecodedRequest :
    (∀ body, body ∈ [[0x21#8], [0x06#8], [0x23#8, 0x00#8, 0x01#8, 0#8, 0#8]] →
      (holding State.reset 0x01#8 body).faultMark = none ∧ (holding State.reset 0x01#8 body).calls = [] ∧
      (holding State.reset 0x01#8 body).fs = .complete) ∧
    request (holding State.reset 0x01#8 [0x21#8]) = .instr (.leaveProgmodePp []) ∧
    request (holding State.reset 0x01#8 [0x06#8]) = .shortRequest ∧
    request (holding State.reset 0x01#8 [0x23#8, 0x00#8, 0x01#8, 0#8, 0#8]) = .countTooLarge := by decide +kernel

/-- The engine with port operations asked for. -/
def calling (s : State) (cs : List PortCall) : State := { s with calls := cs }

/-- `StepOtherwise`: each of its clauses. -/
theorem witness_StepOtherwise :
    (State.reset.raise .shortRequest).faultMark = some .shortRequest ∧
    ((calling State.reset [.feedByte]).faultMark = none ∧ (calling State.reset [.feedByte]).calls = .feedByte :: []) ∧
    (calling State.reset [.sendResponse 0x00#8 1#16]).calls = .sendResponse 0x00#8 1#16 :: [] ∧
    (calling State.reset [.sendXprogResponse 0x00#8 2#16]).calls = .sendXprogResponse 0x00#8 2#16 :: [] ∧
    (State.reset.faultMark = none ∧ State.reset.calls = [] ∧ State.reset.fs ≠ .complete) := by decide

/-- `UnknownRequestAnswered`: an unknown request of each form. -/
theorem witness_UnknownRequestAnswered :
    request (holding State.reset 0x01#8 [0x01#8]) = .unknown false ∧
    request (holding State.reset 0x01#8 [0x50#8]) = .unknown true ∧
    (holding State.reset 0x01#8 [0x50#8]).faultMark = none ∧ (holding State.reset 0x01#8 [0x50#8]).calls = [] ∧
    (holding State.reset 0x01#8 [0x50#8]).fs = .complete := by decide +kernel

/-- `MessageThenOperation`: the message of a command with the most data. -/
theorem witness_MessageThenOperation :
    let i : Instr := .programEepromIsp 0x80#8 0x0A#8 (zeros 5) (zeros 265)
    let s := { State.reset with rx := encodeMessage 0x01#8 (encode i) ++ [0x1B#8] }
    s.fs = .idle ∧ s.faultMark = none ∧ s.calls = [] ∧ s.hdr.length = 5 ∧ i.wf = true ∧
    s.rx = encodeMessage 0x01#8 (encode i) ++ [0x1B#8] := by decide +kernel

/-- `OneResponsePerRequest`: a request whose response is called, one that a timeout answers, and the two ends with the most data
that a response has room for. -/
theorem witness_OneResponsePerRequest :
    (∀ s, s ∈ [holding State.reset 0x01#8 [0x06#8, 0x00#8, 0x00#8, 0x01#8, 0x00#8],
        holding { active .hvsp with hvReadies := [false], elapsed := [0#31, 5#31] } 0x02#8 [0x39#8, 0x00#8, 0xFC#8, 0x05#8]] →
      s.faultMark = none ∧ s.calls = [] ∧ s.fs = .complete ∧ isNext (step s) = true) ∧
    (∃ t, Answered State.reset t Config.stOk (zeros 274) ∧ (zeros 274).length ≤ 274 ∧ t.faultMark = none ∧
      State.reset.calls = [] ∧ t.seq = State.reset.seq) ∧
    (∃ t, AnsweredX State.reset t Config.xstOk (zeros 273) ∧ (zeros 273).length ≤ 273 ∧ t.faultMark = none ∧
      State.reset.calls = [] ∧ t.seq = State.reset.seq) := by
  obtain ⟨_, _, _, _, -, he, -⟩ := respond_ends (doneData (zeros 274) State.reset) (by decide)
  obtain ⟨_, _, _, _, -, hx, -⟩ := respondX_ends (doneData (zeros 273) State.reset) (by decide)
  exact ⟨by decide +kernel, ⟨_, he, by decide, rfl, rfl, rfl⟩, _, hx, by decide, rfl, rfl, rfl⟩

/-- `StepKeepsInvariant`: the reset state, and its step. -/
theorem witness_StepKeepsInvariant : Inv State.reset ∧ isNext (step State.reset) = true := by
  refine ⟨?_, by decide +kernel⟩
  unfold Machine.Inv FramerInv SessionInv
  decide

/-- `StepKeepsChecksum`: an engine in `Header` after the start marker. -/
theorem witness_StepKeepsChecksum :
    let s := { inHeader 1#16 1#16 0x01#8 with cks := 0x1B#8 }
    Inv s ∧ ChecksumInv s ∧ isNext (step s) = true := by
  unfold Machine.Inv FramerInv SessionInv ChecksumInv
  decide +kernel

/-- `StreamsOnlyGrow`: a step that takes a byte, and one that sends a response. -/
theorem witness_StreamsOnlyGrow :
    isNext (step { State.reset with rx := [0x1B#8] }) = true ∧ isNext (step (holding State.reset 0x01#8 [0x21#8])) = true := by
  decide +kernel

/-- `SessionRegisterWriters`: commands that answer. -/
theorem witness_SessionRegisterWriters :
    isNext (exec (.setParameter 0x98#8 0x03#8) (active .isp)) = true ∧
    isNext (exec (.setControlStack (zeros 32)) (active .isp)) = true ∧
    isNext (exec (.loadAddress 0xFFFFFFFF#32) (active .tpi)) = true := by decide +kernel

/-- `PreviousPageInvalidated`: a command that is no paged read, and a paged read of a family without the cache. -/
theorem witness_PreviousPageInvalidated :
    isNext (exec (.leaveProgmodePp []) (active .hvpp)) = true ∧ isPagedRead (.leaveProgmodePp []) = false ∧
    isNext (exec (.readEepromIsp 0x0112#16 none) (active .isp)) = true ∧ isPagedRead (.readEepromIsp 0x0112#16 none) = true ∧
    ¬ HvActive (active .isp) := by
  unfold HvActive
  decide +kernel

/-- `CommandsComplete`: an operand with no meaning, and the operands at the edges that have one. -/
theorem witness_CommandsComplete :
    operandFault (.readLockIsp 0x00#8 default) = some .ispReturnIndex ∧
    operandFault (.readLockIsp 0x01#8 default) = none ∧ operandFault (.readLockIsp 0x04#8 default) = none ∧
    operandFault (.readLockIsp 0x05#8 default) = some .ispReturnIndex ∧
    operandFault (.xprgReadMem 0x01#8 0x00000000#32 0x0111#16) = none ∧
    operandFault (.xprgReadMem 0x01#8 0x00000000#32 0x0112#16) = some .countTooLarge := by decide

/-- `FaultsHaveCauses`: a state with the invariant for each cause. -/
theorem witness_FaultsHaveCauses :
    (∀ s, s ∈ [calling (holding State.reset 0x01#8 []) [.feedByte], calling State.reset [.sendResponse 0x00#8 276#16],
        calling State.reset [.sendXprogResponse 0x00#8 276#16], holding State.reset 0x01#8 [0x06#8],
        holding State.reset 0x01#8 [0x23#8, 0x00#8, 0x01#8, 0#8, 0#8], holding State.reset 0x01#8 [0x24#8, 0x00#8, 0x01#8]] →
      Inv s ∧ s.faultMark = none ∧ (faultOf (step s)).isSome = true) := by
  unfold Machine.Inv FramerInv SessionInv
  decide +kernel

/-- `SetParameterResult`: the supported id and another. -/
theorem witness_SetParameterResult : 0x98#8 = Config.paramClock ∧ 0x99#8 ≠ Config.paramClock := by decide

/-- `SetControlStackResult`: a stack of 32 bytes. -/
theorem witness_SetControlStackResult : (zeros 32).length = 32 := by decide

/-- `EnterIspResult`: the first rung matching, the last one matching, none matching, and the indices at the edges. -/
theorem witness_EnterIspResult :
    (1 ≤ (0x01#8).toNat ∧ (0x04#8).toNat ≤ 4 ∧ ¬ (1 ≤ (0x00#8).toNat ∧ (0x00#8).toNat ≤ 4) ∧
      ¬ (1 ≤ (0x05#8).toNat ∧ (0x05#8).toNat ≤ 4)) ∧
    ({ active .isp with ispAnswers := lastBytes [0x53#8] } : State).ispAnswers[0]? = some ⟨0#8, 0#8, 0#8, 0x53#8⟩ ∧
    quadSelect ⟨0#8, 0#8, 0#8, 0x53#8⟩ 0x04#8 = some 0x53#8 ∧
    ({ active .isp with ispAnswers := lastBytes [0#8, 0#8, 0#8, 0x53#8] } : State).ispAnswers[3]?
      = some ⟨0#8, 0#8, 0#8, 0x53#8⟩ ∧
    (∀ j, j < 4 → ∃ q, ({ active .isp with ispAnswers := lastBytes (zeros 4) } : State).ispAnswers[j]? = some q ∧
      quadSelect q 0x04#8 ≠ some 0x53#8) := by
  refine ⟨by decide, rfl, rfl, rfl, fun j hj => ⟨⟨0#8, 0#8, 0#8, 0#8⟩, ?_, by decide⟩⟩
  match j, hj with
  | 0, _ => rfl
  | 1, _ => rfl
  | 2, _ => rfl
  | 3, _ => rfl

/-- `XEnterResult`: the expected identity, another byte, and a wrong parity. -/
theorem witness_XEnterResult :
    ({ State.reset with tpiFrames := [tpiFrame 0x80#8] } : State).tpiFrames.head? = some (tpiFrame 0x80#8) ∧
    tpiDecode (tpiFrame 0x80#8) = .byte 0x80#8 ∧ tpiDecode (tpiFrame 0x81#8) ≠ .byte 0x80#8 ∧
    tpiDecode 0b110100000000#12 ≠ .byte 0x80#8 := by decide

/-- `LeaveResult`: the three codes, in each family that has them. -/
theorem witness_LeaveResult :
    (∀ i, i ∈ [Instr.leaveProgmodeIsp [], .leaveProgmodePp (zeros 2), .leaveProgmodeHvsp [0x00#8]] → isLeave i = true) ∧
    (active .isp).activeFamily ≠ .tpi ∧ (active .hvsp).activeFamily ≠ .tpi ∧ (active .hvpp).activeFamily ≠ .tpi := by
  refine ⟨fun i hi => ?_, by decide, by decide, by decide⟩
  simp only [List.mem_cons, List.not_mem_nil, or_false] at hi
  rcases hi with rfl | rfl | rfl <;> rfl

/-- `XLeaveAndXSetParamResult`: TPI is active. -/
theorem witness_XLeaveAndXSetParamResult : (active .tpi).activeFamily = .tpi := rfl

/-- Inputs for a poll: busy samples and then a ready one, with a reading of the counter before each. -/
def polling (f : Family) (busy : Nat) : State :=
  { active f with
    ispAnswers := lastBytes (zeros 1 ++ List.replicate busy 0x01#8 ++ zeros 1),
    hvReadies := List.replicate busy false ++ [true],
    tpiFrames := List.replicate busy (tpiFrame 0x80#8) ++ [tpiFrame 0x00#8],
    elapsed := List.replicate (busy + 1) 1#31 }

/-- `IspChipEraseResult`: ready at once with timeout 0, ready after a busy sample, and a timeout at the first sample. -/
theorem witness_IspChipEraseResult :
    (polling .isp 1).activeFamily = .isp ∧
    PollEnds ((polling .isp 0).ispAnswers.tail.map ispReadyBit) (polling .isp 0).elapsed (0x00#8 : Byte).toNat true 1 ∧
    PollEnds ((polling .isp 1).ispAnswers.tail.map ispReadyBit) (polling .isp 1).elapsed (0x02#8 : Byte).toNat true 2 ∧
    PollEnds ((polling .isp 1).ispAnswers.tail.map ispReadyBit) (polling .isp 1).elapsed (0x00#8 : Byte).toNat false 1 := by
  unfold PollEnds
  decide +kernel

/-- `IspProgramFlashResult`: the three commands, two of them with the commit flag and a poll after the answers of the units. -/
theorem witness_IspProgramFlashResult :
    let s := { active .isp with ispAnswers := lastBytes (zeros 4), elapsed := [0#31] }
    s.activeFamily = .isp ∧
    (pagedWriteOf (.programFlashIsp 0x80#8 0x00#8 (zeros 5) (zeros 2)) = some (.flash, 0x80#8, 0x00#8, zeros 2) ∧
      (zeros 2).length % 2 = 0 ∧ (0x80#8).getLsbD 7 = true ∧
      PollEnds ((s.ispAnswers.drop (ispFlashAnswers ((zeros 2).length / 2) s.currentAddress + 1)).map ispReadyBit) s.elapsed
        (0x00#8 : Byte).toNat true 1) ∧
    (pagedWriteOf (.programFlashHvsp 0xFF#8 0x00#8 []) = some (.flash, 0xFF#8, 0x00#8, []) ∧ (0xFF#8).getLsbD 7 = true ∧
      PollEnds ((s.ispAnswers.drop (ispFlashAnswers 0 s.currentAddress + 1)).map ispReadyBit) s.elapsed
        (0x00#8 : Byte).toNat true 1) ∧
    (pagedWriteOf (.programFlashPp 0x7F#8 0xFF#8 (zeros 270)) = some (.flash, 0x7F#8, 0xFF#8, zeros 270) ∧
      (zeros 270).length % 2 = 0 ∧ (0x7F#8).getLsbD 7 = false) := by
  unfold PollEnds
  refine ⟨?_, ?_, ?_, ?_⟩ <;> decide +kernel

/-- `IspProgramEepromResult`: the three commands, one of them with the commit flag and a poll after the answers of the units. -/
theorem witness_IspProgramEepromResult :
    let s := { active .isp with ispAnswers := lastBytes (zeros 4), elapsed := [0#31] }
    s.activeFamily = .isp ∧
    (pagedWriteOf (.programEepromIsp 0x80#8 0x00#8 (zeros 5) (zeros 1)) = some (.eeprom, 0x80#8, 0x00#8, zeros 1) ∧
      (0x80#8).getLsbD 7 = true ∧
      PollEnds ((s.ispAnswers.drop ((zeros 1).length + 1)).map ispReadyBit) s.elapsed (0x00#8 : Byte).toNat true 1) ∧
    (pagedWriteOf (.programEepromPp 0x7F#8 0xFF#8 []) = some (.eeprom, 0x7F#8, 0xFF#8, []) ∧ (0x7F#8).getLsbD 7 = false) ∧
    pagedWriteOf (.programEepromHvsp 0x00#8 0x00#8 (zeros 270)) = some (.eeprom, 0x00#8, 0x00#8, zeros 270) := by
  unfold PollEnds
  refine ⟨?_, ?_, ?_, ?_⟩ <;> decide +kernel

/-- `IspReadFlashResult`: the three commands with the counts at the edges, and an answer in the place of each byte of a word. -/
theorem witness_IspReadFlashResult :
    let s := { active .isp with currentAddress := 0x80000000#32, ispAnswers := lastBytes [0#8, 0x0C#8, 0x94#8] }
    s.activeFamily = .isp ∧
    (pagedReadOf (.readFlashIsp 274#16 none) = some (.flash, 274#16) ∧ (274#16 : Half).toNat ≤ 274 ∧
      (274#16 : Half).toNat % 2 = 0) ∧
    (pagedReadOf (.readFlashPp 0#16) = some (.flash, 0#16) ∧ (0#16 : Half).toNat % 2 = 0) ∧
    (pagedReadOf (.readFlashHvsp 2#16) = some (.flash, 2#16) ∧ (2#16 : Half).toNat ≤ 274 ∧ (2#16 : Half).toNat % 2 = 0) ∧
    (ispFlashPlaces 1 s.currentAddress 0)[0]? = some 1 ∧ s.ispAnswers[1]? = some ⟨0#8, 0#8, 0#8, 0x0C#8⟩ ∧
    (ispFlashPlaces 1 s.currentAddress 0)[1]? = some 2 ∧ s.ispAnswers[2]? = some ⟨0#8, 0#8, 0#8, 0x94#8⟩ := by
  decide +kernel

/-- `IspReadEepromResult`: the three commands with the counts at the edges, and an answer. -/
theorem witness_IspReadEepromResult :
    (active .isp).activeFamily = .isp ∧
    (pagedReadOf (.readEepromIsp 274#16 (some 0xA0#8)) = some (.eeprom, 274#16) ∧ (274#16 : Half).toNat ≤ 274) ∧
    pagedReadOf (.readEepromPp 0#16) = some (.eeprom, 0#16) ∧ pagedReadOf (.readEepromHvsp 1#16) = some (.eeprom, 1#16) ∧
    ({ active .isp with ispAnswers := lastBytes [0xFF#8] } : State).ispAnswers[0]? = some ⟨0#8, 0#8, 0#8, 0xFF#8⟩ := by
  decide +kernel

/-- `IspWriteConfigResult`: both commands. -/
theorem witness_IspWriteConfigResult :
    (active .isp).activeFamily = .isp ∧ ispConfigWriteOf (.programFuseIsp default) = some default ∧
    ispConfigWriteOf (.programLockIsp default) = some default := by decide

/-- `IspReadConfigResult`: the four commands, with the indices at the edges. -/
theorem witness_IspReadConfigResult :
    (active .isp).activeFamily = .isp ∧
    (ispConfigReadOf (.readFuseIsp 0x01#8 default) = some (0x01#8, default) ∧ 1 ≤ (0x01#8).toNat ∧ (0x01#8).toNat ≤ 4) ∧
    (ispConfigReadOf (.readLockIsp 0x04#8 default) = some (0x04#8, default) ∧ 1 ≤ (0x04#8).toNat ∧ (0x04#8).toNat ≤ 4) ∧
    (ispConfigReadOf (.readSignatureIsp 0x05#8 default) = some (0x05#8, default) ∧
      ¬ (1 ≤ (0x05#8).toNat ∧ (0x05#8).toNat ≤ 4)) ∧
    (ispConfigReadOf (.readOsccalIsp 0x00#8 default) = some (0x00#8, default) ∧
      ¬ (1 ≤ (0x00#8).toNat ∧ (0x00#8).toNat ≤ 4)) := by decide

/-- `HvChipEraseResult`: the three commands; ready at once, ready after a busy sample, and a timeout at the third sample. -/
theorem witness_HvChipEraseResult :
    (HvActive (polling .hvsp 0) ∧ HvActive (polling .hvpp 3)) ∧
    (chipEraseTimeoutOf (.chipEraseIsp 0x00#8 0x01#8 default) = some 0x00#8 ∧
      PollEnds (polling .hvsp 0).hvReadies (polling .hvsp 0).elapsed (0x00#8 : Byte).toNat true 1) ∧
    (chipEraseTimeoutOf (.chipErasePp 0x00#8 0xFF#8) = some 0xFF#8 ∧
      PollEnds (polling .hvpp 1).hvReadies (polling .hvpp 1).elapsed (0xFF#8 : Byte).toNat true 2) ∧
    (chipEraseTimeoutOf (.chipEraseHvsp 0x03#8 none) = some 0x03#8 ∧
      PollEnds (polling .hvpp 3).hvReadies (polling .hvpp 3).elapsed (0x03#8 : Byte).toNat false 3) := by
  unfold PollEnds HvActive
  refine ⟨?_, ?_, ?_, ?_⟩ <;> decide +kernel

/-- `HvProgramFlashResult`: the three commands, two of them with the commit flag and a poll. -/
theorem witness_HvProgramFlashResult :
    (HvActive (polling .hvsp 0) ∧ HvActive (polling .hvpp 1)) ∧
    (pagedWriteOf (.programFlashIsp 0x80#8 0x00#8 (zeros 5) (zeros 264)) = some (.flash, 0x80#8, 0x00#8, zeros 264) ∧
      (zeros 264).length % 2 = 0 ∧ (0x80#8).getLsbD 7 = true ∧
      PollEnds (polling .hvsp 0).hvReadies (polling .hvsp 0).elapsed (0x00#8 : Byte).toNat true 1) ∧
    (pagedWriteOf (.programFlashPp 0xFF#8 0x01#8 []) = some (.flash, 0xFF#8, 0x01#8, []) ∧ (0xFF#8).getLsbD 7 = true ∧
      PollEnds (polling .hvpp 1).hvReadies (polling .hvpp 1).elapsed (0x01#8 : Byte).toNat false 1) ∧
    (pagedWriteOf (.programFlashHvsp 0x7F#8 0x00#8 (zeros 270)) = some (.flash, 0x7F#8, 0x00#8, zeros 270) ∧
      (zeros 270).length % 2 = 0 ∧ (0x7F#8).getLsbD 7 = false) := by
  unfold PollEnds HvActive
  refine ⟨?_, ?_, ?_, ?_⟩ <;> decide +kernel

/-- `HvProgramEepromResult`: the three commands, one of them with the commit flag and a poll. -/
theorem witness_HvProgramEepromResult :
    HvActive (polling .hvpp 0) ∧
    (pagedWriteOf (.programEepromPp 0x80#8 0x00#8 (zeros 1)) = some (.eeprom, 0x80#8, 0x00#8, zeros 1) ∧
      (0x80#8).getLsbD 7 = true ∧ PollEnds (polling .hvpp 0).hvReadies (polling .hvpp 0).elapsed (0x00#8 : Byte).toNat true 1) ∧
    (pagedWriteOf (.programEepromIsp 0x7F#8 0xFF#8 (zeros 5) []) = some (.eeprom, 0x7F#8, 0xFF#8, []) ∧
      (0x7F#8).getLsbD 7 = false) ∧
    pagedWriteOf (.programEepromHvsp 0x00#8 0x00#8 (zeros 270)) = some (.eeprom, 0x00#8, 0x00#8, zeros 270) := by
  unfold PollEnds HvActive
  refine ⟨?_, ?_, ?_, ?_⟩ <;> decide +kernel

/-- `HvReadFlashResult`: the three commands with the counts at the edges, and a byte the target returns. -/
theorem witness_HvReadFlashResult :
    HvActive (active .hvsp) ∧
    (pagedReadOf (.readFlashIsp 274#16 none) = some (.flash, 274#16) ∧ (274#16 : Half).toNat ≤ 274 ∧
      (274#16 : Half).toNat % 2 = 0) ∧
    (pagedReadOf (.readFlashPp 0#16) = some (.flash, 0#16) ∧ (0#16 : Half).toNat % 2 = 0) ∧
    (pagedReadOf (.readFlashHvsp 2#16) = some (.flash, 2#16) ∧ (2#16 : Half).toNat % 2 = 0) ∧
    ({ active .hvsp with hvBytes := [0x01#8, 0x02#8] } : State).hvBytes[1]? = some 0x02#8 := by
  unfold HvActive
  decide +kernel

/-- `HvReadEepromResult`: the three commands with the counts at the edges, and a byte the target returns. -/
theorem witness_HvReadEepromResult :
    HvActive (active .hvpp) ∧
    (pagedReadOf (.readEepromIsp 274#16 (some 0xA0#8)) = some (.eeprom, 274#16) ∧ (274#16 : Half).toNat ≤ 274) ∧
    pagedReadOf (.readEepromPp 0#16) = some (.eeprom, 0#16) ∧ pagedReadOf (.readEepromHvsp 1#16) = some (.eeprom, 1#16) ∧
    ({ active .hvpp with hvBytes := [0x5A#8] } : State).hvBytes[0]? = some 0x5A#8 := by
  unfold HvActive
  decide +kernel

/-- `HvWriteConfigResult`: the four commands, with the fuse indices at the edges, and a poll of each outcome. -/
theorem witness_HvWriteConfigResult :
    (HvActive (polling .hvpp 0) ∧ HvActive (polling .hvsp 5)) ∧
    (hvFuseWriteOf (.programFusePp 0x02#8 0xDF#8 0x00#8 0x0A#8) = some (0x02#8, 0xDF#8, 0x0A#8) ∧ (0x02#8).toNat ≤ 2 ∧
      PollEnds (polling .hvpp 0).hvReadies (polling .hvpp 0).elapsed (0x0A#8 : Byte).toNat true 1) ∧
    (hvFuseWriteOf (.programFuseHvsp 0x03#8 0xDF#8 0x0A#8) = some (0x03#8, 0xDF#8, 0x0A#8) ∧ 2 < (0x03#8).toNat) ∧
    (hvLockWriteOf (.programLockPp 0x00#8 0xFC#8 0x00#8 0x05#8) = some (0xFC#8, 0x05#8) ∧
      PollEnds (polling .hvsp 5).hvReadies (polling .hvsp 5).elapsed (0x05#8 : Byte).toNat false 5) ∧
    hvLockWriteOf (.programLockHvsp 0x00#8 0xFC#8 0x05#8) = some (0xFC#8, 0x05#8) := by
  unfold PollEnds HvActive
  refine ⟨?_, ?_, ?_, ?_, ?_⟩ <;> decide +kernel

/-- `HvReadConfigResult`: the commands in each layout, with the fuse indices at the edges. -/
theorem witness_HvReadConfigResult :
    (HvActive (active .hvsp) ∧ HvActive (active .hvpp)) ∧
    (hvFuseReadOf (.readFusePp 0x02#8) = some 0x02#8 ∧ hvFuseReadOf (.readFuseHvsp 0x03#8) = some 0x03#8 ∧
      hvFuseReadOf (.readFuseHvsp 0x00#8) = some 0x00#8 ∧ hvFuseReadOf (.readFusePp 0x01#8) = some 0x01#8 ∧ 2 < (0x03#8).toNat) ∧
    (isLockRead (.readLockIsp 0x04#8 default) = true ∧ operandFault (.readLockIsp 0x04#8 default) = none ∧
      isLockRead (.readLockPp 0x00#8) = true ∧ operandFault (.readLockPp 0x00#8) = none ∧
      isLockRead (.readLockHvsp 0xFF#8) = true ∧ operandFault (.readLockHvsp 0xFF#8) = none) ∧
    (hvSignatureReadOf (.readSignaturePp 0x01#8) = some 0x01#8 ∧ hvSignatureReadOf (.readSignatureHvsp 0x02#8) = some 0x02#8) ∧
    (hvOsccalReadOf (.readOsccalPp 0x00#8) = some 0x00#8 ∧ hvOsccalReadOf (.readOsccalHvsp 0x01#8) = some 0x01#8) ∧
    ({ active .hvpp with hvBytes := [0xFF#8] } : State).hvBytes.head? = some 0xFF#8 := by
  unfold HvActive
  decide

/-- `XEraseResult`: ready at once, and a timeout at the hundredth sample. -/
theorem witness_XEraseResult :
    (polling .tpi 0).activeFamily = .tpi ∧
    PollEnds ((polling .tpi 0).tpiFrames.map tpiReadyBit) (polling .tpi 0).elapsed Config.tpiTimeout.toNat true 1 ∧
    PollEnds ((polling .tpi 100).tpiFrames.map tpiReadyBit) (polling .tpi 100).elapsed Config.tpiTimeout.toNat false 100 := by
  unfold PollEnds
  decide +kernel

/-- `XWriteMemResult`: two polls that end ready; and a timeout at the first poll and after one that ends ready. -/
theorem witness_XWriteMemResult :
    (active .tpi).activeFamily = .tpi ∧
    (PollsReady ((List.replicate 2 (tpiFrame 0x00#8)).map tpiReadyBit) [0#31, 0#31] Config.tpiTimeout.toNat [1, 1] ∧
      [1, 1].length = ([0x01#8, 0x02#8, 0x03#8].length + 1) / 2) ∧
    (PollsReady ([tpiFrame 0x80#8].map tpiReadyBit) [0#31, 100#31] Config.tpiTimeout.toNat [] ∧
      ([] : List Nat).length < ([0x01#8].length + 1) / 2 ∧
      PollEnds ((([tpiFrame 0x80#8]).drop 0).map tpiReadyBit) ([0#31, 100#31].drop 0) Config.tpiTimeout.toNat false 1) ∧
    (PollsReady ([tpiFrame 0x00#8, tpiFrame 0x80#8].map tpiReadyBit) [0#31, 0#31, 100#31] Config.tpiTimeout.toNat [1] ∧
      [1].length < ([0x01#8, 0x02#8, 0x03#8].length + 1) / 2 ∧
      PollEnds ((([tpiFrame 0x00#8, tpiFrame 0x80#8]).drop 1).map tpiReadyBit) ([0#31, 0#31, 100#31].drop 1)
        Config.tpiTimeout.toNat false 1) := by
  unfold PollsReady PollsReady PollsReady PollEnds
  refine ⟨?_, ?_, ?_, ?_⟩ <;> decide +kernel

/-- `XReadMemResult`: the greatest count, with a frame that holds a byte. -/
theorem witness_XReadMemResult :
    (active .tpi).activeFamily = .tpi ∧ (273#16 : Half).toNat ≤ 273 ∧ tpiDecode (tpiFrame 0x1E#8) = .byte 0x1E#8 := by decide

/-- `TpiFrames`: a byte that agrees with the data slots of a frame. -/
theorem witness_TpiFrames : ∀ k, k < 8 → (0x80#8).getLsbD k = (0b110100000000#12 : Frame).getLsbD (k + 1) := by decide

/-- `FamilyLacksOperation`: a normal driver command under TPI, and an XPROG one under each other family. -/
theorem witness_FamilyLacksOperation :
    operandFault (.readFlashIsp 274#16 none) = none ∧ isNormalDriver (.readFlashIsp 274#16 none) = true ∧
    (active .tpi).activeFamily = .tpi ∧ operandFault .xprgLeaveProgmode = none ∧ isXprogDriver .xprgLeaveProgmode = true ∧
    (active .isp).activeFamily ≠ .tpi ∧ (active .hvpp).activeFamily ≠ .tpi := by decide

/-- `LayoutMismatchFails`: a mismatch in each family that has one. -/
theorem witness_LayoutMismatchFails :
    (layoutMismatch (active .isp).activeFamily (.chipErasePp 0x00#8 0x0A#8) = true ∧
      operandFault (.chipErasePp 0x00#8 0x0A#8) = none) ∧
    (layoutMismatch (active .hvsp).activeFamily (.readFuseIsp 0x04#8 default) = true ∧
      operandFault (.readFuseIsp 0x04#8 default) = none) ∧
    layoutMismatch (active .hvpp).activeFamily (.programLockIsp default) = true := by decide

/-- `PagedAddressSteps`: a paged command that answers, in an ISP and an HV family. -/
theorem witness_PagedAddressSteps :
    pagedOf (.programFlashIsp 0x00#8 0x00#8 (zeros 5) (zeros 4)) = some (.flash, 4) ∧
    isNext (exec (.programFlashIsp 0x00#8 0x00#8 (zeros 5) (zeros 4)) (active .isp)) = true ∧
    pagedOf (.readEepromHvsp 3#16) = some (.eeprom, 3) ∧ isNext (exec (.readEepromHvsp 3#16) (active .hvpp)) = true ∧
    (active .isp).activeFamily ≠ .tpi := by decide +kernel

end Sys2Proof.Tests
end

section
/-! Messages and their checksum (30_encoding.md R71, R73; 40_framing.md R122 to R125): what the last byte of a message is, what a
whole message gives, and that a response operation that answers appends one message. -/

namespace Sys2Proof.Machine

/-- The checksum stands last, and it is the exclusive or of the bytes it follows (R73). -/
theorem getLast?_encodeMessage (seq : Byte) (body : List Byte) :
    (encodeMessage seq body).getLast? = some (xorAll 0x00#8 (encodeMessage seq body).dropLast) := by
  rw [encodeMessage, List.getLast?_concat, List.dropLast_concat]

/-- At the end of a message its checksum meets itself: the running exclusive or of the head equals the byte that follows (R73). -/
theorem xorAll_encodeMessage (seq : Byte) (body : List Byte) : xorAll 0x00#8 (encodeMessage seq body) = 0x00#8 := by
  rw [encodeMessage, xorAll_append, xorAll_cons, xorAll_nil, BitVec.xor_self]

/-- A response operation that answers had a length that fits, and it transmits one message whose body is of that length, wherever
it puts the status (R122, R124, R125). -/
theorem response_appends_message {status : Byte} {n : Half} {s t : State}
    (h : sendResponse status n s = .next t ∨ sendXprogResponse status n s = .next t) :
    ∃ body, body.length = n.toNat ∧ t.tx = s.tx ++ encodeMessage s.seq body := by
  by_cases hn : n.toNat ≤ Config.bodyMax
  · rw [sendResponse_next _ _ _ hn, sendXprogResponse_next _ _ _ hn] at h
    rcases h with h | h <;> cases h <;> exact ⟨_, State.length_bodyFrom _ _ _, rfl⟩
  · have hlong : Config.bodyMax < n.toNat := Nat.lt_of_not_le hn
    rw [sendResponse_fault _ _ _ hlong, sendXprogResponse_fault _ _ _ hlong] at h
    rcases h with h | h <;> cases h

/-- Settles O17: each response operation that answers appends a message, so the facts about messages speak of it. -/
theorem messagesXorToZero : Obligations.MessagesXorToZero := by
  refine ⟨fun seq body => ⟨getLast?_encodeMessage seq body, xorAll_encodeMessage seq body⟩, fun s t status n h => ?_⟩
  obtain ⟨body, hlen, htx⟩ := response_appends_message h
  exact ⟨encodeMessage s.seq body, htx, by rw [length_encodeMessage, hlen], xorAll_encodeMessage s.seq body⟩

end Sys2Proof.Machine
end

section
/-! The framer in `Idle` and in `Header` (40_framing.md R113 to R117): what `FeedByte` does with one byte, first as one equation per
branch of the model's functions, then the obligations that put the branches together. -/

namespace Sys2Proof.Machine

/-- `FeedByte` in `Idle` takes the byte from the port and looks at it (R111). -/
theorem feedByte_of_idle {s : State} {b : Byte} {rest : List Byte} (hfs : s.fs = .idle) (hrx : s.rx = b :: rest) :
    feedByte s = feedIdle b { s with rx := rest } := by
  simp only [feedByte, hfs, hrx]

/-- `FeedByte` in `Header` takes the byte from the port as a header byte (R111). -/
theorem feedByte_of_header {s : State} {b : Byte} {rest : List Byte} (hfs : s.fs = .header) (hrx : s.rx = b :: rest) :
    feedByte s = feedHeader b { s with rx := rest } := by
  simp only [feedByte, hfs, hrx]

/-- A byte that opens no message is discarded (R113). -/
theorem feedIdle_of_ne_start {b : Byte} (s : State) (h : b ≠ Config.start) :
    feedIdle b s = .next (s.returning .headerError) := if_pos h

/-- The start marker opens a message; the checksum, begun at zero, is then the marker itself (R114). -/
theorem feedIdle_start (s : State) :
    feedIdle Config.start s = .next ({ s with
      hdr := s.hdr.set 0 Config.start, cks := Config.start, nread := 1#16, nwant := 5#16, fs := .header }.returning
        .incomplete) := by
  rw [feedIdle, if_neg (not_not_intro rfl), BitVec.zero_xor, Config.hdrLen]

/-- Settles O7: the two branches of a byte in `Idle`. -/
theorem feedByteIdle : Obligations.FeedByteIdle := by
  intro s b rest hfs hrx
  rw [feedByte_of_idle hfs hrx]
  refine ⟨fun hb => feedIdle_of_ne_start _ hb, fun hb => ?_⟩
  subst hb
  exact feedIdle_start _

/-- The state once a header byte has been stored, folded into the checksum and counted (R115). -/
def State.storeHeader (s : State) (b : Byte) : State :=
  { s with hdr := s.hdr.set s.nread.toNat b, cks := s.cks ^^^ b, nread := s.nread + 1#16 }

/-- The header byte just stored is the one at `NREAD`. -/
theorem State.storeHeader_getD_self (s : State) (b : Byte) (h : s.nread.toNat < s.hdr.length) :
    (s.storeHeader b).hdr.getD s.nread.toNat 0x00#8 = b := by
  simp [State.storeHeader, h]

/-- The header bytes stored before stand. -/
theorem State.storeHeader_getD_of_ne (s : State) (b : Byte) {i : Nat} (h : s.nread.toNat ≠ i) :
    (s.storeHeader b).hdr.getD i 0x00#8 = s.hdr.getD i 0x00#8 := by
  simp [State.storeHeader, List.getElem?_set_ne h]

/-- Before the fifth header byte nothing is checked (R115). -/
theorem feedHeader_before_fifth {s : State} (b : Byte) (hwant : s.nwant = 5#16) (h : s.nread.toNat < 4) :
    feedHeader b s = .next ((s.storeHeader b).returning .incomplete) := by
  have hindex : ¬ Config.hdrLen ≤ s.nread.toNat := by simp only [Config.hdrLen]; omega
  have hmore : s.nread + 1#16 < s.nwant := by rw [hwant]; bv_omega
  rw [feedHeader, if_neg hindex]
  exact if_pos hmore

/-- The fifth header byte is stored like the others, and then the header is judged (R116, R117). -/
theorem feedHeader_fifth {s : State} (b : Byte) (hwant : s.nwant = 5#16) (h : s.nread.toNat = 4) :
    feedHeader b s = acceptHeader (s.storeHeader b) := by
  have hindex : ¬ Config.hdrLen ≤ s.nread.toNat := by simp only [Config.hdrLen]; omega
  have hlast : ¬ s.nread + 1#16 < s.nwant := by rw [hwant]; bv_omega
  rw [feedHeader, if_neg hindex]
  exact if_neg hlast

/-- The body length that a header announces (R116). -/
def State.announced (s : State) : Half := s.hdr.getD 2 0x00#8 ++ s.hdr.getD 3 0x00#8

/-- A header without the token is rejected, whatever length it announces (R116). -/
theorem acceptHeader_wrong_token {s : State} (h : s.hdr.getD 4 0x00#8 ≠ Config.token) :
    acceptHeader s = .next ({ s with fs := .idle }.returning .headerError) := if_pos h

/-- A header with the token is rejected for a length past the buffer (R116). -/
theorem acceptHeader_too_long {s : State} (htoken : s.hdr.getD 4 0x00#8 = Config.token)
    (hlen : Config.bodyMax < s.announced.toNat) :
    acceptHeader s = .next ({ s with fs := .idle }.returning .headerError) :=
  (if_neg (not_not_intro htoken)).trans (if_pos hlen)

/-- A header with the token and a length that fits is accepted (R117). -/
theorem acceptHeader_accepts {s : State} (htoken : s.hdr.getD 4 0x00#8 = Config.token)
    (hlen : s.announced.toNat ≤ Config.bodyMax) :
    acceptHeader s = .next ({ s with
      seq := s.hdr.getD 1 0x00#8, len := s.announced, nread := 0#16, nwant := s.announced + 1#16, fs := .body }.returning
        .incomplete) :=
  (if_neg (not_not_intro htoken)).trans (if_neg (Nat.not_lt.mpr hlen))

/-- Settles O8: a header byte is stored, and at the fifth the token is judged before the length. The fifth byte stands at index 4, so
the sequence number and the length are read from the bytes received before it. -/
theorem feedByteHeader : Obligations.FeedByteHeader := by
  intro s b rest hfs hrx hhdr hwant _ h e l
  have hfeed : feedByte s = feedHeader b { s with rx := rest } := feedByte_of_header hfs hrx
  have hfifth (hread : s.nread.toNat = 4) : feedByte s = acceptHeader e :=
    hfeed.trans (feedHeader_fifth b hwant hread)
  have htoken (hread : s.nread.toNat = 4) : e.hdr.getD 4 0x00#8 = b := by
    have hself := s.storeHeader_getD_self b (by omega)
    rwa [hread] at hself
  have hold (hread : s.nread.toNat = 4) (i : Nat) (hi : i < 4) : e.hdr.getD i 0x00#8 = s.hdr.getD i 0x00#8 :=
    s.storeHeader_getD_of_ne b (by omega)
  have hl (hread : s.nread.toNat = 4) : e.announced = l := by
    rw [State.announced, hold hread 2 (by decide), hold hread 3 (by decide)]
  refine ⟨fun hread => hfeed.trans (feedHeader_before_fifth b hwant hread), fun hread hb => ?_, fun hread hb hlen => ?_,
    fun hread hb hlen => ?_⟩
  · exact (hfifth hread).trans (acceptHeader_wrong_token (by rwa [htoken hread]))
  · exact (hfifth hread).trans (acceptHeader_too_long ((htoken hread).trans hb) (by rwa [hl hread]))
  · rw [hfifth hread, acceptHeader_accepts ((htoken hread).trans hb) (by rwa [hl hread]), hl hread, hold hread 1 (by decide)]
    rfl

end Sys2Proof.Machine
end

section
/-! The two transmit operations (40_framing.md R122, R124, R125). They differ in the index of the status byte alone, so what they
emit is said once for any index. -/

namespace Sys2Proof.Machine

/-- The state once a response with its status at index `i` has been sent (R122, R125). -/
def State.sent (s : State) (i : Nat) (status : Byte) (n : Half) : State :=
  { s with
    fs := .idle
    buf := Memory.write s.buf i status
    tx := s.tx ++ encodeMessage s.seq ((s.writeBody i status).bodyFrom 0 n.toNat) }

/-- A response sent leaves the buffer of the status write. -/
theorem State.bodyByte_sent (s : State) (i : Nat) (status : Byte) (n : Half) (a : Nat) :
    (s.sent i status n).bodyByte a = if a = i then status else s.bodyByte a :=
  s.bodyByte_writeBody i status a

/-- The message sent carries the buffer as the response leaves it, with the status in place. -/
theorem State.tx_sent (s : State) (i : Nat) (status : Byte) (n : Half) :
    (s.sent i status n).tx = s.tx ++ encodeMessage s.seq ((s.sent i status n).bodyFrom 0 n.toNat) := by
  rw [State.bodyFrom_congr (s.sent i status n) (s.writeBody i status) 0 n.toNat fun _ _ _ => rfl]
  rfl

/-- Settles O15: the status stands at index 0. -/
theorem sendResponseEmits : Obligations.SendResponseEmits := fun s status n =>
  ⟨fun hn => ⟨s.sent 0 status n, sendResponse_next status n s hn, rfl, s.bodyByte_sent 0 status n, s.tx_sent 0 status n⟩,
    fun hn => sendResponse_fault status n s hn⟩

/-- Settles O16: the status stands at index 1. -/
theorem sendXprogResponseEmits : Obligations.SendXprogResponseEmits := fun s status n =>
  ⟨fun hn => ⟨s.sent 1 status n, sendXprogResponse_next status n s hn, rfl, s.bodyByte_sent 1 status n,
      s.tx_sent 1 status n⟩,
    fun hn => sendXprogResponse_fault status n s hn⟩

end Sys2Proof.Machine
end

section
/-! The session commands (41_dispatch.md R146 to R148) and the unknown requests (R150): which operation each performs, and from it
how the request is answered. -/

namespace Sys2Proof.Machine

/-- A byte stored in a 16-bit register is zero-extended (R148). -/
theorem setWidth_byte (value : Byte) : value.setWidth 16 = 0x00#8 ++ value :=
  BitVec.setWidth_eq_append (by decide)

/-- The one supported id writes the clock selector (R148). -/
theorem perform_setParameter_clock (s : State) (value : Byte) :
    perform (.setParameter Config.paramClock value) s
      = doneOk { s with clockSelector := 0x00#8 ++ value, prevPage := none } := by
  rw [perform, setParameter, if_pos rfl, setWidth_byte]
  rfl

/-- Of any other id only R170's invalidation is left (R148). -/
theorem perform_setParameter_other (s : State) {id : Byte} (value : Byte) (h : id ≠ Config.paramClock) :
    perform (.setParameter id value) s = doneFailed s.invalidatePage :=
  if_neg h

/-- `LoadAddress` has no condition (R146). -/
theorem perform_loadAddress (s : State) (addr : Word) :
    perform (.loadAddress addr) s = doneOk { s with currentAddress := addr, prevPage := none } := rfl

/-- The bytes of a control stack are not looked at (R147). -/
theorem perform_setControlStack (s : State) (stack : List Byte) :
    perform (.setControlStack stack) s = doneOk { s with controlStack := stack, prevPage := none } := rfl

/-- A control stack of 32 bytes is the layout's (R88). -/
theorem operandFault_setControlStack {stack : List Byte} (h : stack.length = 32) :
    operandFault (.setControlStack stack) = none := if_pos h

/-- A session command that ends ok: whatever it writes to the three session registers, the other fields but the previous page stand,
and the response is called without data. -/
theorem exec_writes_session {i : Instr} {s : State} (addr : Word) (clk : Half) (stack : List Byte)
    (hf : operandFault i = none) (hx : isXprog i = false)
    (hp : perform i s
      = doneOk { s with currentAddress := addr, clockSelector := clk, controlStack := stack, prevPage := none }) :
    ∃ t, exec i s = .next t ∧
      Kept { s with currentAddress := addr, clockSelector := clk, controlStack := stack, prevPage := none } t ∧
      Answered s t Config.stOk [] := by
  obtain ⟨t, hnext, hanswered, hkept⟩ := exec_ends i s _ hf hx hp (Nat.zero_le _) rfl rfl rfl rfl rfl
  exact ⟨t, hnext, hkept, hanswered⟩

/-- Settles O33: the address is the one register written. -/
theorem loadAddressResult : Obligations.LoadAddressResult := fun s addr =>
  exec_writes_session addr s.clockSelector s.controlStack rfl rfl (perform_loadAddress s addr)

/-- Settles O34: the length makes the list a stack of the layout, and then nothing else is checked. -/
theorem setControlStackResult : Obligations.SetControlStackResult := fun s stack hlen =>
  exec_writes_session s.currentAddress s.clockSelector stack (operandFault_setControlStack hlen) rfl
    (perform_setControlStack s stack)

/-- Settles O32: the supported id writes its register, any other ends command-failed. -/
theorem setParameterResult : Obligations.SetParameterResult := by
  intro s id value
  refine ⟨fun hid => ?_, fun hid => ?_⟩
  · subst hid
    exact exec_writes_session s.currentAddress (0x00#8 ++ value) s.controlStack rfl rfl
      (perform_setParameter_clock s value)
  · obtain ⟨t, hnext, hanswered, hkept⟩ := exec_ends _ s _ rfl rfl (perform_setParameter_other s value hid)
      (Nat.zero_le _) rfl rfl rfl rfl rfl
    exact ⟨t, hnext, hkept, hanswered⟩

/-- An engine that holds a request, with no fault and no call before it, dispatches the request (R141). -/
theorem step_of_request {s : State} (hfault : s.faultMark = none) (hcalls : s.calls = []) (hfs : s.fs = .complete) :
    step s = dispatch s := by
  simp only [step, hfault, hcalls, if_pos hfs]

/-- A request without a map entry is answered as unknown (R150). -/
theorem dispatch_unknown {s : State} {x : Bool} (h : fetchRequest s = .unknown x) : dispatch s = performUnknown x s := by
  simp only [dispatch, h]

/-- An unknown request of the normal form is answered in that form (R150, R141). -/
theorem performUnknown_normal (s : State) : ∃ t, performUnknown false s = .next t ∧
    Kept { s with prevPage := none } t ∧ Answered s t Config.stFailed [] := by
  obtain ⟨f, m, x, c, hnext, hanswered, -⟩ := respond_ends (doneFailed s.invalidatePage) (Nat.zero_le _)
  exact ⟨_, hnext, Kept.of_update _ f m x c, hanswered⟩

/-- An unknown request of the XPROG form is answered in that form (R150, R141). -/
theorem performUnknown_xprog (s : State) : ∃ t, performUnknown true s = .next t ∧
    Kept { s with prevPage := none } t ∧ AnsweredX s t Config.xstFailed [] := by
  obtain ⟨f, m, x, c, hnext, hanswered, -⟩ := respondX_ends (doneFailed s.invalidatePage) (Nat.zero_le _)
  exact ⟨_, hnext, Kept.of_update _ f m x c, hanswered⟩

/-- Settles O20: the step dispatches the unknown request, and each form is answered in its own. -/
theorem unknownRequestAnswered : Obligations.UnknownRequestAnswered := by
  intro s x hfault hcalls hfs hrequest
  rw [step_of_request hfault hcalls hfs, dispatch_unknown hrequest]
  cases x with
  | false =>
    obtain ⟨t, hnext, hkept, hanswered⟩ := performUnknown_normal s
    exact ⟨t, hnext, hkept, fun _ => hanswered, nofun⟩
  | true =>
    obtain ⟨t, hnext, hkept, hanswered⟩ := performUnknown_xprog s
    exact ⟨t, hnext, hkept, nofun, fun _ => hanswered⟩

end Sys2Proof.Machine
end

section
/-! What a routed command of the normal form performs, by the classes of commands the statements speak of, and the two shapes their
operations share: a poll whose end the inputs decide, and a paged write with and without its commit (41_dispatch.md R144, R151;
42_driver_common.md R164, R171, R176). -/

namespace Sys2Proof.Machine

/-- While ISP is active the ISP driver performs the operation (R144). -/
theorem routed_of_isp (isp hv : State → Done) {s : State} (h : s.activeFamily = .isp) : routed isp hv s = isp s := by
  simp only [routed, h]

/-- While an HV family is active the HV driver performs the operation (R144). -/
theorem routed_of_hvActive (isp hv : State → Done) {s : State} (h : HvActive s) : routed isp hv s = hv s := by
  rcases h with h | h <;> simp only [routed, h]

/-- A family other than ISP and TPI is an HV family (R32). -/
theorem hvActive_of_ne {s : State} (hisp : s.activeFamily ≠ .isp) (htpi : s.activeFamily ≠ .tpi) : HvActive s := by
  unfold HvActive
  cases hfam : s.activeFamily <;> simp [hfam] at hisp htpi ⊢

/-- A family is selected before its driver's operation, and `inMode` after it (R143). -/
theorem entering_eq {f : Family} {op : State → Done} {s : State} {d : Done} (h : op { s with activeFamily := f } = d) :
    entering f op s = { d with state := { d.state with inMode := decide (d.status = .ok) } } := by
  rw [← h, entering]

/-- The target's answer is the first listed one (R41). -/
theorem ispAnswer_of_listed {s : State} {q : Quad} (h : s.ispAnswers[0]? = some q) : s.ispAnswer = q := by
  rw [State.ispAnswer, List.headD_eq_head?_getD, List.head?_eq_getElem?, h, Option.getD_some]

/-- The three codes of `Leave` are one operation (R84, R144). -/
theorem perform_leave {i : Instr} (h : isLeave i = true) (s : State) :
    operandFault i = none ∧ isXprog i = false ∧ perform i s = routed ispLeave hvLeave s.invalidatePage :=
  match i, h with
  | .leaveProgmodeIsp _, _ | .leaveProgmodePp _, _ | .leaveProgmodeHvsp _, _ => ⟨rfl, rfl, rfl⟩

/-- The six codes of a paged write are one operation, checked for an odd flash count (R84, R144, R163). -/
theorem perform_pagedWrite {i : Instr} {mem : Mem} {mode timeout : Byte} {data : List Byte}
    (h : pagedWriteOf i = some (mem, mode, timeout, data)) (s : State) :
    operandFault i = writeFault mem data ∧ isXprog i = false ∧
      perform i s = routed (ispProgram mem mode (timeoutOf timeout) data) (hvProgram mem mode (timeoutOf timeout) data)
        s.invalidatePage := by
  unfold pagedWriteOf at h
  split at h <;> cases h <;> exact ⟨by simp [operandFault, writeFault], rfl, rfl⟩

/-- The six codes of a paged read are one operation, checked for its count; the previous page stands (R84, R144, R151, R170). -/
theorem perform_pagedRead {i : Instr} {mem : Mem} {n : Half} (h : pagedReadOf i = some (mem, n)) (s : State) :
    operandFault i = readFault 1 mem n ∧ isXprog i = false ∧
      perform i s = routed (ispRead mem n.toNat) (hvReadMem mem n.toNat) s := by
  unfold pagedReadOf at h
  split at h <;> cases h <;> exact ⟨by simp [operandFault, readFault], rfl, rfl⟩

/-- A count that fits in a response, and is even for flash, is no fault (R151, R163). -/
theorem readFault_eq_none {mem : Mem} {n : Half} (hfit : n.toNat ≤ 274) (heven : mem = .flash → n.toNat % 2 = 0) :
    readFault 1 mem n = none := by
  have hcount : ¬ Config.bodyMax < 1 + n.toNat := by simp only [Config.bodyMax]; omega
  have hodd : ¬ (mem = .flash ∧ n.toNat % 2 = 1) := fun ⟨hmem, h⟩ => by have := heven hmem; omega
  rw [readFault, if_neg hcount, if_neg hodd]

/-- A timeout argument is its number of milliseconds (R174). -/
@[simp] theorem toNat_timeoutOf (t : Byte) : (timeoutOf t).toNat = t.toNat := by
  rw [timeoutOf, BitVec.toNat_setWidth]
  omega

/-- An operation whose poll the inputs decide ends as the poll does (R171, R176). -/
theorem pollThenOk_ends {timeout : Half} {ready : Bool} {k : Nat} {s : State}
    (h : PollEnds (samplesOf s) s.elapsed timeout.toNat ready k) :
    pollThenOk timeout s = ⟨if ready then .ok else .timeout, [], afterPoll ready k s⟩ := by
  rw [pollThenOk, pollReady_ends timeout ready k s h]
  cases ready <;> rfl

/-- Without the commit flag the units are all of a paged write (R164). -/
theorem pagedWrite_of_not_commit (load : State → State) (commit : Word → State → State) {mode : Byte} (timeout : Half)
    (s : State) (h : mode.getLsbD 7 = false) : pagedWrite load commit mode timeout s = doneOk (load s) :=
  if_neg (ne_true_of_eq_false h)

/-- With the commit flag the page of the start address is committed and polled (R164). -/
theorem pagedWrite_of_commit (load : State → State) (commit : Word → State → State) {mode : Byte} (timeout : Half)
    (s : State) (h : mode.getLsbD 7 = true) :
    pagedWrite load commit mode timeout s = pollThenOk timeout (commit s.currentAddress (load s)) :=
  if_pos h

end Sys2Proof.Machine
end

section
/-! `Enter(ISP)` (43_isp.md R194): the ladder as a run of tries that miss and what follows it. -/

namespace Sys2Proof.Machine

/-- The state after the transaction `e` at each of the `n` rungs from `k` on (R194). -/
def ispTried (e : Quad) (k n : Nat) (s : State) : State :=
  { s with
    trace := s.trace ++ (List.range' k n).map fun r => .ispXfer r e
    ispAnswers := s.ispAnswers.drop n
    drawn := s.drawn + n }

/-- A try before further tries is one of them. -/
theorem ispTried_ispXferAt (e : Quad) (k n : Nat) (s : State) :
    ispTried e (k + 1) n (ispXferAt k e s).2 = ispTried e k (n + 1) s := by
  simp [ispTried, ispXferAt, State.log, State.takeIsp, List.range'_succ, Nat.add_assoc, Nat.add_comm 1]

/-- A try after others is one of them. -/
theorem ispXferAt_ispTried (e : Quad) (k n : Nat) (s : State) :
    (ispXferAt (k + n) e (ispTried e k n s)).2 = ispTried e k (n + 1) s := by
  simp [ispTried, ispXferAt, State.log, State.takeIsp, List.range'_concat, Nat.add_assoc]

/-- The ladder passes over the rungs whose listed answers do not match (R194). -/
theorem ispLadder_of_misses (v i : Byte) (e : Quad) (left n k : Nat) (s : State)
    (h : ∀ j, j < n → ∃ q, s.ispAnswers[j]? = some q ∧ quadSelect q i ≠ some v) :
    ispLadder v i e (n + left) k s = ispLadder v i e left (k + n) (ispTried e k n s) := by
  induction n generalizing k s with
  | zero => simp [ispTried]
  | succ n ih =>
    obtain ⟨q, hq, hmiss⟩ := h 0 (Nat.succ_pos n)
    have hrest : ∀ j, j < n → ∃ q, (ispXferAt k e s).2.ispAnswers[j]? = some q ∧ quadSelect q i ≠ some v := by
      intro j hj
      simpa [ispXferAt] using h (j + 1) (Nat.succ_lt_succ hj)
    calc ispLadder v i e (n + 1 + left) k s
        = ispLadder v i e (n + left) (k + 1) (ispXferAt k e s).2 := by
          rw [Nat.add_right_comm, ispLadder]
          exact if_neg (by rwa [ispAnswer_of_listed hq])
      _ = ispLadder v i e left (k + 1 + n) (ispTried e (k + 1) n (ispXferAt k e s).2) := ih _ _ hrest
      _ = ispLadder v i e left (k + (n + 1)) (ispTried e k (n + 1) s) := by
          rw [ispTried_ispXferAt, Nat.add_right_comm, Nat.add_assoc]

/-- The first rung whose listed answer matches ends the ladder (R194). -/
theorem ispLadder_of_match (v i : Byte) (e : Quad) (left n : Nat) (s : State) {q : Quad}
    (h : ∀ j, j < n → ∃ q, s.ispAnswers[j]? = some q ∧ quadSelect q i ≠ some v) (hq : s.ispAnswers[n]? = some q)
    (hmatch : quadSelect q i = some v) (hn : n < left) :
    ispLadder v i e left 0 s = (some n, ispTried e 0 (n + 1) s) := by
  obtain ⟨m, rfl⟩ : ∃ m, left = n + (m + 1) := ⟨left - n - 1, by omega⟩
  have hq' : (ispTried e 0 n s).ispAnswers[0]? = some q := by simpa [ispTried] using hq
  rw [ispLadder_of_misses v i e (m + 1) n 0 s h, Nat.zero_add, ispLadder, ← ispXferAt_ispTried, Nat.zero_add]
  exact if_pos (by rwa [ispAnswer_of_listed hq'])

/-- Where no listed answer matches the ladder ends without a rung (R194). -/
theorem ispLadder_of_no_match (v i : Byte) (e : Quad) (left : Nat) (s : State)
    (h : ∀ j, j < left → ∃ q, s.ispAnswers[j]? = some q ∧ quadSelect q i ≠ some v) :
    ispLadder v i e left 0 s = (none, ispTried e 0 left s) :=
  ispLadder_of_misses v i e 0 left 0 s h

/-- The state after the bring-up and the tries at the first `n` rungs (R194). -/
theorem ispTried_bringUp (e : Quad) (n : Nat) (s : State) :
    ispTried e 0 n (s.log .ispBringUp) = { s with
      trace := s.trace ++ .ispBringUp :: (List.range n).map fun r => .ispXfer r e
      ispAnswers := s.ispAnswers.drop n
      drawn := s.drawn + n } := by
  simp [ispTried, State.log, List.range_eq_range']

/-- `Enter_ISP` ends ok at the first rung that matches, which is kept (R194). -/
theorem ispEnter_of_match {v i : Byte} {e : Quad} {k : Nat} {s : State} {q : Quad} (hk : k ≤ Config.ispLadder)
    (h : ∀ j, j < k → ∃ q, s.ispAnswers[j]? = some q ∧ quadSelect q i ≠ some v) (hq : s.ispAnswers[k]? = some q)
    (hmatch : quadSelect q i = some v) :
    ispEnter v i e s = doneOk { s with
      ispRung := k
      trace := s.trace ++ .ispBringUp :: (List.range (k + 1)).map fun r => .ispXfer r e
      ispAnswers := s.ispAnswers.drop (k + 1)
      drawn := s.drawn + (k + 1) } := by
  rw [ispEnter, ispLadder_of_match v i e _ k (s.log .ispBringUp) h hq hmatch (Nat.lt_succ_of_le hk), ispTried_bringUp]

/-- `Enter_ISP` without a rung that matches releases the target and fails, the rung as before (R194). -/
theorem ispEnter_of_no_match {v i : Byte} {e : Quad} {s : State}
    (h : ∀ j, j < Config.ispLadder + 1 → ∃ q, s.ispAnswers[j]? = some q ∧ quadSelect q i ≠ some v) :
    ispEnter v i e s = doneFailed { s with
      trace := s.trace ++ .ispBringUp :: ((List.range (Config.ispLadder + 1)).map fun r => .ispXfer r e) ++ [.ispRelease]
      ispAnswers := s.ispAnswers.drop (Config.ispLadder + 1)
      drawn := s.drawn + (Config.ispLadder + 1) } := by
  rw [ispEnter, ispLadder_of_no_match v i e _ (s.log .ispBringUp) h, ispTried_bringUp]
  rfl

/-- Settles O35: the ladder ends at its first match or after its last rung, and an index outside 1..4 is checked before it. -/
theorem enterIspResult : Obligations.EnterIspResult := by
  intro s timeout pollValue pollIndex delays e i tries misses
  refine ⟨fun hlow hhigh => ?_, fun hindex => exec_fault i s _ (if_neg hindex)⟩
  have hf : operandFault i = none := if_pos ⟨hlow, hhigh⟩
  refine ⟨fun k q hk hmisses hq hmatch => ?_, fun hmisses => ?_⟩
  · exact exec_ends i s _ hf rfl (entering_eq (ispEnter_of_match hk hmisses hq hmatch)) (Nat.zero_le _) rfl rfl rfl rfl rfl
  · exact exec_ends i s _ hf rfl (entering_eq (ispEnter_of_no_match hmisses)) (Nat.zero_le _) rfl rfl rfl rfl rfl

end Sys2Proof.Machine
end

section
/-! The other commands of the ISP driver, and `Leave` of every family (43_isp.md R195 to R207, 44_hv.md R225): how the operation
ends, as one equation for each, and from it how the command is answered. -/

namespace Sys2Proof.Machine

/-- `Leave` of a family that has it, the release named by the family (R195, R225). -/
theorem routed_leave {s : State} (h : s.activeFamily ≠ .tpi) :
    routed ispLeave hvLeave s = doneOk { s with
      inMode := false, trace := s.trace ++ [if s.activeFamily = .isp then .ispRelease else .hvRelease s.activeFamily] } := by
  by_cases hisp : s.activeFamily = .isp
  · rw [routed_of_isp _ _ hisp, if_pos hisp]
    rfl
  · rw [routed_of_hvActive _ _ (hvActive_of_ne hisp h), if_neg hisp]
    rfl

/-- Settles O38: one operation for the three codes, one equation for the three families. -/
theorem leaveResult : Obligations.LeaveResult := by
  intro i s hleave htpi
  obtain ⟨hf, hx, hp⟩ := perform_leave hleave s
  exact exec_ends i s _ hf hx (hp.trans (routed_leave htpi)) (Nat.zero_le _) rfl rfl rfl rfl rfl

/-- The samples of an ISP poll are the ready bits of the coming answers (R173, R197). -/
theorem pollThenOk_of_isp {s : State} {timeout : Byte} {ready : Bool} {k : Nat} (hisp : s.activeFamily = .isp)
    (h : PollEnds (s.ispAnswers.map ispReadyBit) s.elapsed timeout.toNat ready k) :
    pollThenOk (timeoutOf timeout) s = ⟨if ready then .ok else .timeout, [], afterPoll ready k s⟩ := by
  have hsamples : samplesOf s = s.ispAnswers.map ispReadyBit := by simp only [samplesOf, hisp]
  exact pollThenOk_ends (by rwa [hsamples, toNat_timeoutOf])

/-- Settles O40: the samples of the poll are the answers after the one to the erase transaction. -/
theorem ispChipEraseResult : Obligations.IspChipEraseResult := by
  intro s timeout method c ready k hisp hpoll
  have hends := pollThenOk_of_isp (s := (ispXfer c s.invalidatePage).2) hisp hpoll
  exact exec_ends (.chipEraseIsp timeout method c) s _ rfl rfl ((routed_of_isp (s := s.invalidatePage) _ _ hisp).trans hends)
    (Nat.zero_le _) rfl rfl rfl rfl rfl

/-- The page write of an ISP paged write is one transaction with the address it is given (R198, R200). -/
theorem ispCommit_eq (cmd : Byte) (a : Word) (s : State) :
    ispCommit cmd a s = { s with
      trace := s.trace ++ [.ispXfer s.ispRung ⟨cmd, byteOf a 1, byteOf a 0, 0x00#8⟩]
      ispAnswers := s.ispAnswers.tail
      drawn := s.drawn + 1 } := rfl

/-- The state before the poll of a committed ISP EEPROM write (R200). -/
theorem ispCommit_eachByte_ispLoadByte (data : List Byte) (s : State) :
    ispCommit Config.ispWriteEepromPage s.currentAddress (eachByte ispLoadByte data s) = { s with
      trace := s.trace ++ ispEepromUnits s.ispRung s.currentAddress data ++
        [.ispXfer s.ispRung ⟨Config.ispWriteEepromPage, byteOf s.currentAddress 1, byteOf s.currentAddress 0, 0x00#8⟩]
      currentAddress := s.currentAddress + BitVec.ofNat 32 data.length
      ispAnswers := s.ispAnswers.drop (data.length + 1)
      drawn := s.drawn + (data.length + 1) } := by
  rw [ispCommit_eq, eachByte_ispLoadByte, List.tail_drop]
  rfl

/-- Settles O42: the bytes are loaded, and the commit flag decides whether the page write and its poll follow. -/
theorem ispProgramEepromResult : Obligations.IspProgramEepromResult := by
  intro i s mode timeout data hwrite hisp
  obtain ⟨hf, hx, hp⟩ := perform_pagedWrite hwrite s
  have hisp' : s.invalidatePage.activeFamily = .isp := hisp
  rw [routed_of_isp _ _ hisp', ispProgram] at hp
  refine ⟨fun hmode => ?_, fun hmode ready k hpoll => ?_⟩
  · rw [pagedWrite_of_not_commit _ _ _ _ hmode, eachByte_ispLoadByte] at hp
    exact exec_ends i s _ hf hx hp (Nat.zero_le _) rfl rfl rfl rfl rfl
  · rw [pagedWrite_of_commit _ _ _ _ hmode, ispCommit_eachByte_ispLoadByte] at hp
    exact exec_ends i s _ hf hx (hp.trans (pollThenOk_of_isp hisp hpoll)) (Nat.zero_le _) rfl rfl rfl rfl rfl

/-- Settles O43: the bytes read stand in the answers at the places of the words. -/
theorem ispReadFlashResult : Obligations.IspReadFlashResult := by
  intro i s n hread hisp hfit heven a u
  obtain ⟨hf, hx, hp⟩ := perform_pagedRead hread s
  rw [readFault_eq_none hfit fun _ => heven] at hf
  rw [routed_of_isp _ _ hisp] at hp
  obtain ⟨hstate, hlen, hdata⟩ := readWords_ispReadWord u s
  have hn : (readWords ispReadWord u s).1.length = n.toNat := by omega
  obtain ⟨t, hnext, hanswered, hkept⟩ := exec_ends i s _ hf hx (hp.trans (congrArg (doneData _) hstate))
    (hn.trans_le hfit) rfl rfl rfl rfl rfl
  exact ⟨_, t, hnext, hanswered, hn, hdata, hkept⟩

/-- Settles O44: the bytes read stand in the answers one after another. -/
theorem ispReadEepromResult : Obligations.IspReadEepromResult := by
  intro i s n hread hisp hfit a
  obtain ⟨hf, hx, hp⟩ := perform_pagedRead hread s
  rw [readFault_eq_none (mem := .eeprom) hfit nofun] at hf
  rw [routed_of_isp _ _ hisp] at hp
  obtain ⟨hstate, hlen, hdata⟩ := readBytes_ispReadByte n.toNat s
  obtain ⟨t, hnext, hanswered, hkept⟩ := exec_ends i s _ hf hx (hp.trans (congrArg (doneData _) hstate))
    (hlen.trans_le hfit) rfl rfl rfl rfl rfl
  exact ⟨_, t, hnext, hanswered, hlen, hdata, hkept⟩

/-- The fuse and the lock write of the ISP layout are one operation of the ISP driver (R153, R202, R203). -/
theorem perform_ispConfigWrite {i : Instr} {c : Quad} (h : ispConfigWriteOf i = some c) (s : State) :
    operandFault i = none ∧ isXprog i = false ∧
      perform i s = routed (ispWriteConfig c) doneFailed s.invalidatePage := by
  unfold ispConfigWriteOf at h
  split at h <;> cases h <;> exact ⟨rfl, rfl, rfl⟩

/-- Settles O45: the operation is its one transaction. -/
theorem ispWriteConfigResult : Obligations.IspWriteConfigResult := by
  intro i s c hwrite hisp
  obtain ⟨hf, hx, hp⟩ := perform_ispConfigWrite hwrite s
  exact exec_ends i s _ hf hx (hp.trans (routed_of_isp _ _ hisp)) (Nat.zero_le _) rfl rfl rfl rfl rfl

/-- While ISP is active the four reads of the ISP layout are one operation, checked for its index (R204 to R207). -/
theorem perform_ispConfigRead {i : Instr} {r : Byte} {c : Quad} (h : ispConfigReadOf i = some (r, c)) {s : State}
    (hisp : s.activeFamily = .isp) :
    operandFault i = (if 1 ≤ r.toNat ∧ r.toNat ≤ 4 then none else some .ispReturnIndex) ∧ isXprog i = false ∧
      perform i s = ispReadConfig r c s.invalidatePage := by
  unfold ispConfigReadOf at h
  split at h <;> cases h <;> exact ⟨rfl, rfl, routed_of_isp _ _ hisp⟩

/-- The byte of an answer that an index of 1..4 designates (R204). -/
theorem quadSelect_of_valid (q : Quad) {r : Byte} (hlow : 1 ≤ r.toNat) (hhigh : r.toNat ≤ 4) :
    quadSelect q r
      = some (if r = 0x01#8 then q.b1 else if r = 0x02#8 then q.b2 else if r = 0x03#8 then q.b3 else q.b4) := by
  obtain rfl | rfl | rfl | rfl : r = 0x01#8 ∨ r = 0x02#8 ∨ r = 0x03#8 ∨ r = 0x04#8 := by bv_omega
  all_goals rfl

/-- Settles O46: the index is checked, and then the designated byte of the one answer is the data. -/
theorem ispReadConfigResult : Obligations.IspReadConfigResult := by
  intro i s r c hread hisp
  obtain ⟨hf, hx, hp⟩ := perform_ispConfigRead hread hisp
  refine ⟨fun hlow hhigh => ?_, fun hindex => exec_fault i s _ (hf.trans (if_neg hindex))⟩
  obtain ⟨t, hnext, hanswered, hkept⟩ := exec_ends i s _ (hf.trans (if_pos ⟨hlow, hhigh⟩)) hx hp (by decide : 1 ≤ 274)
    rfl rfl rfl rfl rfl
  refine ⟨_, t, hnext, hanswered, fun q hq => ?_, hkept⟩
  have hanswer : s.invalidatePage.ispAnswer = q := ispAnswer_of_listed (by rwa [List.head?_eq_getElem?] at hq)
  rw [hanswer, quadSelect_of_valid q hlow hhigh, Option.getD_some]

end Sys2Proof.Machine
end

section
/-! The HV driver's `Enter` and `ChipErase` (44_hv.md R224, R227): the events of each operation with their pin patterns, then the
statements, each said once for all the codes that perform the operation. -/

namespace Sys2Proof.Machine

/-- HVPP takes the pattern of a transaction from the control stack, at `4 * signal + select` (R101, R223). -/
theorem patternIn_hvpp (cs : List Byte) (sig sel : Nat) :
    patternIn .hvpp cs sig sel = some (cs.getD (4 * sig + sel) 0x00#8) := if_pos rfl

/-- HVSP has no pin patterns (R223). -/
theorem patternIn_hvsp (cs : List Byte) (sig sel : Nat) : patternIn .hvsp cs sig sel = none := if_neg nofun

/-- The HV bring-up has no handshake to fail: the INIT strobe follows it, and the operation ends ok (R224). -/
theorem hvEnter_eq (s : State) :
    hvEnter s = doneOk { s with trace := s.trace ++
      [.hvBringUp s.activeFamily, .hvStrobe .init .low (patternIn s.activeFamily s.controlStack 6 0)] } := by
  simp [hvEnter, hvStrobe_eq, State.log, Signal.number, Select.number]

/-- A command that enters HV family `f` selects it before the bring-up, whose events therefore carry the patterns of `f`, and is
in mode after it (R143, R224). -/
theorem exec_entersHv {i : Instr} {f : Family} {s : State} (hf : operandFault i = none) (hx : isXprog i = false)
    (hp : perform i s = entering f hvEnter s.invalidatePage) :
    ∃ t, exec i s = .next t ∧ Answered s t Config.stOk [] ∧
      Kept { s with
        activeFamily := f, inMode := true, prevPage := none,
        trace := s.trace ++ [.hvBringUp f, .hvStrobe .init .low (patternIn f s.controlStack 6 0)] } t :=
  exec_ends i s _ hf hx (hp.trans (entering_eq (hvEnter_eq _))) (Nat.zero_le _) rfl rfl rfl rfl rfl

/-- Settles O36: the two commands differ in the family, and so in the pattern of the INIT strobe. -/
theorem enterHvResult : Obligations.EnterHvResult := by
  intro s delays
  have hpp := exec_entersHv (i := .enterProgmodePp delays) (s := s) rfl rfl rfl
  have hsp := exec_entersHv (i := .enterProgmodeHvsp delays) (s := s) rfl rfl rfl
  rw [patternIn_hvpp] at hpp
  rw [patternIn_hvsp] at hsp
  exact ⟨hpp, hsp⟩

/-- The samples of an HV poll are those of the target's ready signal (R173, R226). -/
theorem pollThenOk_of_hvActive {s : State} {timeout : Byte} {ready : Bool} {k : Nat} (hhv : HvActive s)
    (h : PollEnds s.hvReadies s.elapsed timeout.toNat ready k) :
    pollThenOk (timeoutOf timeout) s = ⟨if ready then .ok else .timeout, [], afterPoll ready k s⟩ := by
  have hsamples : samplesOf s = s.hvReadies := by rcases hhv with hfam | hfam <;> simp only [samplesOf, hfam]
  exact pollThenOk_ends (by rwa [hsamples, toNat_timeoutOf])

/-- An HV chip erase is its command load and its commit strobe before the poll (R227). -/
theorem hvChipErase_eq (timeout : Half) (s : State) :
    hvChipErase timeout s = pollThenOk timeout { s with trace := s.trace ++
      [.hvLoad .loadCmd .low Config.hvChipErase (patternIn s.activeFamily s.controlStack 2 0),
       .hvStrobe .commit .low (patternIn s.activeFamily s.controlStack 3 0)] } := by
  simp [hvChipErase, hvLoad_eq, hvStrobe_eq, Signal.number, Select.number]

/-- While an HV family is active the three codes of a chip erase are one operation: it needs the timeout alone, which each layout
carries (R153, R227). -/
theorem perform_chipErase_of_hvActive {i : Instr} {timeout : Byte} (h : chipEraseTimeoutOf i = some timeout) {s : State}
    (hhv : HvActive s) :
    operandFault i = none ∧ isXprog i = false ∧ perform i s = hvChipErase (timeoutOf timeout) s.invalidatePage := by
  unfold chipEraseTimeoutOf at h
  split at h <;> cases h <;> exact ⟨rfl, rfl, routed_of_hvActive _ _ hhv⟩

/-- Settles O47: the two events leave the ready samples and the readings to the poll. -/
theorem hvChipEraseResult : Obligations.HvChipEraseResult := by
  intro i s timeout ready k htimeout hhv hpoll p
  obtain ⟨hf, hx, hp⟩ := perform_chipErase_of_hvActive htimeout hhv
  rw [hvChipErase_eq] at hp
  exact exec_ends i s _ hf hx (hp.trans (pollThenOk_of_hvActive hhv hpoll)) (Nat.zero_le _) rfl rfl rfl rfl rfl

end Sys2Proof.Machine
end

section
/-! The TPI driver's `XEnter`, `XLeave`, `XSetParam` and `XReadMem` (45_tpi.md R267, R268, R271, R272): how the operation ends, as
one equation for each way it can, and from it how the command is answered. -/

namespace Sys2Proof.Machine

/-- While TPI is active the TPI driver performs the operation (R144). -/
theorem routedTpi_of_tpi (op : State → Done) {s : State} (h : s.activeFamily = .tpi) : routedTpi op s = op s := by
  simp only [routedTpi, h]

/-- The target's byte is what the first listed frame decodes to (R41, R263). -/
theorem tpiAnswer_of_listed {s : State} {f : Frame} (h : s.tpiFrames.head? = some f) : s.tpiAnswer = tpiDecode f := by
  rw [State.tpiAnswer, List.headD_eq_head?_getD, h, Option.getD_some]

/-- The state after the bring-up and the read of the identity, and the byte that the read gives (R267). -/
theorem tpiReceive_bringUp (s : State) :
    tpiReceive .tpiReadId (s.log .tpiBringUp) = (s.tpiAnswer, { s with
      trace := s.trace ++ [.tpiBringUp, .tpiReadId]
      tpiFrames := s.tpiFrames.tail
      drawn := s.drawn + 1 }) :=
  Prod.ext rfl (by simp [tpiReceive, State.log, State.takeTpi])

/-- `XEnter` of a target with the expected identity ends ok (R267). -/
theorem tpiEnter_of_id {s : State} (h : s.tpiAnswer = .byte Config.tpiId) :
    tpiEnter s = doneOk { s with
      trace := s.trace ++ [.tpiBringUp, .tpiReadId]
      tpiFrames := s.tpiFrames.tail
      drawn := s.drawn + 1 } := by
  rw [tpiEnter, tpiReceive_bringUp]
  exact if_pos h

/-- `XEnter` of a target with any other identity, a wrong parity among them, releases it and fails (R267). -/
theorem tpiEnter_of_ne_id {s : State} (h : s.tpiAnswer ≠ .byte Config.tpiId) :
    tpiEnter s = doneFailed { s with
      trace := s.trace ++ [.tpiBringUp, .tpiReadId, .tpiRelease]
      tpiFrames := s.tpiFrames.tail
      drawn := s.drawn + 1 } := by
  rw [tpiEnter, tpiReceive_bringUp]
  refine (if_neg h).trans ?_
  simp only [State.log, List.append_assoc, List.cons_append, List.nil_append]

/-- Settles O37: the identity frame is the first listed one, and the comparison with `TPI_ID` decides. -/
theorem xEnterResult : Obligations.XEnterResult := by
  intro s f hframe
  have hanswer : ({ s.invalidatePage with activeFamily := .tpi } : State).tpiAnswer = tpiDecode f := tpiAnswer_of_listed hframe
  refine ⟨fun hid => ?_, fun hid => ?_⟩
  · exact exec_endsX .xprgEnterProgmode s _ rfl rfl (entering_eq (tpiEnter_of_id (hanswer.trans hid))) (Nat.zero_le _)
      rfl rfl rfl rfl rfl
  · exact exec_endsX .xprgEnterProgmode s _ rfl rfl (entering_eq (tpiEnter_of_ne_id (hanswer ▸ hid))) (Nat.zero_le _)
      rfl rfl rfl rfl rfl

/-- Settles O39: each operation is its own equation, routed to the TPI driver. -/
theorem xLeaveAndXSetParamResult : Obligations.XLeaveAndXSetParamResult := by
  intro s params htpi
  have hrouted (op : State → Done) : routedTpi op s.invalidatePage = op s.invalidatePage := routedTpi_of_tpi op htpi
  exact ⟨exec_endsX .xprgLeaveProgmode s _ rfl rfl (hrouted tpiLeave) (Nat.zero_le _) rfl rfl rfl rfl rfl,
    exec_endsX (.xprgSetParam params) s _ rfl rfl (hrouted doneOk) (Nat.zero_le _) rfl rfl rfl rfl rfl⟩

/-- A state that keeps another has made as many draws (R41). -/
theorem Kept.drawn_eq {e t : State} (h : Kept e t) : t.drawn = e.drawn := by
  obtain ⟨-, -, ⟨-, -, -, -, -, -, hdrawn⟩, -⟩ := h
  exact hdrawn

/-- Settles O56: the data are the bytes of the read loop; how many draws it made is read from the next state. -/
theorem xReadMemResult : Obligations.XReadMemResult := by
  intro s memType addr n htpi hfit
  obtain ⟨hstate, hlen, hdata⟩ := tpiReadLoop_eq n.toNat addr s.invalidatePage
  have hf : operandFault (.xprgReadMem memType addr n) = none := if_neg (by omega)
  have hp : perform (.xprgReadMem memType addr n) s = doneData _ _ :=
    (routedTpi_of_tpi (s := s.invalidatePage) _ htpi).trans (congrArg (doneData _) hstate)
  obtain ⟨t, hnext, hanswered, hkept⟩ := exec_endsX _ s _ hf rfl hp (hlen.trans_le hfit) rfl rfl rfl rfl rfl
  refine ⟨_, t, hnext, hanswered, hlen, hdata, ?_⟩
  rw [hkept.drawn_eq]
  exact hkept

end Sys2Proof.Machine
end

section
/-! The two errors of the framer (60_exceptions.md R293, R294): what each part of `FeedByte` can return, and with which state, by
inversion; from it the statements, which ask only for the branches that return the error. -/

namespace Sys2Proof.Machine

/-- A message dropped for its header: the framer is in `Idle` again (R113, R116, R293). -/
def State.rejected (s : State) : State := { s with fs := .idle }.returning .headerError

/-- In `Idle` a byte is discarded or begins a message (R113, R114). -/
theorem feedIdle_next {b : Byte} {s t : State} (h : feedIdle b s = .next t) :
    t = s.returning .headerError ∨ t.feedResult = some .incomplete := by
  rw [feedIdle] at h
  split at h <;> cases h
  · exact .inl rfl
  · exact .inr rfl

/-- A complete header is rejected or begins a body (R116, R117). -/
theorem acceptHeader_next {s t : State} (h : acceptHeader s = .next t) :
    t = s.rejected ∨ t.feedResult = some .incomplete := by
  by_cases htoken : s.hdr.getD 4 0x00#8 = Config.token
  · by_cases hlen : s.announced.toNat ≤ Config.bodyMax
    · rw [acceptHeader_accepts htoken hlen] at h
      cases h
      exact .inr rfl
    · rw [acceptHeader_too_long htoken (Nat.lt_of_not_le hlen)] at h
      cases h
      exact .inl rfl
  · rw [acceptHeader_wrong_token htoken] at h
    cases h
    exact .inl rfl

/-- A header byte is stored, and then the message is rejected or goes on (R115 to R117). -/
theorem feedHeader_next {b : Byte} {s t : State} (h : feedHeader b s = .next t) :
    t = (s.storeHeader b).rejected ∨ t.feedResult = some .incomplete := by
  rw [feedHeader] at h
  split at h
  · cases h
  · dsimp only at h
    split at h
    · cases h
      exact .inr rfl
    · exact acceptHeader_next h

/-- The state once a byte has arrived in `Body`: stored unless it is the checksum byte, folded into the checksum and counted
(R118). -/
def State.storeBody (s : State) (b : Byte) : State :=
  let u := if s.nread < s.len then s.writeBody s.nread.toNat b else s
  { u with cks := u.cks ^^^ b, nread := u.nread + 1#16 }

/-- The checksum byte, which follows the last byte of the body, is not stored (R118). -/
theorem State.storeBody_of_not_lt {s : State} (b : Byte) (h : ¬ s.nread < s.len) :
    s.storeBody b = { s with cks := s.cks ^^^ b, nread := s.nread + 1#16 } := by
  rw [State.storeBody, if_neg h]

@[simp] theorem State.storeBody_nread (s : State) (b : Byte) : (s.storeBody b).nread = s.nread + 1#16 := by
  rw [State.storeBody]
  split <;> rfl

@[simp] theorem State.storeBody_nwant (s : State) (b : Byte) : (s.storeBody b).nwant = s.nwant := by
  rw [State.storeBody]
  split <;> rfl

/-- A byte in `Body` is stored, and the body ends when no more bytes are wanted (R118, R119). -/
theorem feedBody_next {b : Byte} {s t : State} (h : feedBody b s = .next t) :
    t.feedResult = some .incomplete ∨ (¬ s.nread + 1#16 < s.nwant ∧ endBody (s.storeBody b) = .next t) := by
  rw [feedBody] at h
  split at h
  · cases h
  · have hstored : (if (s.storeBody b).nread < (s.storeBody b).nwant then .next ((s.storeBody b).returning .incomplete)
        else endBody (s.storeBody b)) = Host.Outcome.next t := h
    rw [State.storeBody_nread, State.storeBody_nwant] at hstored
    split at hstored
    · cases hstored
      exact .inl rfl
    · exact .inr ⟨‹_›, hstored⟩

/-- The response to a checksum error has one byte, so it fits (R120, R124). -/
theorem checksumError_eq (s : State) :
    checksumError s = .next ((s.sent 0 Config.stCksum Config.cksumRespLen).returning .checksumError) := by
  rw [checksumError, sendResponse_next _ _ _ (by decide)]
  rfl

/-- At the end of a body the request is held or answered with the checksum error (R119, R120). -/
theorem endBody_next {s t : State} (h : endBody s = .next t) :
    (∃ c, t.feedResult = some (.command c)) ∨
      t = (s.sent 0 Config.stCksum Config.cksumRespLen).returning .checksumError := by
  rw [endBody, checksumError_eq] at h
  split at h <;> cases h
  · exact .inl ⟨_, rfl⟩
  · exact .inr rfl

/-- A checksum error sends its status alone (R120, R294). -/
theorem State.tx_sent_one (s : State) (status : Byte) :
    (s.sent 0 status 1#16).tx = s.tx ++ encodeMessage s.seq [status] := by
  simp [State.sent, State.bodyFrom, State.bodyByte_writeBody]

/-- `FeedByte` is `Incomplete`, reports a command, or takes one byte and ends in one of the two errors (R42, R111). -/
theorem feedByte_next {s t : State} (h : feedByte s = .next t) :
    t.feedResult = some .incomplete ∨ (∃ c, t.feedResult = some (.command c)) ∨ ∃ b rest, s.rx = b :: rest ∧
      (t = ({ s with rx := rest } : State).rejected ∨
        t = (({ s with rx := rest } : State).storeHeader b).rejected ∨
        (s.fs = .body ∧ ¬ s.nread + 1#16 < s.nwant ∧
          t = ((({ s with rx := rest } : State).storeBody b).sent 0 Config.stCksum Config.cksumRespLen).returning
            .checksumError)) := by
  rw [feedByte] at h
  split at h
  case h_1 => cases h
  case h_2 | h_3 | h_4 =>
    cases h
    exact .inl rfl
  case h_5 b rest hfs hrx =>
    obtain rfl | hmore := feedIdle_next h
    · exact .inr (.inr ⟨b, rest, hrx, .inl (by rw [State.rejected, ← hfs])⟩)
    · exact .inl hmore
  case h_6 b rest hfs hrx =>
    obtain hreject | hmore := feedHeader_next h
    · exact .inr (.inr ⟨b, rest, hrx, .inr (.inl hreject)⟩)
    · exact .inl hmore
  case h_7 b rest hfs hrx =>
    obtain hmore | ⟨hlast, hend⟩ := feedBody_next h
    · exact .inl hmore
    · obtain hcommand | herror := endBody_next hend
      · exact .inr (.inl hcommand)
      · exact .inr (.inr ⟨b, rest, hrx, .inr (.inr ⟨hfs, hlast, herror⟩)⟩)

/-- Settles O11: the error comes from `Idle` or from `Header`, and there only the header registers can have changed. -/
theorem headerErrorChangesOnly : Obligations.HeaderErrorChangesOnly := by
  intro s t h hresult
  obtain hmore | ⟨c, hcommand⟩ | ⟨b, rest, hrx, rfl | rfl | ⟨-, -, rfl⟩⟩ := feedByte_next h
  · cases hmore.symm.trans hresult
  · cases hcommand.symm.trans hresult
  · exact ⟨b, rest, hrx, rfl⟩
  · exact ⟨b, rest, hrx, rfl⟩
  · cases hresult

/-- In a body whose registers fit, the byte after which no more are wanted is the checksum byte (R24, R118). -/
theorem FramerInv.not_nread_lt_len {s : State} (hinv : FramerInv s) (hfs : s.fs = .body)
    (hlast : ¬ s.nread + 1#16 < s.nwant) : ¬ s.nread < s.len := by
  obtain ⟨-, hlen, -, hbody⟩ := hinv
  obtain ⟨hwant, hread⟩ := hbody hfs
  bv_omega

/-- Settles O12: the error comes from a body at its checksum byte, which is not stored, so the status at index 0 is the one write to
the buffer. -/
theorem checksumErrorChangesOnly : Obligations.ChecksumErrorChangesOnly := by
  intro s t hinv h hresult
  obtain hmore | ⟨c, hcommand⟩ | ⟨b, rest, hrx, rfl | rfl | ⟨hfs, hlast, rfl⟩⟩ := feedByte_next h
  · cases hmore.symm.trans hresult
  · cases hcommand.symm.trans hresult
  · cases hresult
  · cases hresult
  · rw [State.storeBody_of_not_lt (s := { s with rx := rest }) b (hinv.not_nread_lt_len hfs hlast)]
    refine ⟨b, rest, hrx, ?_, State.bodyByte_sent _ 0 Config.stCksum Config.cksumRespLen⟩
    rw [← State.tx_sent_one s Config.stCksum]
    rfl

end Sys2Proof.Machine
end

section
/-! The reference configuration (00_scope.md R7), the reset values (70_reset_and_hazards.md R321) and the TPI frame (30_encoding.md R105 to
R107). -/

namespace Sys2Proof.Machine

/-- Settles O6: each parameter is defined as its numeral. -/
theorem referenceConfiguration : Obligations.ReferenceConfiguration :=
  ⟨⟨rfl, rfl, rfl, rfl⟩, ⟨rfl, rfl, rfl, rfl⟩, ⟨rfl, rfl, rfl⟩, ⟨rfl, rfl, rfl, rfl, rfl, rfl, rfl, rfl, rfl, rfl⟩,
    ⟨rfl, rfl, rfl, rfl, rfl, rfl, rfl, rfl, rfl⟩, ⟨rfl, rfl, rfl, rfl, rfl, rfl, rfl⟩, fun _ => rfl⟩

/-- Settles O31: the reset state is a literal, and a list of zeros reads as zero inside and past its end. -/
theorem resetValues : Obligations.ResetValues := by
  have hzeros (k : Nat) : State.reset.controlStack.getD k 0x00#8 = 0x00#8 := by
    rw [State.reset, List.getD_eq_getElem?_getD, List.getElem?_replicate]
    split <;> rfl
  exact ⟨rfl, rfl, rfl, rfl, rfl, List.length_replicate, hzeros, rfl, rfl, rfl, rfl, rfl, rfl, rfl⟩

/-- The parity of a byte is the exclusive or of its bits (R106). -/
theorem parity_eq_foldl (d : Byte) : parity d = ((List.range 8).map d.getLsbD).foldl xor false := by
  simp [parity, List.range_succ]

/-- The data slots of a frame, the least significant first, are the bits of its byte (R105). -/
theorem frameData_eq {f : Frame} {d : Byte} (h : ∀ k, k < 8 → d.getLsbD k = f.getLsbD (k + 1)) : f.extractLsb' 1 8 = d := by
  apply BitVec.eq_of_getLsbD_eq
  intro k hk
  rw [BitVec.getLsbD_extractLsb', h k hk, Nat.add_comm 1 k]
  simp [hk]

/-- A frame decodes to its byte where the parity slot agrees, and is invalid otherwise (R107). -/
theorem tpiDecode_eq {f : Frame} {d : Byte} (h : ∀ k, k < 8 → d.getLsbD k = f.getLsbD (k + 1)) :
    tpiDecode f = if f.getLsbD 9 = ((List.range 8).map d.getLsbD).foldl xor false then .byte d else .invalid := by
  rw [tpiDecode, frameData_eq h, parity_eq_foldl]

/-- The slots of the frame of a byte (R105). -/
theorem getLsbD_tpiFrame (d : Byte) (k : Nat) :
    (tpiFrame d).getLsbD k = if k < 1 then false else if k < 9 then d.getLsbD (k - 1) else
      if k < 10 then parity d else (0b11#2).getLsbD (k - 10) := by
  simp only [tpiFrame, BitVec.getLsbD_append]
  grind

/-- Settles O57: the slots are read off the frame, and the frame of a byte is decoded as any other. -/
theorem tpiFrames : Obligations.TpiFrames := by
  refine ⟨fun d => ?_, fun f d h => tpiDecode_eq h⟩
  have hdata (k : Nat) (hk : k < 8) : (tpiFrame d).getLsbD (k + 1) = d.getLsbD k := by
    rw [getLsbD_tpiFrame, if_neg (by omega), if_pos (by omega), Nat.add_sub_cancel]
  have hparity : (tpiFrame d).getLsbD 9 = ((List.range 8).map d.getLsbD).foldl xor false := by
    rw [getLsbD_tpiFrame, ← parity_eq_foldl]
    rfl
  refine ⟨getLsbD_tpiFrame d 0, hdata, hparity, getLsbD_tpiFrame d 10, getLsbD_tpiFrame d 11, ?_⟩
  rw [tpiDecode_eq fun k hk => (hdata k hk).symm, if_pos hparity]

end Sys2Proof.Machine
end

section
/-! The decoder and the encoder of request bodies (30_encoding.md R81 to R94). What the decoder of a layout does is said once
(`ReadsLayout`) and proved for each layout; from it the maps `OpMap` and `XOpMap`, each a conjunction with one row per code, give the
statements about the decoder. The round trip goes by the commands. -/

namespace Sys2Proof.Machine

/-! ### Fields -/

/-- The two bytes of a 16-bit field, read again, are the field (R56). -/
theorem be16_hiByte_loByte (h : Half) : be16 (hiByte h) (loByte h) = h :=
  (BitVec.extractLsb'_append_extractLsb'_eq_extractLsb' (x := h) (start₁ := 0) (len₁ := 8) rfl).trans
    BitVec.extractLsb'_eq_self

/-- The four bytes of a 32-bit field, read again, are the field (R56). -/
theorem be32_byteOf (w : Word) : be32 (byteOf w 3) (byteOf w 2) (byteOf w 1) (byteOf w 0) = w := by
  apply BitVec.eq_of_getLsbD_eq
  intro i hi
  simp only [be32, byteOf, BitVec.getLsbD_append, BitVec.getLsbD_extractLsb']
  grind

/-- A 16-bit field is sent as the bytes it was read from (R56). -/
theorem halfBytes_be16 (hi lo : Byte) : halfBytes (be16 hi lo) = [hi, lo] := by
  have hhi : hiByte (be16 hi lo) = hi := BitVec.extractLsb'_append_eq_left
  have hlo : loByte (be16 hi lo) = lo := BitVec.extractLsb'_append_eq_right
  rw [halfBytes, hhi, hlo]

/-- Each byte of a 32-bit field is the one it was read from (R56). -/
theorem byteOf_be32 (b3 b2 b1 b0 : Byte) (k : Nat) (hk : k < 4) : byteOf (be32 b3 b2 b1 b0) k = [b0, b1, b2, b3][k] := by
  apply BitVec.eq_of_getLsbD_eq
  intro i hi
  simp only [byteOf, be32, BitVec.getLsbD_extractLsb']
  simp only [BitVec.getLsbD_append]
  match k with
  | 0 | 1 | 2 | 3 => grind

/-- A 32-bit field is sent as the bytes it was read from (R56). -/
theorem wordBytes_be32 (b3 b2 b1 b0 : Byte) : wordBytes (be32 b3 b2 b1 b0) = [b3, b2, b1, b0] := by
  rw [wordBytes, byteOf_be32 _ _ _ _ 3 (by decide), byteOf_be32 _ _ _ _ 2 (by decide), byteOf_be32 _ _ _ _ 1 (by decide),
    byteOf_be32 _ _ _ _ 0 (by decide)]
  rfl

/-- Data of the number of bytes that a count field names have that count (R56). -/
theorem countOf_of_length {data : List Byte} {n : Half} (h : data.length = n.toNat) : countOf data = n := by
  rw [countOf, h]
  simp

/-- The count of data that a body has room for is their number. -/
theorem toNat_countOf {data : List Byte} (h : data.length ≤ 275) : (countOf data).toNat = data.length := by
  rw [countOf, BitVec.toNat_ofNat]
  omega

/-- `takeExact` is `List.take` where the list is long enough. -/
theorem takeExact_of_le {n : Nat} {bs : List Byte} (h : n ≤ bs.length) : takeExact n bs = some (bs.take n) := by
  induction bs generalizing n with
  | nil =>
    obtain rfl := Nat.le_zero.mp h
    rfl
  | cons b bs ih =>
    cases n with
    | zero => rfl
    | succ n => rw [takeExact, ih (Nat.le_of_succ_le_succ h), Option.map_some, List.take_succ_cons]

/-- `takeExact` has no bytes of a list that is too short. -/
theorem takeExact_of_lt {n : Nat} {bs : List Byte} (h : bs.length < n) : takeExact n bs = none := by
  induction bs generalizing n with
  | nil =>
    cases n with
    | zero => exact absurd h (Nat.lt_irrefl 0)
    | succ n => rfl
  | cons b bs ih =>
    cases n with
    | zero => exact absurd h (Nat.not_lt_zero _)
    | succ n => rw [takeExact, ih (Nat.lt_of_succ_lt_succ h), Option.map_none]

/-! ### The decoder of a layout -/

/-- What decoding a request answers that is `pre` (its code, or `XPROG_CMD` and its sub-code) and the argument bytes `args`, where the
layout has `least` argument bytes and then `data` bytes of data: too short, too much data named, or a command that a body of at
most `BODY_MAX` bytes begins with (R81, R88 to R94, 41_dispatch.md R151). -/
structure ReadsLayout (pre args : List Byte) (least data : Nat) (d : Decoded) : Prop where
  short : args.length < least → d = .shortRequest
  excess : least ≤ args.length → args.length < least + data → d = .countTooLarge
  command : least + data ≤ args.length →
    ∃ i, d = .instr i ∧ ((pre ++ args).length ≤ 275 → i.wf = true ∧ encode i <+: pre ++ args)

theorem ReadsLayout.of_short {pre args : List Byte} {least : Nat} (data : Nat) (h : args.length < least) :
    ReadsLayout pre args least data .shortRequest :=
  ⟨fun _ => rfl, fun _ _ => by omega, fun _ => by omega⟩

theorem ReadsLayout.of_excess {pre args : List Byte} {least data : Nat} (h : least ≤ args.length)
    (hdata : args.length < least + data) : ReadsLayout pre args least data .countTooLarge :=
  ⟨fun _ => by omega, fun _ _ => rfl, fun _ => by omega⟩

theorem ReadsLayout.of_command {pre args : List Byte} {least data : Nat} {i : Instr} (h : least + data ≤ args.length)
    (hi : (pre ++ args).length ≤ 275 → i.wf = true ∧ encode i <+: pre ++ args) :
    ReadsLayout pre args least data (.instr i) :=
  ⟨fun _ => by omega, fun _ _ => by omega, fun _ => ⟨i, rfl, hi⟩⟩

/-- A layout of fixed fields, whose command begins with the bytes of the request whatever its length. -/
theorem ReadsLayout.of_fields {pre fields rest : List Byte} {least : Nat} {i : Instr} (h : fields.length = least)
    (hwf : i.wf = true) (henc : encode i = pre ++ fields) : ReadsLayout pre (fields ++ rest) least 0 (.instr i) :=
  .of_command (by simp only [List.length_append]; omega) fun _ => ⟨hwf, rest, by rw [henc, List.append_assoc]⟩

/-- The decoded command is the one that a layout's third case gives. -/
theorem ReadsLayout.instr {pre args : List Byte} {least data : Nat} {i : Instr}
    (h : ReadsLayout pre args least data (.instr i)) (hlen : (pre ++ args).length ≤ 275) :
    i.wf = true ∧ encode i <+: pre ++ args := by
  by_cases hshort : args.length < least
  · cases h.short hshort
  · by_cases hexcess : args.length < least + data
    · cases h.excess (by omega) hexcess
    · obtain ⟨j, hj, hfits⟩ := h.command (by omega)
      cases hj
      exact hfits hlen

theorem ReadsLayout.ne_unknown {pre args : List Byte} {least data : Nat} {d : Decoded}
    (h : ReadsLayout pre args least data d) (x : Bool) : d ≠ .unknown x := by
  rintro rfl
  by_cases hshort : args.length < least
  · cases h.short hshort
  · by_cases hexcess : args.length < least + data
    · cases h.excess (by omega) hexcess
    · obtain ⟨j, hj, -⟩ := h.command (by omega)
      cases hj

theorem ReadsLayout.short_iff {pre args : List Byte} {least data : Nat} {d : Decoded}
    (h : ReadsLayout pre args least data d) : d = .shortRequest ↔ args.length < least := by
  refine ⟨?_, h.short⟩
  rintro rfl
  by_contra hshort
  by_cases hexcess : args.length < least + data
  · cases h.excess (by omega) hexcess
  · obtain ⟨j, hj, -⟩ := h.command (by omega)
    cases hj

theorem ReadsLayout.excess_iff {pre args : List Byte} {least data : Nat} {d : Decoded}
    (h : ReadsLayout pre args least data d) (hleast : least ≤ args.length) :
    d = .countTooLarge ↔ args.length < least + data := by
  refine ⟨?_, h.excess hleast⟩
  rintro rfl
  by_contra hexcess
  obtain ⟨j, hj, -⟩ := h.command (by omega)
  cases hj

/-- A layout that ends in data: the fixed fields `fields` with the count `n` among them, then `n` bytes of data, where a command
with data that fit is well formed and is encoded as the fields and the data. -/
theorem withData_reads {pre fields rest : List Byte} {least : Nat} {n : Half} {k : List Byte → Instr}
    (h : fields.length = least)
    (hk : ∀ data : List Byte, data.length = n.toNat →
      (pre.length + least + data.length ≤ 275 → (k data).wf = true) ∧ encode (k data) = pre ++ fields ++ data) :
    ReadsLayout pre (fields ++ rest) least n.toNat (withData n rest k) := by
  have hargs : (fields ++ rest).length = least + rest.length := by rw [List.length_append, h]
  by_cases hcount : n.toNat ≤ rest.length
  · have htaken : (rest.take n.toNat).length = n.toNat := List.length_take_of_le hcount
    obtain ⟨hwf, henc⟩ := hk _ htaken
    rw [withData, takeExact_of_le hcount]
    refine .of_command (by omega) fun hlen => ⟨hwf ?_, rest.drop n.toNat, ?_⟩
    · rw [List.length_append] at hlen
      omega
    · rw [henc, List.append_assoc, List.take_append_drop, List.append_assoc]
  · rw [withData, takeExact_of_lt (by omega)]
    exact .of_excess (by omega) (by omega)

/-! ### The layouts R88 to R94 -/

/-- The number that the two bytes of a count field name, where the arguments have them (R56). -/
def countField : List Byte → Nat
  | hi :: lo :: _ => (be16 hi lo).toNat
  | _ => 0

theorem decodeSetParameter_reads (args : List Byte) : ReadsLayout [0x02#8] args 2 0 (decodeSetParameter args) :=
  match args with
  | id :: value :: _ => .of_fields (fields := [id, value]) rfl rfl rfl
  | [] | [_] => .of_short 0 (by simp)

theorem decodeLoadAddress_reads (args : List Byte) : ReadsLayout [0x06#8] args 4 0 (decodeLoadAddress args) :=
  match args with
  | b3 :: b2 :: b1 :: b0 :: _ => .of_fields (fields := [b3, b2, b1, b0]) rfl rfl (by rw [encode, wordBytes_be32]; rfl)
  | [] | [_] | [_, _] | [_, _, _] => .of_short 0 (by simp)

theorem decodeSetControlStack_reads (args : List Byte) :
    ReadsLayout [0x2D#8] args 32 0 (decodeSetControlStack args) := by
  by_cases h : 32 ≤ args.length
  · rw [decodeSetControlStack, Config.csLen, takeExact_of_le h]
    refine .of_command h fun _ => ⟨?_, args.drop 32, ?_⟩
    · simpa [Instr.wf] using h
    · simp [encode]
  · rw [decodeSetControlStack, Config.csLen, takeExact_of_lt (by omega)]
    exact .of_short 0 (by omega)

theorem decodeEnterIsp_reads (args : List Byte) : ReadsLayout [0x10#8] args 11 0 (decodeEnterIsp args) :=
  match args with
  | t :: d1 :: d2 :: d3 :: d4 :: pv :: pi :: e1 :: e2 :: e3 :: e4 :: _ =>
    .of_fields (fields := [t, d1, d2, d3, d4, pv, pi, e1, e2, e3, e4]) rfl rfl rfl
  | [] | [_] | [_, _] | [_, _, _] | [_, _, _, _] | [_, _, _, _, _] | [_, _, _, _, _, _] | [_, _, _, _, _, _, _]
  | [_, _, _, _, _, _, _, _] | [_, _, _, _, _, _, _, _, _] | [_, _, _, _, _, _, _, _, _, _] => .of_short 0 (by simp)

theorem decodeChipEraseIsp_reads (args : List Byte) : ReadsLayout [0x12#8] args 6 0 (decodeChipEraseIsp args) :=
  match args with
  | t :: m :: c1 :: c2 :: c3 :: c4 :: _ => .of_fields (fields := [t, m, c1, c2, c3, c4]) rfl rfl rfl
  | [] | [_] | [_, _] | [_, _, _] | [_, _, _, _] | [_, _, _, _, _] => .of_short 0 (by simp)

theorem decodeQuad_reads {code : Byte} {k : Quad → Instr}
    (hk : ∀ c, (k c).wf = true ∧ encode (k c) = code :: c.bytes) (args : List Byte) :
    ReadsLayout [code] args 4 0 (decodeQuad k args) :=
  match args with
  | c1 :: c2 :: c3 :: c4 :: _ => .of_fields (fields := [c1, c2, c3, c4]) rfl (hk _).1 (hk _).2
  | [] | [_] | [_, _] | [_, _, _] => .of_short 0 (by simp)

theorem decodeIndexQuad_reads {code : Byte} {k : Byte → Quad → Instr}
    (hk : ∀ i c, (k i c).wf = true ∧ encode (k i c) = code :: i :: c.bytes) (args : List Byte) :
    ReadsLayout [code] args 5 0 (decodeIndexQuad k args) :=
  match args with
  | i :: c1 :: c2 :: c3 :: c4 :: _ => .of_fields (fields := [i, c1, c2, c3, c4]) rfl (hk _ _).1 (hk _ _).2
  | [] | [_] | [_, _] | [_, _, _] | [_, _, _, _] => .of_short 0 (by simp)

theorem decodeProgramIsp_reads {code : Byte} {k : Byte → Byte → List Byte → List Byte → Instr}
    (hk : ∀ m t ign data, (k m t ign data).wf = (ign.length == 5 && dataFits 10 data) ∧
      encode (k m t ign data) = code :: halfBytes (countOf data) ++ m :: t :: ign ++ data) (args : List Byte) :
    ReadsLayout [code] args 9 (countField args) (decodeProgramIsp k args) :=
  match args with
  | nh :: nl :: m :: t :: i5 :: i6 :: i7 :: i8 :: i9 :: rest =>
    withData_reads (fields := [nh, nl, m, t, i5, i6, i7, i8, i9]) rfl fun data hdata =>
      ⟨fun hfits => (hk _ _ _ _).1.trans (decide_eq_true hfits),
        (hk _ _ _ _).2.trans (by rw [countOf_of_length hdata, halfBytes_be16]; rfl)⟩
  | [] | [_] | [_, _] | [_, _, _] | [_, _, _, _] | [_, _, _, _, _] | [_, _, _, _, _, _] | [_, _, _, _, _, _, _]
  | [_, _, _, _, _, _, _, _] => .of_short _ (by simp)

theorem decodeReadIsp_reads {code : Byte} {k : Half → Option Byte → Instr}
    (hk : ∀ n rc, (k n rc).wf = true ∧ encode (k n rc) = code :: halfBytes n ++ rc.toList) (args : List Byte) :
    ReadsLayout [code] args 2 0 (decodeReadIsp k args) :=
  match args with
  | nh :: nl :: rest =>
    .of_command (by simp) fun _ => ⟨(hk _ _).1, by
      rw [(hk _ _).2, halfBytes_be16]
      cases rest <;> simp⟩
  | [] | [_] => .of_short 0 (by simp)

theorem decodeProgramHv_reads {code : Byte} {k : Byte → Byte → List Byte → Instr}
    (hk : ∀ m t data, (k m t data).wf = dataFits 5 data ∧
      encode (k m t data) = code :: halfBytes (countOf data) ++ m :: t :: data) (args : List Byte) :
    ReadsLayout [code] args 4 (countField args) (decodeProgramHv k args) :=
  match args with
  | nh :: nl :: m :: t :: rest =>
    withData_reads (fields := [nh, nl, m, t]) rfl fun data hdata =>
      ⟨fun hfits => (hk _ _ _).1.trans (decide_eq_true hfits),
        (hk _ _ _).2.trans (by rw [countOf_of_length hdata, halfBytes_be16]; rfl)⟩
  | [] | [_] | [_, _] | [_, _, _] => .of_short _ (by simp)

theorem decodeReadHv_reads {code : Byte} {k : Half → Instr}
    (hk : ∀ n, (k n).wf = true ∧ encode (k n) = code :: halfBytes n) (args : List Byte) :
    ReadsLayout [code] args 2 0 (decodeReadHv k args) :=
  match args with
  | nh :: nl :: _ =>
    .of_fields (fields := [nh, nl]) rfl (hk _).1 ((hk _).2.trans (by rw [halfBytes_be16]; rfl))
  | [] | [_] => .of_short 0 (by simp)

theorem decodeChipErasePp_reads (args : List Byte) : ReadsLayout [0x22#8] args 2 0 (decodeChipErasePp args) :=
  match args with
  | w :: t :: _ => .of_fields (fields := [w, t]) rfl rfl rfl
  | [] | [_] => .of_short 0 (by simp)

theorem decodeChipEraseHvsp_reads (args : List Byte) : ReadsLayout [0x32#8] args 1 0 (decodeChipEraseHvsp args) :=
  match args with
  | t :: rest => .of_command (by simp) fun _ => ⟨rfl, by cases rest <;> simp [encode]⟩
  | [] => .of_short 0 (by simp)

theorem decodeWritePp_reads {code : Byte} {k : Byte → Byte → Byte → Byte → Instr}
    (hk : ∀ a b c d, (k a b c d).wf = true ∧ encode (k a b c d) = [code, a, b, c, d]) (args : List Byte) :
    ReadsLayout [code] args 4 0 (decodeWritePp k args) :=
  match args with
  | a :: b :: c :: d :: _ => .of_fields (fields := [a, b, c, d]) rfl (hk _ _ _ _).1 (hk _ _ _ _).2
  | [] | [_] | [_, _] | [_, _, _] => .of_short 0 (by simp)

theorem decodeWriteHvsp_reads {code : Byte} {k : Byte → Byte → Byte → Instr}
    (hk : ∀ a b c, (k a b c).wf = true ∧ encode (k a b c) = [code, a, b, c]) (args : List Byte) :
    ReadsLayout [code] args 3 0 (decodeWriteHvsp k args) :=
  match args with
  | a :: b :: c :: _ => .of_fields (fields := [a, b, c]) rfl (hk _ _ _).1 (hk _ _ _).2
  | [] | [_] | [_, _] => .of_short 0 (by simp)

theorem decodeWhich_reads {code : Byte} {k : Byte → Instr}
    (hk : ∀ a, (k a).wf = true ∧ encode (k a) = [code, a]) (args : List Byte) :
    ReadsLayout [code] args 1 0 (decodeWhich k args) :=
  match args with
  | a :: _ => .of_fields (fields := [a]) rfl (hk _).1 (hk _).2
  | [] => .of_short 0 (by simp)

/-- A layout whose arguments are ignored bytes, as many of `room` as the request carries. -/
theorem takenDelays_reads {code : Byte} {room : Nat} {k : List Byte → Instr}
    (hk : ∀ delays, (k delays).wf = decide (delays.length ≤ room) ∧ encode (k delays) = code :: delays) (args : List Byte) :
    ReadsLayout [code] args 0 0 (.instr (k (args.take room))) :=
  .of_command (Nat.zero_le _) fun _ => ⟨(hk _).1.trans (by simp), args.drop room, by
    rw [(hk _).2, List.cons_append, List.take_append_drop]; rfl⟩

theorem decodeXErase_reads (args : List Byte) : ReadsLayout [0x50#8, 0x03#8] args 5 0 (decodeXErase args) :=
  match args with
  | m :: b3 :: b2 :: b1 :: b0 :: _ =>
    .of_fields (fields := [m, b3, b2, b1, b0]) rfl rfl (by rw [encode, wordBytes_be32]; rfl)
  | [] | [_] | [_, _] | [_, _, _] | [_, _, _, _] => .of_short 0 (by simp)

theorem decodeXWriteMem_reads (args : List Byte) :
    ReadsLayout [0x50#8, 0x04#8] args 8 (countField (args.drop 6)) (decodeXWriteMem args) :=
  match args with
  | m :: p :: b3 :: b2 :: b1 :: b0 :: nh :: nl :: rest =>
    withData_reads (fields := [m, p, b3, b2, b1, b0, nh, nl]) rfl fun data hdata =>
      ⟨fun hfits => decide_eq_true hfits, by
        rw [encode, wordBytes_be32, countOf_of_length hdata, halfBytes_be16]; rfl⟩
  | [] | [_] | [_, _] | [_, _, _] | [_, _, _, _] | [_, _, _, _, _] | [_, _, _, _, _, _] | [_, _, _, _, _, _, _] =>
    .of_short _ (by simp)

theorem decodeXReadMem_reads (args : List Byte) : ReadsLayout [0x50#8, 0x05#8] args 7 0 (decodeXReadMem args) :=
  match args with
  | m :: b3 :: b2 :: b1 :: b0 :: nh :: nl :: _ =>
    .of_fields (fields := [m, b3, b2, b1, b0, nh, nl]) rfl rfl (by rw [encode, wordBytes_be32, halfBytes_be16]; rfl)
  | [] | [_] | [_, _] | [_, _, _] | [_, _, _, _] | [_, _, _, _, _] | [_, _, _, _, _, _] => .of_short 0 (by simp)

/-! ### The maps R84 and R85 -/

/-- The bytes of data that a request of a code names: its count field, where the code has data (R90, R92). -/
def dataNamed (code : Byte) (args : List Byte) : Nat := if (dataBase code).isSome then countField args else 0

/-- Every code of `OpMap` has a layout, the one of its least length and its data (R84, R88 to R93). -/
theorem decodeMain_reads (args : List Byte) : ∀ code ∈ opMapCodes,
    ReadsLayout [code] args (leastLength code - 1) (dataNamed code args) (decodeMain code args) := by
  simp only [opMapCodes, List.forall_mem_cons]
  exact ⟨
    decodeSetParameter_reads args, decodeLoadAddress_reads args,
    decodeEnterIsp_reads args,
    takenDelays_reads (fun _ => ⟨rfl, rfl⟩) args,
    decodeChipEraseIsp_reads args,
    decodeProgramIsp_reads (fun _ _ _ _ => ⟨rfl, rfl⟩) args,
    decodeReadIsp_reads (fun _ _ => ⟨rfl, rfl⟩) args,
    decodeProgramIsp_reads (fun _ _ _ _ => ⟨rfl, rfl⟩) args,
    decodeReadIsp_reads (fun _ _ => ⟨rfl, rfl⟩) args,
    decodeQuad_reads (fun _ => ⟨rfl, rfl⟩) args,
    decodeIndexQuad_reads (fun _ _ => ⟨rfl, rfl⟩) args,
    decodeQuad_reads (fun _ => ⟨rfl, rfl⟩) args,
    decodeIndexQuad_reads (fun _ _ => ⟨rfl, rfl⟩) args,
    decodeIndexQuad_reads (fun _ _ => ⟨rfl, rfl⟩) args,
    decodeIndexQuad_reads (fun _ _ => ⟨rfl, rfl⟩) args,
    takenDelays_reads (fun _ => ⟨rfl, rfl⟩) args,
    takenDelays_reads (fun _ => ⟨rfl, rfl⟩) args,
    decodeChipErasePp_reads args,
    decodeProgramHv_reads (fun _ _ _ => ⟨rfl, rfl⟩) args,
    decodeReadHv_reads (fun _ => ⟨rfl, rfl⟩) args,
    decodeProgramHv_reads (fun _ _ _ => ⟨rfl, rfl⟩) args,
    decodeReadHv_reads (fun _ => ⟨rfl, rfl⟩) args,
    decodeWritePp_reads (fun _ _ _ _ => ⟨rfl, rfl⟩) args,
    decodeWhich_reads (fun _ => ⟨rfl, rfl⟩) args,
    decodeWritePp_reads (fun _ _ _ _ => ⟨rfl, rfl⟩) args,
    decodeWhich_reads (fun _ => ⟨rfl, rfl⟩) args,
    decodeWhich_reads (fun _ => ⟨rfl, rfl⟩) args,
    decodeWhich_reads (fun _ => ⟨rfl, rfl⟩) args,
    decodeSetControlStack_reads args,
    takenDelays_reads (fun _ => ⟨rfl, rfl⟩) args,
    takenDelays_reads (fun _ => ⟨rfl, rfl⟩) args,
    decodeChipEraseHvsp_reads args,
    decodeProgramHv_reads (fun _ _ _ => ⟨rfl, rfl⟩) args,
    decodeReadHv_reads (fun _ => ⟨rfl, rfl⟩) args,
    decodeProgramHv_reads (fun _ _ _ => ⟨rfl, rfl⟩) args,
    decodeReadHv_reads (fun _ => ⟨rfl, rfl⟩) args,
    decodeWriteHvsp_reads (fun _ _ _ => ⟨rfl, rfl⟩) args,
    decodeWhich_reads (fun _ => ⟨rfl, rfl⟩) args,
    decodeWriteHvsp_reads (fun _ _ _ => ⟨rfl, rfl⟩) args,
    decodeWhich_reads (fun _ => ⟨rfl, rfl⟩) args,
    decodeWhich_reads (fun _ => ⟨rfl, rfl⟩) args,
    decodeWhich_reads (fun _ => ⟨rfl, rfl⟩) args,
    nofun⟩

/-- The bytes of data that an XPROG request of a sub-code names: the count field of XWriteMem (R94). -/
def xDataNamed (sub : Byte) (args : List Byte) : Nat := if sub = 0x04#8 then countField (args.drop 6) else 0

/-- Every sub-code of `XOpMap` has a layout, the one of its least length and its data (R85, R94). -/
theorem decodeXprog_reads (args : List Byte) : ∀ sub ∈ xOpMapCodes,
    ReadsLayout [0x50#8, sub] args (xLeastLength sub - 2) (xDataNamed sub args) (decodeXprog (sub :: args)) := by
  simp only [xOpMapCodes, List.forall_mem_cons]
  exact ⟨
    .of_fields (fields := []) rfl rfl rfl,
    .of_fields (fields := []) rfl rfl rfl,
    decodeXErase_reads args,
    decodeXWriteMem_reads args,
    decodeXReadMem_reads args,
    .of_command (Nat.zero_le _) fun hlen => ⟨decide_eq_true (by simp at hlen ⊢; omega), List.prefix_refl _⟩,
    nofun⟩

/-- A byte with a number is the byte of that number. -/
theorem mem_of_toNat_mem {b : Byte} {bs : List Byte} (h : b.toNat ∈ bs.map BitVec.toNat) : b ∈ bs := by
  obtain ⟨c, hc, heq⟩ := List.mem_map.mp h
  rwa [← BitVec.eq_of_toNat_eq heq]

/-- A code that `OpMap` lacks is unknown (R81, R86). -/
theorem decodeMain_of_not_mem {code : Byte} (h : code ∉ opMapCodes) (args : List Byte) :
    decodeMain code args = .unknown false := by
  unfold decodeMain
  split
  case h_43 => rfl
  all_goals exact absurd (mem_of_toNat_mem (by rw [‹code.toNat = _›]; decide)) h

/-- A sub-code that `XOpMap` lacks is unknown (R81, R86). -/
theorem decodeXprog_of_not_mem {sub : Byte} (h : sub ∉ xOpMapCodes) (args : List Byte) :
    decodeXprog (sub :: args) = .unknown true := by
  simp only [decodeXprog]
  split
  case h_7 => rfl
  all_goals exact absurd (mem_of_toNat_mem (by rw [‹sub.toNat = _›]; decide)) h

/-! ### Requests -/

/-- A request with the code `XPROG_CMD` is decoded by its sub-code (R81, R84). -/
theorem decodeRequest_xprog (stale : Byte) (args : List Byte) :
    decodeRequest stale (0x50#8 :: args) = decodeXprog args := rfl

/-- A request with any other code is decoded by it (R81, R84). -/
theorem decodeRequest_main (stale : Byte) {code : Byte} (h : code ≠ 0x50#8) (args : List Byte) :
    decodeRequest stale (code :: args) = decodeMain code args := if_neg h

/-- `XPROG_CMD` is no code of `OpMap` (R84). -/
theorem ne_xprogCmd_of_mem {code : Byte} (h : code ∈ opMapCodes) : code ≠ 0x50#8 := by
  rintro rfl
  exact absurd h (by decide)

/-- A request of no bytes that states a least length is short, and of any other stale code it is what `OpMap` makes of the code
alone (R81, R151, log 15). -/
theorem decodeRequest_nil (stale : Byte) :
    decodeRequest stale [] = if statesOneByte stale then .shortRequest else decodeMain stale [] := rfl

/-- The codes whose layouts state a least length of one byte are codes of `OpMap`. -/
theorem mem_of_statesOneByte {code : Byte} (h : statesOneByte code = true) : code ∈ opMapCodes := by
  have hcode : code.toNat ∈ [0x11, 0x20, 0x30] := by simpa [statesOneByte] using h
  have hsub : [0x11, 0x20, 0x30] ⊆ opMapCodes.map BitVec.toNat := by decide
  exact mem_of_toNat_mem (hsub hcode)

/-- A request of no bytes of a stale code that `OpMap` lacks is unknown (R81, R86). -/
theorem decodeRequest_nil_of_not_mem {stale : Byte} (h : stale ∉ opMapCodes) :
    decodeRequest stale [] = .unknown false := by
  rw [decodeRequest_nil, if_neg (mt mem_of_statesOneByte h), decodeMain_of_not_mem h]

/-- A request of no bytes of a stale code of `OpMap` is not unknown. -/
theorem decodeRequest_nil_ne_unknown {stale : Byte} (h : stale ∈ opMapCodes) (x : Bool) :
    decodeRequest stale [] ≠ .unknown x := by
  rw [decodeRequest_nil]
  split
  · nofun
  · exact (decodeMain_reads [] stale h).ne_unknown x

/-- Settles O4: a code of the maps has a layout, which is never unknown, and every other code falls through the maps. -/
theorem unknownRequests : Obligations.UnknownRequests := by
  refine ⟨fun stale code args hcode hne => ?_, fun stale => rfl, fun stale sub args hsub => ?_, fun stale => ⟨⟨?_, ?_⟩, ?_⟩,
    fun stale code args x hcode => ?_, fun stale sub args x hsub => ?_⟩
  · rw [decodeRequest_main stale hne, decodeMain_of_not_mem hcode]
  · rw [decodeRequest_xprog, decodeXprog_of_not_mem hsub]
  · exact fun hunknown hmem => decodeRequest_nil_ne_unknown hmem false hunknown
  · exact decodeRequest_nil_of_not_mem
  · by_cases hmem : stale ∈ opMapCodes
    · exact decodeRequest_nil_ne_unknown hmem true
    · rw [decodeRequest_nil_of_not_mem hmem]
      nofun
  · rw [decodeRequest_main stale (ne_xprogCmd_of_mem hcode)]
    exact (decodeMain_reads args code hcode).ne_unknown x
  · rw [decodeRequest_xprog]
    exact (decodeXprog_reads args sub hsub).ne_unknown x

/-- The codes of `OpMap` that need a byte of a request, because the operation reads one or because the layout states it, are all but
two `Leave` codes (R84, R88 to R93). -/
theorem needsByte_iff : ∀ code ∈ opMapCodes,
    (statesOneByte code = true ∨ 0 < leastLength code - 1) ↔ code ≠ 0x21#8 ∧ code ≠ 0x31#8 := by
  decide

/-- The shortest request of a code has its code byte (R88 to R93). -/
theorem one_le_leastLength : ∀ code ∈ opMapCodes, 1 ≤ leastLength code := by decide

/-- The shortest request of a sub-code has `XPROG_CMD` and the sub-code (R94). -/
theorem two_le_xLeastLength : ∀ sub ∈ xOpMapCodes, 2 ≤ xLeastLength sub := by decide

/-- A code with data is one of `OpMap`, and its fixed fields end where the data begin (R90, R92). -/
theorem leastLength_of_dataBase {code : Byte} {base : Nat} (h : dataBase code = some base) :
    code ∈ opMapCodes ∧ leastLength code = base := by
  unfold dataBase at h
  split at h <;> cases h
  all_goals exact ⟨mem_of_toNat_mem (by rw [‹code.toNat = _›]; decide), by simp only [leastLength, ‹code.toNat = _›]⟩

/-- Settles O5: each code's layout says when its request is short and when its count is too large. -/
theorem shortRequests : Obligations.ShortRequests := by
  refine ⟨fun stale => ?_, ⟨rfl, rfl⟩, fun stale code args hcode => ?_, fun stale sub args hsub => ?_,
    fun stale code nh nl rest base hbase hleast => ?_, fun stale m p a b c d nh nl rest => ?_⟩
  · by_cases hmem : stale ∈ opMapCodes
    · rw [decodeRequest_nil, ← needsByte_iff stale hmem]
      split
      · simp [*]
      · simp [*, (decodeMain_reads [] stale hmem).short_iff]
    · simp [decodeRequest_nil_of_not_mem hmem, hmem]
  · rw [decodeRequest_main stale (ne_xprogCmd_of_mem hcode), (decodeMain_reads args code hcode).short_iff]
    have := one_le_leastLength code hcode
    omega
  · rw [decodeRequest_xprog, (decodeXprog_reads args sub hsub).short_iff]
    have := two_le_xLeastLength sub hsub
    omega
  · obtain ⟨hcode, hleastLength⟩ := leastLength_of_dataBase hbase
    have hreads := decodeMain_reads (nh :: nl :: rest) code hcode
    have hnamed : dataNamed code (nh :: nl :: rest) = (nh ++ nl).toNat := by rw [dataNamed, hbase]; rfl
    rw [hnamed, hleastLength] at hreads
    rw [decodeRequest_main stale (ne_xprogCmd_of_mem hcode), hreads.excess_iff (by simp only [List.length_cons]; omega)]
    have := one_le_leastLength code hcode
    simp only [List.length_cons]
    omega
  · rw [decodeRequest_xprog, (decodeXprog_reads _ 0x04#8 (by decide)).excess_iff (Nat.le_of_lt_succ (by simp [xLeastLength]))]
    show rest.length + 8 < 8 + (nh ++ nl).toNat ↔ _
    omega

/-- A command's encoding has its code. -/
theorem one_le_length_encode (i : Instr) : 1 ≤ (encode i).length := by
  cases i <;> simp [encode]

/-- Settles O2: a request with a code of the maps is read by its layout, and one without is no command. -/
theorem decodeAcceptsOnlyEncodings : Obligations.DecodeAcceptsOnlyEncodings := by
  intro stale body i hlen hi
  match body with
  | [] =>
    have hmem : stale ∈ opMapCodes := by
      by_contra hmem
      cases (decodeRequest_nil_of_not_mem hmem).symm.trans hi
    rw [decodeRequest_nil] at hi
    split at hi
    · cases hi
    · have hreads := decodeMain_reads [] stale hmem
      rw [hi] at hreads
      obtain ⟨hwf, hbegins⟩ := hreads.instr (Nat.le_add_left 1 274)
      exact ⟨hwf, .inr ⟨rfl, hbegins.eq_of_length_le (one_le_length_encode i)⟩⟩
  | code :: args =>
    by_cases hx : code = 0x50#8
    · subst hx
      rw [decodeRequest_xprog] at hi
      match args with
      | [] => cases hi
      | sub :: rest =>
        have hmem : sub ∈ xOpMapCodes := by
          by_contra hmem
          cases (decodeXprog_of_not_mem hmem rest).symm.trans hi
        have hreads := decodeXprog_reads rest sub hmem
        rw [hi] at hreads
        obtain ⟨hwf, hbegins⟩ := hreads.instr hlen
        exact ⟨hwf, .inl hbegins⟩
    · rw [decodeRequest_main stale hx] at hi
      have hmem : code ∈ opMapCodes := by
        by_contra hmem
        cases (decodeMain_of_not_mem hmem args).symm.trans hi
      have hreads := decodeMain_reads args code hmem
      rw [hi] at hreads
      obtain ⟨hwf, hbegins⟩ := hreads.instr hlen
      exact ⟨hwf, .inl hbegins⟩

/-! ### The round trip -/

/-- Data that are all of the rest of a request are read back whole (R90, R92, R94). -/
theorem withData_countOf {data : List Byte} (k : List Byte → Instr) (h : data.length ≤ 275) :
    withData (countOf data) data k = .instr (k data) := by
  rw [withData, toNat_countOf h, takeExact_of_le (Nat.le_refl _), List.take_length]

/-- The data of a layout that puts them past its first bytes are at most `BODY_MAX`. -/
theorem length_le_of_dataFits {base : Nat} {data : List Byte} (h : dataFits base data = true) : data.length ≤ 275 :=
  Nat.le_trans (Nat.le_add_left _ base) (of_decide_eq_true h)

theorem decodeProgramIsp_encoded (k : Byte → Byte → List Byte → List Byte → Instr) (m t : Byte) {ign data : List Byte}
    (h : (ign.length == 5 && dataFits 10 data) = true) :
    decodeProgramIsp k (halfBytes (countOf data) ++ m :: t :: ign ++ data) = .instr (k m t ign data) := by
  obtain ⟨hign, hdata⟩ := (Bool.and_eq_true _ _).mp h
  match ign, hign with
  | [i5, i6, i7, i8, i9], _ =>
    exact (congrArg (fun n => withData n data _) (be16_hiByte_loByte _)).trans
      (withData_countOf _ (length_le_of_dataFits hdata))

theorem decodeProgramHv_encoded (k : Byte → Byte → List Byte → Instr) (m t : Byte) {data : List Byte}
    (h : dataFits 5 data = true) :
    decodeProgramHv k (halfBytes (countOf data) ++ m :: t :: data) = .instr (k m t data) :=
  (congrArg (fun n => withData n data _) (be16_hiByte_loByte _)).trans (withData_countOf _ (length_le_of_dataFits h))

theorem decodeReadIsp_encoded (k : Half → Option Byte → Instr) (n : Half) (rc : Option Byte) :
    decodeReadIsp k (halfBytes n ++ rc.toList) = .instr (k n rc) := by
  have hn : decodeReadIsp k (halfBytes n ++ rc.toList) = .instr (k n rc.toList.head?) :=
    congrArg (fun n => Decoded.instr (k n _)) (be16_hiByte_loByte n)
  rw [hn, Option.head?_toList]

theorem decodeReadHv_encoded (k : Half → Instr) (n : Half) : decodeReadHv k (halfBytes n) = .instr (k n) :=
  congrArg (fun n => Decoded.instr (k n)) (be16_hiByte_loByte n)

/-- Ignored bytes that have room are all taken. -/
theorem instr_take {room : Nat} (k : List Byte → Instr) {delays : List Byte} (h : decide (delays.length ≤ room) = true) :
    Decoded.instr (k (delays.take room)) = .instr (k delays) := by
  rw [List.take_of_length_le (of_decide_eq_true h)]

theorem decodeSetControlStack_encoded {stack : List Byte} (h : stack.length = Config.csLen) :
    decodeSetControlStack stack = .instr (.setControlStack stack) := by
  rw [decodeSetControlStack, takeExact_of_le h.ge, List.take_of_length_le h.le]

/-- Settles O1: the fields of a command stand in its body in the order in which the decoder of its layout reads them. -/
theorem decodeOfEncode : Obligations.DecodeOfEncode := by
  intro i stale hwf
  cases i with
  | loadAddress addr => exact congrArg (fun a => Decoded.instr (.loadAddress a)) (be32_byteOf addr)
  | xprgErase m addr => exact congrArg (fun a => Decoded.instr (.xprgErase m a)) (be32_byteOf addr)
  | xprgReadMem m addr n =>
    exact congrArg₂ (fun a n => Decoded.instr (.xprgReadMem m a n)) (be32_byteOf addr) (be16_hiByte_loByte n)
  | xprgWriteMem m p addr data =>
    exact (congrArg₂ (fun a n => withData n data (.xprgWriteMem m p a)) (be32_byteOf addr) (be16_hiByte_loByte _)).trans
      (withData_countOf _ (length_le_of_dataFits hwf))
  | programFlashIsp | programEepromIsp => exact decodeProgramIsp_encoded _ _ _ hwf
  | programFlashPp | programEepromPp | programFlashHvsp | programEepromHvsp => exact decodeProgramHv_encoded _ _ _ hwf
  | readFlashIsp | readEepromIsp => exact decodeReadIsp_encoded _ _ _
  | readFlashPp | readEepromPp | readFlashHvsp | readEepromHvsp => exact decodeReadHv_encoded _ _
  | leaveProgmodeIsp | leaveProgmodePp | leaveProgmodeHvsp | enterProgmodePp | enterProgmodeHvsp => exact instr_take _ hwf
  | setControlStack => exact decodeSetControlStack_encoded (of_decide_eq_true hwf)
  | chipEraseHvsp t eraseTime => cases eraseTime <;> rfl
  | _ => rfl

/-- Settles O3: the bodies are closed terms, and the decoder runs on them. -/
theorem specRequestsDecode : Obligations.SpecRequestsDecode := by
  unfold Obligations.SpecRequestsDecode
  decide

end Sys2Proof.Machine
end

section
/-! The framer in `Body` and at its ends (40_framing.md R111, R112, R118 to R120): what `FeedByte` does with one byte, as one equation
per branch. -/

namespace Sys2Proof.Machine

/-- `FeedByte` in `Body` takes the byte from the port as a body byte (R111). -/
theorem feedByte_of_body {s : State} {b : Byte} {rest : List Byte} (hfs : s.fs = .body) (hrx : s.rx = b :: rest) :
    feedByte s = feedBody b { s with rx := rest } := by
  simp only [feedByte, hfs, hrx]

/-- Without a byte and without a request `FeedByte` waits (R111). -/
theorem feedByte_of_empty {s : State} (hfs : s.fs ≠ .complete) (hrx : s.rx = []) :
    feedByte s = .next (s.returning .incomplete) := by
  cases hphase : s.fs <;> simp only [feedByte, hphase, hrx, ne_eq, not_true_eq_false, reduceCtorEq] at hfs ⊢

/-- While a request is held `FeedByte` has no meaning (R112). -/
theorem feedByte_of_complete {s : State} (hfs : s.fs = .complete) : feedByte s = .fault .feedWhileComplete := by
  simp only [feedByte, hfs]

/-- Settles O10: the two ends of `FeedByte`. -/
theorem feedByteWaits : Obligations.FeedByteWaits := fun _ =>
  ⟨fun hfs hrx => feedByte_of_empty hfs hrx, feedByte_of_complete⟩

/-- A byte before the last is stored in the body (R118). -/
theorem State.storeBody_of_lt {s : State} (b : Byte) (h : s.nread.toNat < s.len.toNat) :
    s.storeBody b = { s.writeBody s.nread.toNat b with cks := s.cks ^^^ b, nread := s.nread + 1#16 } := by
  rw [State.storeBody, if_pos (BitVec.lt_def.mpr h)]
  rfl

/-- A body byte that exists is stored, and then the count decides (R118). -/
theorem feedBody_eq {s : State} (b : Byte) (hlen : s.len.toNat ≤ 275) :
    feedBody b s = if s.nread + 1#16 < s.nwant then .next ((s.storeBody b).returning .incomplete)
      else endBody (s.storeBody b) := by
  have hindex : ¬ (s.nread < s.len ∧ Config.bodyMax ≤ s.nread.toNat) := by
    simp only [Config.bodyMax]
    bv_omega
  rw [← State.storeBody_nread s b, ← State.storeBody_nwant s b, feedBody, if_neg hindex]
  rfl

/-- Before the checksum byte the body goes on (R118). -/
theorem feedBody_of_lt {s : State} (b : Byte) (hlen : s.len.toNat ≤ 275) (hwant : s.nwant = s.len + 1#16)
    (h : s.nread.toNat < s.len.toNat) : feedBody b s = .next ((s.storeBody b).returning .incomplete) := by
  rw [feedBody_eq b hlen, if_pos (by rw [hwant]; bv_omega)]

/-- At the checksum byte the body ends (R119, R120). -/
theorem feedBody_of_eq {s : State} (b : Byte) (hlen : s.len.toNat ≤ 275) (hwant : s.nwant = s.len + 1#16)
    (h : s.nread = s.len) : feedBody b s = endBody { s with cks := s.cks ^^^ b, nread := s.nread + 1#16 } := by
  rw [feedBody_eq b hlen, if_neg (by rw [hwant, h]; bv_omega), State.storeBody_of_not_lt b (by rw [h]; bv_omega)]

/-- A message whose bytes give zero is a request (R119). -/
theorem endBody_of_zero {s : State} (h : s.cks = 0x00#8) :
    endBody s = .next ({ s with fs := .complete }.returning (.command (s.bodyByte 0))) := if_pos h

/-- A message whose bytes give anything else is answered with the checksum error (R120). -/
theorem endBody_of_ne_zero {s : State} (h : s.cks ≠ 0x00#8) :
    endBody s = .next ((s.sent 0 Config.stCksum Config.cksumRespLen).returning .checksumError) := by
  rw [endBody, if_neg h, checksumError_eq]

/-- Settles O9: before the last byte the buffer is written at `NREAD`; at the last one the checksum decides. -/
theorem feedByteBody : Obligations.FeedByteBody := by
  intro s b rest hfs hrx hlen hwant hread
  rw [feedByte_of_body hfs hrx]
  refine ⟨fun hlt => ?_, fun heq hcks => ?_, fun heq hcks => ?_⟩
  · rw [feedBody_of_lt (s := { s with rx := rest }) b hlen hwant hlt, State.storeBody_of_lt (s := { s with rx := rest }) b hlt]
    exact ⟨_, rfl, rfl, s.bodyByte_writeBody s.nread.toNat b⟩
  · rw [feedBody_of_eq (s := { s with rx := rest }) b hlen hwant heq, endBody_of_zero hcks, ← hcks]
    rfl
  · rw [feedBody_of_eq (s := { s with rx := rest }) b hlen hwant heq, endBody_of_ne_zero hcks, ← State.tx_sent_one s Config.stCksum]
    exact ⟨_, rfl, rfl, State.bodyByte_sent _ 0 Config.stCksum Config.cksumRespLen⟩

end Sys2Proof.Machine
end

section
/-! Messages fed byte by byte (40_framing.md R113 to R120, R126, R127): the state after a part of a header and after a part of a body,
as one state each, and from them the run over a whole message with a right and with a wrong checksum. -/

namespace Sys2Proof.Machine

/-! ### Runs -/

/-- `k` steps of the machine, as the host's interface runs them. -/
def runFor (k : Nat) (s : State) : Result := Sys2Proof.core.run k s

theorem runFor_zero (s : State) : runFor 0 s = .next s := rfl

/-- A step that answers is the first of a run. -/
theorem runFor_succ {s t : State} (h : step s = .next t) (k : Nat) : runFor (k + 1) s = runFor k t := by
  have hcore : Sys2Proof.core.step s = .next t := h
  simp only [runFor, Host.Core.run, hcore]
  rfl

/-- A run of one step is the step. -/
theorem runFor_one (s : State) : runFor 1 s = step s := by
  have hcore : Sys2Proof.core.step s = step s := rfl
  cases h : step s <;> simp only [runFor, Host.Core.run, hcore, h] <;> rfl

/-- A run whose first step answers goes through it, and another stops there. -/
theorem runFor_succ_eq_next {k : Nat} {s u : State} (h : runFor (k + 1) s = .next u) :
    ∃ t, step s = .next t ∧ runFor k t = .next u := by
  have hcore : Sys2Proof.core.step s = step s := rfl
  cases hstep : step s with
  | next t => exact ⟨t, rfl, (runFor_succ hstep k).symm.trans h⟩
  | fault | refused =>
    simp only [runFor, Host.Core.run, hcore, hstep] at h
    cases h

/-- A run goes on from where a shorter one ended. -/
theorem runFor_add {m n : Nat} {s t : State} (h : runFor m s = .next t) : runFor (m + n) s = runFor n t := by
  induction m generalizing s with
  | zero =>
    cases h
    rw [Nat.zero_add]
  | succ m ih =>
    obtain ⟨u, hstep, hrun⟩ := runFor_succ_eq_next h
    rw [Nat.succ_add, runFor_succ hstep, ih hrun]

/-- An engine that holds no request, with no fault and no call before it, feeds a byte (R11). -/
theorem step_of_feeding {s : State} (hfault : s.faultMark = none) (hcalls : s.calls = []) (hfs : s.fs ≠ .complete) :
    step s = feedByte s := by
  simp only [step, hfault, hcalls, if_neg hfs]

/-- A run over bytes, where one step takes one byte from the port to the end of those that have arrived. -/
theorem run_over_bytes {f : List Byte → List Byte → State} {room : Nat}
    (h : ∀ got b rest, got.length < room → step (f got (b :: rest)) = .next (f (got ++ [b]) rest))
    (bs got rest : List Byte) (hroom : got.length + bs.length ≤ room) :
    runFor bs.length (f got (bs ++ rest)) = .next (f (got ++ bs) rest) := by
  induction bs generalizing got with
  | nil => rw [List.append_nil]; rfl
  | cons b bs ih =>
    rw [List.length_cons] at hroom
    have hgot : (got ++ [b]).length = got.length + 1 := List.length_append
    rw [List.length_cons, List.cons_append, runFor_succ (h got b _ (by omega)), ih _ (by omega), List.append_assoc]
    rfl

/-! ### The header -/

/-- The state once the first bytes `got` of a header have arrived and `rest` waits in the port (R114, R115). -/
def State.inHeader (s : State) (got rest : List Byte) : State :=
  { s with
    fs := .header
    hdr := got ++ s.hdr.drop got.length
    nread := BitVec.ofNat 16 got.length
    nwant := 5#16
    cks := xorAll 0#8 got
    rx := rest
    feedResult := some .incomplete }

/-- The state once a header has been accepted and the first bytes `got` of its body have arrived (R117, R118). -/
def State.inBody (s : State) (hdr : List Byte) (seq : Byte) (len : Half) (got rest : List Byte) : State :=
  { s.writeBodyFrom 0 got with
    fs := .body
    hdr := hdr
    nread := BitVec.ofNat 16 got.length
    nwant := len + 1#16
    cks := xorAll 0#8 (hdr ++ got)
    seq := seq
    len := len
    rx := rest
    feedResult := some .incomplete }

/-- What a reception asks of the engine it begins in. -/
structure Receives (s : State) : Prop where
  idle : s.fs = .idle
  fault : s.faultMark = none
  calls : s.calls = []
  hdr : s.hdr.length = 5

section
variable {s : State}

/-- The start marker opens a header (R114). -/
theorem step_start (hs : Receives s) {rest : List Byte} (hrx : s.rx = Config.start :: rest) :
    step s = .next (s.inHeader [Config.start] rest) := by
  have hset : s.hdr.set 0 Config.start = [Config.start] ++ s.hdr.drop 1 := by
    rcases hdr : s.hdr with _ | ⟨h, hs'⟩
    · exact absurd hs.hdr (by simp [hdr])
    · rfl
  rw [step_of_feeding hs.fault hs.calls (by rw [hs.idle]; nofun), feedByte_of_idle hs.idle hrx, feedIdle_start, hset]
  rfl

/-- A header byte stored behind those that have arrived. -/
theorem State.storeHeader_inHeader (hs : Receives s) (got : List Byte) (b : Byte) (rest : List Byte) (h : got.length < 5) :
    ({ s.inHeader got (b :: rest) with rx := rest } : State).storeHeader b = s.inHeader (got ++ [b]) rest := by
  have hread : (BitVec.ofNat 16 got.length).toNat = got.length := by
    rw [BitVec.toNat_ofNat]
    omega
  have hset : (got ++ s.hdr.drop got.length).set got.length b = got ++ [b] ++ s.hdr.drop (got.length + 1) := by
    rw [List.set_append_right got.length b (Nat.le_refl _), Nat.sub_self,
      List.drop_eq_getElem_cons (by rw [hs.hdr]; exact h), List.set_cons_zero, List.append_assoc]
    rfl
  simp only [State.storeHeader, State.inHeader, hread, hset, xorAll_append, xorAll_cons, xorAll_nil, List.length_append,
    List.length_singleton, BitVec.ofNat_add]

/-- `FeedByte` while a header arrives. -/
theorem step_inHeader (hs : Receives s) (got rest : List Byte) :
    step (s.inHeader got rest) = feedByte (s.inHeader got rest) :=
  step_of_feeding hs.fault hs.calls nofun

/-- The second to fourth header bytes arrive (R115). -/
theorem run_inHeader (hs : Receives s) (bs rest : List Byte) (h : bs.length ≤ 3) :
    runFor bs.length (s.inHeader [Config.start] (bs ++ rest))
      = .next (s.inHeader (Config.start :: bs) rest) := by
  refine run_over_bytes (f := s.inHeader) (room := 4) (fun got b rest hgot => ?_) bs [Config.start] rest
    (by simp only [List.length_singleton]; omega)
  have hread : ({ s.inHeader got (b :: rest) with rx := rest } : State).nread.toNat < 4 := by
    simp only [State.inHeader, BitVec.toNat_ofNat]
    omega
  rw [step_inHeader hs, feedByte_of_header rfl rfl, feedHeader_before_fifth b rfl hread,
    State.storeHeader_inHeader hs got b rest (by omega)]
  rfl

/-- The fifth header byte arrives and the header is judged (R116, R117). -/
theorem step_fifth (hs : Receives s) (b1 b2 b3 b4 : Byte) (rest : List Byte) :
    step (s.inHeader [Config.start, b1, b2, b3] (b4 :: rest))
      = acceptHeader (s.inHeader [Config.start, b1, b2, b3, b4] rest) := by
  rw [step_inHeader hs, feedByte_of_header rfl rfl, feedHeader_fifth b4 rfl rfl,
    State.storeHeader_inHeader hs [Config.start, b1, b2, b3] b4 rest (by decide : 4 < 5)]
  rfl

/-- The run over the first `k` bytes of a header, before the fifth. -/
theorem run_to_inHeader (hs : Receives s) (bs rest : List Byte) (h : bs.length ≤ 3)
    (hrx : s.rx = Config.start :: (bs ++ rest)) :
    runFor (bs.length + 1) s = .next (s.inHeader (Config.start :: bs) rest) := by
  rw [runFor_succ (step_start hs hrx), run_inHeader hs bs rest h]

/-- The run over a whole header. -/
theorem run_header (hs : Receives s) {b1 b2 b3 b4 : Byte} {rest : List Byte}
    (hrx : s.rx = Config.start :: b1 :: b2 :: b3 :: b4 :: rest) :
    runFor 5 s = acceptHeader (s.inHeader [Config.start, b1, b2, b3, b4] rest) := by
  have h4 := run_to_inHeader hs [b1, b2, b3] (b4 :: rest) (Nat.le_refl 3) hrx
  rw [runFor_add (m := 4) (n := 1) h4, runFor_one, step_fifth hs]

/-- A header with a byte in the place of the token is dropped (R116). -/
theorem run_header_wrong_token (hs : Receives s) {b1 b2 b3 b4 : Byte} {rest : List Byte}
    (hrx : s.rx = Config.start :: b1 :: b2 :: b3 :: b4 :: rest) (h : b4 ≠ Config.token) :
    runFor 5 s = .next (s.inHeader [Config.start, b1, b2, b3, b4] rest).rejected :=
  (run_header hs hrx).trans (acceptHeader_wrong_token h)

/-- A header with the token and a length past the buffer is dropped (R116). -/
theorem run_header_too_long (hs : Receives s) {b1 b2 b3 : Byte} {rest : List Byte}
    (hrx : s.rx = Config.start :: b1 :: b2 :: b3 :: Config.token :: rest) (h : 275 < (be16 b2 b3).toNat) :
    runFor 5 s = .next (s.inHeader [Config.start, b1, b2, b3, Config.token] rest).rejected :=
  (run_header hs hrx).trans (acceptHeader_too_long rfl h)

/-- A header with the token and a length that fits is accepted, and the body begins (R117). -/
theorem run_header_accepted (hs : Receives s) {b1 b2 b3 : Byte} {rest : List Byte}
    (hrx : s.rx = Config.start :: b1 :: b2 :: b3 :: Config.token :: rest) (h : (be16 b2 b3).toNat ≤ 275) :
    runFor 5 s
      = .next (s.inBody [Config.start, b1, b2, b3, Config.token] b1 (be16 b2 b3) [] rest) := by
  have hhdr : s.hdr.drop 5 = [] := List.drop_eq_nil_of_le hs.hdr.le
  have hannounced : (s.inHeader [Config.start, b1, b2, b3, Config.token] rest).announced = be16 b2 b3 := rfl
  rw [run_header hs hrx, acceptHeader_accepts rfl (hannounced ▸ h), hannounced]
  simp only [State.inBody, State.inHeader, State.returning, State.writeBodyFrom, hhdr, List.length_cons, List.length_nil,
    List.append_nil]
  rfl

/-! ### The body -/

/-- The bytes of a run of writes and of one more are one run. -/
theorem State.writeBodyFrom_concat (s : State) (a : Nat) (bs : List Byte) (b : Byte) :
    s.writeBodyFrom a (bs ++ [b]) = (s.writeBodyFrom a bs).writeBody (a + bs.length) b := by
  induction bs generalizing s a with
  | nil => rfl
  | cons c bs ih =>
    rw [List.cons_append, State.writeBodyFrom, ih, State.writeBodyFrom, List.length_cons, Nat.add_right_comm, Nat.add_assoc]

/-- The count of body bytes that have arrived, where they fit. -/
theorem toNat_nread_inBody {got : List Byte} (h : got.length ≤ 275) : (BitVec.ofNat 16 got.length).toNat = got.length := by
  rw [BitVec.toNat_ofNat]
  omega

/-- `FeedByte` while a body arrives. -/
theorem step_inBody (hs : Receives s) (hdr : List Byte) (seq : Byte) (len : Half) (got : List Byte) (b : Byte)
    (rest : List Byte) :
    step (s.inBody hdr seq len got (b :: rest)) = feedBody b { s.inBody hdr seq len got (b :: rest) with rx := rest } := by
  have hfault : (s.inBody hdr seq len got (b :: rest)).faultMark = none :=
    (s.writeBodyFrom_faultMark 0 got).trans hs.fault
  have hcalls : (s.inBody hdr seq len got (b :: rest)).calls = [] := (s.writeBodyFrom_calls 0 got).trans hs.calls
  rw [step_of_feeding hfault hcalls nofun, feedByte_of_body rfl rfl]

/-- A body byte before the last arrives (R118). -/
theorem step_inBody_of_lt (hs : Receives s) (hdr : List Byte) (seq : Byte) {len : Half} (hlen : len.toNat ≤ 275)
    (got : List Byte) (b : Byte) (rest : List Byte) (h : got.length < len.toNat) :
    step (s.inBody hdr seq len got (b :: rest)) = .next (s.inBody hdr seq len (got ++ [b]) rest) := by
  have hread := toNat_nread_inBody (got := got) (by omega)
  have hlt : ({ s.inBody hdr seq len got (b :: rest) with rx := rest } : State).nread.toNat < len.toNat :=
    hread.trans_lt h
  rw [step_inBody hs, feedBody_of_lt b hlen rfl hlt, State.storeBody_of_lt b hlt]
  simp only [State.inBody, State.returning, hread, State.writeBodyFrom_concat, Nat.zero_add, List.length_append,
    List.length_singleton, BitVec.ofNat_add, ← List.append_assoc, xorAll_append _ _ [b], xorAll_cons, xorAll_nil]
  rfl

/-- The state once the checksum byte has been folded in: `c` is what the whole message gives (R118). -/
def State.atChecksum (s : State) (hdr : List Byte) (seq : Byte) (len : Half) (body : List Byte) (c : Byte)
    (rest : List Byte) : State :=
  { s.inBody hdr seq len body rest with cks := c, nread := len + 1#16 }

/-- The checksum byte arrives and the body ends (R118 to R120). -/
theorem step_inBody_of_eq (hs : Receives s) (hdr : List Byte) (seq : Byte) {len : Half} (hlen : len.toNat ≤ 275)
    (body : List Byte) (b : Byte) (rest : List Byte) (h : body.length = len.toNat) :
    step (s.inBody hdr seq len body (b :: rest))
      = endBody (s.atChecksum hdr seq len body (xorAll 0#8 (hdr ++ body) ^^^ b) rest) := by
  have hread : BitVec.ofNat 16 body.length = len := by rw [h, BitVec.ofNat_toNat, BitVec.setWidth_eq]
  rw [step_inBody hs, feedBody_of_eq b hlen rfl hread]
  simp only [State.inBody, State.atChecksum, hread]

/-- The run over the first bytes `bs` of a message's body. -/
theorem run_to_inBody (hs : Receives s) {seq hi lo : Byte} {bs rest : List Byte}
    (hrx : s.rx = Config.start :: seq :: hi :: lo :: Config.token :: (bs ++ rest)) (hlen : (be16 hi lo).toNat ≤ 275)
    (h : bs.length ≤ (be16 hi lo).toNat) :
    runFor (5 + bs.length) s
      = .next (s.inBody [Config.start, seq, hi, lo, Config.token] seq (be16 hi lo) bs rest) := by
  rw [runFor_add (run_header_accepted hs hrx hlen)]
  exact run_over_bytes (fun got b rest hgot => step_inBody_of_lt hs _ seq hlen got b rest hgot) bs [] rest
    (by simpa using h)

/-- The run over a whole message of the announced length. -/
theorem run_message (hs : Receives s) {seq hi lo ck : Byte} {body rest : List Byte}
    (hrx : s.rx = Config.start :: seq :: hi :: lo :: Config.token :: (body ++ ck :: rest))
    (hlen : body.length = (be16 hi lo).toNat) (hfits : body.length ≤ 275) :
    runFor (body.length + 6) s = endBody (s.atChecksum [Config.start, seq, hi, lo, Config.token] seq (be16 hi lo) body
      (xorAll 0#8 ([Config.start, seq, hi, lo, Config.token] ++ body) ^^^ ck) rest) := by
  have hbody := run_to_inBody hs hrx (hlen ▸ hfits) hlen.le
  rw [show body.length + 6 = 5 + body.length + 1 by omega, runFor_add hbody, runFor_one,
    step_inBody_of_eq hs _ seq (hlen ▸ hfits) body ck rest hlen]

/-- What a reception leaves alone: everything but the framer's registers, the buffer and the port. -/
theorem atChecksum_keeps (s : State) (hdr : List Byte) (seq : Byte) (len : Half) (body : List Byte) (c : Byte)
    (rest : List Byte) (f : FramerState) (m : Memory) (x : List Byte) (r : Option FeedResult) :
    let t := { s.atChecksum hdr seq len body c rest with fs := f, buf := m, tx := x, feedResult := r }
    SessionKept s t ∧ DrawsKept s t ∧ t.prevPage = s.prevPage ∧ t.trace = s.trace := by
  simp [State.atChecksum, State.inBody, SessionKept, DrawsKept]

/-! ### Valid and corrupted messages -/

/-- A message, with its checksum byte apart (R71). -/
theorem encodeMessage_eq (seq : Byte) (body : List Byte) :
    encodeMessage seq body = Config.start :: seq :: hiByte (countOf body) :: loByte (countOf body) :: Config.token ::
      (body ++ [xorAll 0#8 ([Config.start, seq, hiByte (countOf body), loByte (countOf body), Config.token] ++ body)]) :=
  rfl

/-- The announced length of a message is that of its body (R71). -/
theorem be16_countOf {body : List Byte} (h : body.length ≤ 275) :
    body.length = (be16 (hiByte (countOf body)) (loByte (countOf body))).toNat := by
  rw [be16_hiByte_loByte, toNat_countOf h]

/-- The state that holds the request of a message received whole (R119). -/
def State.received (s : State) (seq : Byte) (body rest : List Byte) : State :=
  let t := s.atChecksum [Config.start, seq, hiByte (countOf body), loByte (countOf body), Config.token] seq (countOf body)
    body 0x00#8 rest
  { t with fs := .complete, feedResult := some (.command (t.bodyByte 0)) }

/-- The run over a valid message (R119, R126). -/
theorem run_encodeMessage (hs : Receives s) {seq : Byte} {body rest : List Byte} (hfits : body.length ≤ 275)
    (hrx : s.rx = encodeMessage seq body ++ rest) :
    runFor (body.length + 6) s = .next (s.received seq body rest) := by
  rw [encodeMessage_eq, List.cons_append, List.cons_append, List.cons_append, List.cons_append, List.cons_append,
    List.append_assoc, List.singleton_append] at hrx
  rw [run_message hs hrx (be16_countOf hfits) hfits, BitVec.xor_self, be16_hiByte_loByte, endBody_of_zero rfl]
  rfl

theorem received_keeps (s : State) (seq : Byte) (body rest : List Byte) :
    SessionKept s (s.received seq body rest) ∧ DrawsKept s (s.received seq body rest) ∧
      (s.received seq body rest).prevPage = s.prevPage ∧ (s.received seq body rest).trace = s.trace :=
  atChecksum_keeps s _ seq (countOf body) body 0x00#8 rest .complete (s.writeBodyFrom 0 body).buf
    (s.writeBodyFrom 0 body).tx (some (.command _))

/-- The buffer of a received request holds the body, and beyond it what it held before (R118). -/
theorem bodyByte_received (s : State) (seq : Byte) (body rest : List Byte) (a : Nat) :
    (s.received seq body rest).bodyByte a = if a < body.length then body.getD a 0#8 else s.bodyByte a := by
  have hwritten : (s.received seq body rest).bodyByte a = (s.writeBodyFrom 0 body).bodyByte a := rfl
  simpa only [Nat.zero_le, true_and, Nat.zero_add, Nat.sub_zero] using hwritten.trans (s.bodyByte_writeBodyFrom 0 body a)

/-- The request received is the body of the message (R126). -/
theorem bodyFrom_received (s : State) (seq : Byte) (body rest : List Byte) :
    (s.received seq body rest).bodyFrom 0 body.length = body :=
  State.bodyFrom_eq_list _ 0 body fun x hx => by rw [Nat.zero_add, bodyByte_received, if_pos hx]

/-- A valid message is `Incomplete` after each byte before its last (R126). -/
theorem run_incomplete (hs : Receives s) {seq : Byte} {body rest : List Byte} (hfits : body.length ≤ 275)
    (hrx : s.rx = encodeMessage seq body ++ rest) {k : Nat} (hpos : 1 ≤ k) (hk : k < body.length + 6) :
    ∃ u : State, runFor k s = .next u ∧ u.feedResult = some .incomplete := by
  rw [encodeMessage_eq] at hrx
  by_cases hheader : k ≤ 4
  · let fields := [seq, hiByte (countOf body), loByte (countOf body)]
    have htaken : (fields.take (k - 1)).length = k - 1 := List.length_take_of_le (by simp only [fields, List.length_cons]; omega)
    have hrun := run_to_inHeader hs (fields.take (k - 1)) (fields.drop (k - 1) ++ _) (by omega)
      (by rw [← List.append_assoc, List.take_append_drop]; exact hrx)
    rw [htaken, Nat.sub_add_cancel hpos] at hrun
    exact ⟨_, hrun, rfl⟩
  · have htaken : (body.take (k - 5)).length = k - 5 := List.length_take_of_le (by omega)
    have hrun := run_to_inBody hs (bs := body.take (k - 5)) (rest := body.drop (k - 5) ++ _)
      (by rw [← List.append_assoc, List.take_append_drop, hrx]; simp only [List.cons_append, List.append_assoc]; rfl)
      (be16_countOf hfits ▸ hfits) (by rw [htaken, ← be16_countOf hfits]; omega)
    rw [htaken, show 5 + (k - 5) = k by omega] at hrun
    exact ⟨_, hrun, rfl⟩

/-- One changed byte changes the exclusive or by the difference of the bytes (R73, R127). -/
theorem xorAll_set (c : Byte) {bs : List Byte} {j : Nat} (h : j < bs.length) (b : Byte) :
    xorAll c (bs.set j b) = xorAll c bs ^^^ (bs[j] ^^^ b) := by
  induction bs generalizing c j with
  | nil => exact absurd h (Nat.not_lt_zero j)
  | cons a bs ih =>
    cases j with
    | zero =>
      rw [List.set_cons_zero, xorAll_cons, xorAll_cons, xorAll_start (c ^^^ b), xorAll_start (c ^^^ a), List.getElem_cons_zero]
      have hself : a ^^^ a = 0#8 := BitVec.xor_self
      calc c ^^^ b ^^^ xorAll 0#8 bs = c ^^^ b ^^^ xorAll 0#8 bs ^^^ (a ^^^ a) := by rw [hself, BitVec.xor_zero]
        _ = c ^^^ a ^^^ xorAll 0#8 bs ^^^ (a ^^^ b) := by ac_rfl
    | succ j => exact ih (c ^^^ a) (Nat.lt_of_succ_lt_succ h)

/-- A message with one changed byte does not give zero (R73, R127). -/
theorem xorAll_corrupted_ne_zero {seq : Byte} {body : List Byte} {j : Nat} {b : Byte} (hj : j < body.length + 6)
    (hb : (encodeMessage seq body)[j]? ≠ some b) : xorAll 0#8 ((encodeMessage seq body).set j b) ≠ 0x00#8 := by
  have hlt : j < (encodeMessage seq body).length := by rwa [length_encodeMessage]
  rw [List.getElem?_eq_getElem hlt] at hb
  rw [xorAll_set 0#8 hlt, xorAll_encodeMessage, BitVec.zero_xor]
  intro hzero
  exact hb (congrArg some (BitVec.xor_eq_zero_iff.mp hzero))

/-- A message whose changed byte is none of START, the length and TOKEN is framed as before: the same length, another sequence number,
body or checksum (R127). -/
theorem corrupted_framing (seq : Byte) (body : List Byte) {j : Nat} (b : Byte) (h : j = 1 ∨ 5 ≤ j) :
    ∃ (body' : List Byte) (ck : Byte), body'.length = body.length ∧
      (encodeMessage seq body).set j b = Config.start :: (if j = 1 then b else seq) :: hiByte (countOf body) ::
        loByte (countOf body) :: Config.token :: (body' ++ [ck]) := by
  rcases h with rfl | h
  · exact ⟨body, _, rfl, rfl⟩
  · obtain ⟨i, rfl⟩ : ∃ i, j = i + 5 := ⟨j - 5, by omega⟩
    rw [if_neg (by omega), encodeMessage_eq]
    simp only [List.set_cons_succ]
    generalize xorAll 0#8 _ = ck
    have hlen : ((body ++ [ck]).set i b).length = body.length + 1 := by rw [List.length_set, List.length_append]; rfl
    have hne : (body ++ [ck]).set i b ≠ [] := List.ne_nil_of_length_eq_add_one hlen
    refine ⟨((body ++ [ck]).set i b).dropLast, ((body ++ [ck]).set i b).getLast hne, ?_, ?_⟩
    · rw [List.length_dropLast, hlen, Nat.add_sub_cancel]
    · rw [List.dropLast_concat_getLast]

/-- The run over a message whose bytes do not give zero: one response, and the framer is idle (R120). -/
theorem run_message_bad (hs : Receives s) {seq hi lo ck : Byte} {body rest : List Byte}
    (hrx : s.rx = Config.start :: seq :: hi :: lo :: Config.token :: (body ++ ck :: rest))
    (hlen : body.length = (be16 hi lo).toNat) (hfits : body.length ≤ 275)
    (hck : xorAll 0#8 (Config.start :: seq :: hi :: lo :: Config.token :: (body ++ [ck])) ≠ 0x00#8) :
    ∃ t : State, runFor (body.length + 6) s = .next t ∧ t.feedResult = some .checksumError ∧ t.fs = .idle ∧ t.rx = rest ∧
      t.tx = s.tx ++ encodeMessage seq [Config.stCksum] ∧ SessionKept s t ∧ t.prevPage = s.prevPage ∧
      t.trace = s.trace := by
  have hcks : xorAll 0#8 ([Config.start, seq, hi, lo, Config.token] ++ body) ^^^ ck ≠ 0x00#8 := by
    have hall : xorAll 0#8 ([Config.start, seq, hi, lo, Config.token] ++ body ++ [ck]) ≠ 0x00#8 := hck
    rwa [xorAll_append] at hall
  rw [run_message hs hrx hlen hfits, endBody_of_ne_zero hcks]
  refine ⟨_, rfl, rfl, rfl, rfl, ?_, ?_⟩
  · refine (State.tx_sent_one _ Config.stCksum).trans ?_
    exact congrArg (· ++ _) (s.writeBodyFrom_tx 0 body)
  · obtain ⟨hsession, -, hpage, htrace⟩ := atChecksum_keeps s [Config.start, seq, hi, lo, Config.token] seq (be16 hi lo) body
      (xorAll 0#8 ([Config.start, seq, hi, lo, Config.token] ++ body) ^^^ ck) rest .idle _ _ (some .checksumError)
    exact ⟨hsession, hpage, htrace⟩

/-- A message with a changed length byte announces another length (R127). -/
theorem corrupted_length (seq : Byte) (body : List Byte) {j : Nat} (b : Byte) (h : j = 2 ∨ j = 3) :
    (encodeMessage seq body).set j b = Config.start :: seq :: (if j = 2 then b else hiByte (countOf body)) ::
      (if j = 3 then b else loByte (countOf body)) :: Config.token ::
      (body ++ [xorAll 0#8 ([Config.start, seq, hiByte (countOf body), loByte (countOf body), Config.token] ++ body)]) := by
  rcases h with rfl | rfl <;> rfl

/-- The length announced is another one, as one of its bytes is (R127). -/
theorem corrupted_length_ne {seq : Byte} {body : List Byte} {j : Nat} {b : Byte} (h : j = 2 ∨ j = 3)
    (hb : (encodeMessage seq body)[j]? ≠ some b) :
    be16 (if j = 2 then b else hiByte (countOf body)) (if j = 3 then b else loByte (countOf body)) ≠ countOf body := by
  intro heq
  have hbytes := congrArg halfBytes heq
  rw [halfBytes_be16, halfBytes, List.cons.injEq, List.cons.injEq] at hbytes
  obtain ⟨hhi, hlo, -⟩ := hbytes
  rcases h with rfl | rfl
  · exact hb (congrArg some hhi.symm)
  · exact hb (congrArg some hlo.symm)

end

/-- Settles O13: the run over a message is a run over its header and one over its body, and each state on the way is known. -/
theorem messageRoundTrip : Obligations.MessageRoundTrip := by
  intro s seq body more hidle hfault hcalls hhdr hfits hrx
  have hs : Receives s := ⟨hidle, hfault, hcalls, hhdr⟩
  obtain ⟨hsession, hdraws, hpage, htrace⟩ := received_keeps s seq body more
  refine ⟨fun k hpos hk => run_incomplete hs hfits hrx hpos hk, s.received seq body more, run_encodeMessage hs hfits hrx,
    rfl, rfl, rfl, toNat_countOf hfits, bodyFrom_received s seq body more, fun a ha => ?_, rfl, ?_, hsession, hdraws, hpage,
    htrace⟩
  · rw [bodyByte_received, if_neg (Nat.not_lt.mpr ha)]
  · exact s.writeBodyFrom_tx 0 body

/-- Settles O14: a byte that keeps the framing is met by the checksum, a byte of the framing by the header's own checks. -/
theorem corruptionDetected : Obligations.CorruptionDetected := by
  intro s seq body more j b hidle hfault hcalls hhdr hfits hj hb hrx l
  have hs : Receives s := ⟨hidle, hfault, hcalls, hhdr⟩
  refine ⟨fun hframed => ?_, ?_, fun hrejected => ?_, fun ⟨hlen, hl⟩ => ?_⟩
  · obtain ⟨body', ck, hbody', hset⟩ := corrupted_framing seq body b hframed
    have hbad := xorAll_corrupted_ne_zero hj hb
    rw [hset] at hrx hbad
    have hrun := run_message_bad hs (ck := ck) (body := body') (rest := more)
      (hrx.trans (by simp only [List.cons_append, List.append_assoc]; rfl)) (by rw [hbody', ← be16_countOf hfits])
      (hbody' ▸ hfits) hbad
    rwa [hbody'] at hrun
  · rintro rfl
    have hne : b ≠ Config.start := fun h => hb (congrArg some h.symm)
    have hstep : step s = .next (({ s with rx := _ } : State).returning .headerError) :=
      (step_of_feeding hfault hcalls (by rw [hidle]; nofun)).trans
        ((feedByte_of_idle hidle hrx).trans (feedIdle_of_ne_start _ hne))
    exact ⟨_, (runFor_one s).trans hstep, rfl, hidle, rfl⟩
  · rcases hrejected with rfl | ⟨hlen, hl⟩
    · have hne : b ≠ Config.token := fun h => hb (congrArg some h.symm)
      exact ⟨_, run_header_wrong_token hs hrx hne, rfl, rfl, rfl⟩
    · rw [corrupted_length seq body b hlen] at hrx
      exact ⟨_, run_header_too_long hs hrx hl, rfl, rfl, rfl⟩
  · rw [corrupted_length seq body b hlen] at hrx
    refine ⟨_, run_header_accepted hs hrx hl, rfl, rfl, fun hsame => corrupted_length_ne hlen hb ?_⟩
    exact BitVec.eq_of_toNat_eq (hsame.trans (toNat_countOf hfits).symm)

end Sys2Proof.Machine
end

section
/-! End to end (40_framing.md R126, 41_dispatch.md R141): the message of a command, received, is dispatched as that command. -/

namespace Sys2Proof.Machine

/-- Every well-formed command fits in a body (R74). -/
theorem encode_fits (i : Instr) : Laws.EncodeFits.Statement i := by
  cases i
  exacts [
    Laws.EncodeFits.setParameter _ _, Laws.EncodeFits.loadAddress _, Laws.EncodeFits.enterProgmodeIsp _ _ _ _ _,
    Laws.EncodeFits.leaveProgmodeIsp _, Laws.EncodeFits.chipEraseIsp _ _ _, Laws.EncodeFits.programFlashIsp _ _ _ _,
    Laws.EncodeFits.readFlashIsp _ _, Laws.EncodeFits.programEepromIsp _ _ _ _, Laws.EncodeFits.readEepromIsp _ _,
    Laws.EncodeFits.programFuseIsp _, Laws.EncodeFits.readFuseIsp _ _, Laws.EncodeFits.programLockIsp _,
    Laws.EncodeFits.readLockIsp _ _, Laws.EncodeFits.readSignatureIsp _ _, Laws.EncodeFits.readOsccalIsp _ _,
    Laws.EncodeFits.enterProgmodePp _, Laws.EncodeFits.leaveProgmodePp _, Laws.EncodeFits.chipErasePp _ _,
    Laws.EncodeFits.programFlashPp _ _ _, Laws.EncodeFits.readFlashPp _, Laws.EncodeFits.programEepromPp _ _ _,
    Laws.EncodeFits.readEepromPp _, Laws.EncodeFits.programFusePp _ _ _ _, Laws.EncodeFits.readFusePp _,
    Laws.EncodeFits.programLockPp _ _ _ _, Laws.EncodeFits.readLockPp _, Laws.EncodeFits.readSignaturePp _,
    Laws.EncodeFits.readOsccalPp _, Laws.EncodeFits.setControlStack _, Laws.EncodeFits.enterProgmodeHvsp _,
    Laws.EncodeFits.leaveProgmodeHvsp _, Laws.EncodeFits.chipEraseHvsp _ _, Laws.EncodeFits.programFlashHvsp _ _ _,
    Laws.EncodeFits.readFlashHvsp _, Laws.EncodeFits.programEepromHvsp _ _ _, Laws.EncodeFits.readEepromHvsp _,
    Laws.EncodeFits.programFuseHvsp _ _ _, Laws.EncodeFits.readFuseHvsp _, Laws.EncodeFits.programLockHvsp _ _ _,
    Laws.EncodeFits.readLockHvsp _, Laws.EncodeFits.readSignatureHvsp _, Laws.EncodeFits.readOsccalHvsp _,
    Laws.EncodeFits.xprgEnterProgmode, Laws.EncodeFits.xprgLeaveProgmode, Laws.EncodeFits.xprgErase _ _,
    Laws.EncodeFits.xprgWriteMem _ _ _ _, Laws.EncodeFits.xprgReadMem _ _ _, Laws.EncodeFits.xprgSetParam _]

/-- The request received in the message of a command is that command (R81, R126). -/
theorem fetchRequest_received (s : State) (seq : Byte) {i : Instr} (hwf : i.wf = true) (rest : List Byte) :
    fetchRequest (s.received seq (encode i) rest) = .instr i := by
  obtain ⟨-, hfits⟩ := encode_fits i hwf
  have hlen : (s.received seq (encode i) rest).len.toNat = (encode i).length := toNat_countOf hfits
  rw [fetchRequest, hlen, bodyFrom_received, decodeOfEncode i _ hwf]

/-- Settles O21: the message is received as in the round trip, and the request that stands in the buffer decodes to the command. -/
theorem messageThenOperation : Obligations.MessageThenOperation := by
  intro s seq i more hidle hfault hcalls hhdr hwf hrx
  have hs : Receives s := ⟨hidle, hfault, hcalls, hhdr⟩
  obtain ⟨-, hfits⟩ := encode_fits i hwf
  obtain ⟨hsession, hdraws, hpage, htrace⟩ := received_keeps s seq (encode i) more
  have hfault' : (s.received seq (encode i) more).faultMark = none := (s.writeBodyFrom_faultMark 0 (encode i)).trans hfault
  have hcalls' : (s.received seq (encode i) more).calls = [] := (s.writeBodyFrom_calls 0 (encode i)).trans hcalls
  refine ⟨s.received seq (encode i) more, run_encodeMessage hs hfits hrx, ?_, rfl, rfl, rfl, s.writeBodyFrom_tx 0 (encode i),
    hsession, hdraws, hpage, htrace⟩
  rw [step_of_request hfault' hcalls' rfl, dispatch, fetchRequest_received s seq hwf more]

end Sys2Proof.Machine
end

section
/-! What every command keeps and writes, read off `performed` and `exec_next` (41_dispatch.md R141, R142, R151; 42_driver_common.md R163,
R170). -/

namespace Sys2Proof.Machine

/-- An operation leaves the framer's registers, the buffer, the transmit stream and the calls to its end, and TRACE grows. -/
theorem perform_keeps (i : Instr) (s : State) :
    FramerKept s (perform i s).state ∧ (perform i s).state.fs = s.fs ∧ (perform i s).state.buf = s.buf ∧
      (perform i s).state.tx = s.tx ∧ (perform i s).state.calls = s.calls ∧ s.trace <+: (perform i s).state.trace ∧
      (perform i s).state.activeFamily = (entersFamily i).getD s.activeFamily := by
  obtain ⟨⟨hstate, htrace⟩, -⟩ := performed i s
  generalize (perform i s).state = t at hstate htrace ⊢
  rw [hstate]
  exact ⟨⟨rfl, rfl, rfl, rfl, rfl, rfl, rfl, rfl, rfl⟩, rfl, rfl, rfl, rfl, htrace, rfl⟩

/-- How an operation has ended: in the form of a request, with data that a response can hold (R141, R142). -/
def EndedFitting (s t : State) (status : Status) (data : List Byte) : Prop :=
  Ended s t status data ∧ data.length ≤ 274 ∨ EndedX s t status data ∧ data.length ≤ 273

/-- A command that answers has ended in one of the two forms, and has left the framer's registers. -/
theorem exec_ended {i : Instr} {s t : State} (h : exec i s = .next t) :
    FramerKept s t ∧ ∃ status data, EndedFitting s t status data := by
  obtain ⟨-, f, m, x, c, rfl, hends, -, hfits, hfitsX⟩ := exec_next i s t h
  obtain ⟨hframer, hfs, hbuf, htx, hcalls, -⟩ := perform_keeps i s
  have hseq : (perform i s).state.seq = s.seq := by
    obtain ⟨-, -, -, -, hseq, -⟩ := hframer
    exact hseq
  refine ⟨hframer, (perform i s).status, (perform i s).data, ?_⟩
  cases hx : isXprog i with
  | false =>
    rw [hx, if_neg Bool.false_ne_true] at hends
    exact .inl ⟨hends.of_eq hfs htx hseq hbuf hcalls, hfits⟩
  | true =>
    rw [hx, if_pos rfl] at hends
    exact .inr ⟨hends.of_eq hfs htx hseq hbuf hcalls, hfitsX hx⟩

/-- An end calls one response in front of the calls before it and keeps `FS`, or it is a timeout's and `FS` is `Idle` (R141, R142,
R176). -/
theorem EndedFitting.fs_calls {s t : State} {status : Status} {data : List Byte} (h : EndedFitting s t status data) :
    t.fs = s.fs ∧
        (∃ status n, t.calls = .sendResponse status n :: s.calls ∨ t.calls = .sendXprogResponse status n :: s.calls) ∨
      t.fs = .idle ∧ t.calls = s.calls := by
  rcases h with ⟨h, -⟩ | ⟨h, -⟩ <;> cases status
  case inl.ok | inl.failed =>
    obtain ⟨hfs, -, hcalls, -⟩ := h
    exact .inl ⟨hfs, _, _, .inl hcalls⟩
  case inr.ok | inr.failed =>
    obtain ⟨hfs, -, hcalls, -⟩ := h
    exact .inl ⟨hfs, _, _, .inr hcalls⟩
  case inl.timeout | inr.timeout =>
    obtain ⟨hfs, -, hcalls, -⟩ := h
    exact .inr ⟨hfs, hcalls⟩

/-- Settles O27: the end of an operation writes no register of the session, and the operation only those that `Performed` names. -/
theorem sessionRegisterWriters : Obligations.SessionRegisterWriters := by
  intro i s t h
  obtain ⟨hframer, status, data, hends⟩ := exec_ended h
  obtain ⟨-, f, m, x, c, rfl, -⟩ := exec_next i s t h
  obtain ⟨-, hclock, hstack, hrung, hmode, haddress, -⟩ := performed i s
  obtain ⟨-, -, -, -, -, -, hfamily⟩ := perform_keeps i s
  exact ⟨hframer, hends.fs_calls, hclock, hstack.imp_right fun ⟨stack, hi, _⟩ => ⟨stack, hi⟩, hfamily,
    hrung.imp_right fun ⟨hi, _⟩ => hi, hmode, haddress⟩

/-- Settles O28: R170 is part of what every operation does. -/
theorem previousPageInvalidated : Obligations.PreviousPageInvalidated := by
  intro i s t h
  obtain ⟨-, f, m, x, c, rfl, -⟩ := exec_next i s t h
  obtain ⟨-, -, -, -, -, -, hinvalid, hread, -⟩ := performed i s
  exact ⟨hinvalid, hread⟩

/-- A command whose operands have a meaning answers, as its data fit (R151). -/
theorem exec_answers {i : Instr} (hf : operandFault i = none) (s : State) : ∃ t, exec i s = .next t := by
  obtain ⟨-, -, -, -, -, -, -, -, hfits⟩ := performed i s
  obtain ⟨hdata, hdataX⟩ := hfits hf
  obtain ⟨f, m, x, c, hnext⟩ := answer_next i (perform i s) hdata hdataX
  exact ⟨_, by rw [exec_eq, hf]; exact hnext⟩

/-- Settles O29: the operand check decides, and after it nothing stops an operation. -/
theorem commandsComplete : Obligations.CommandsComplete := by
  intro i s
  cases hf : operandFault i with
  | none => exact exec_answers hf s
  | some r => exact exec_fault i s r hf

/-- A command that stops does so for its operands. -/
theorem operandFault_of_exec {i : Instr} {s : State} {r : Fault} (h : exec i s = .fault r) : operandFault i = some r := by
  cases hf : operandFault i with
  | none =>
    obtain ⟨t, hnext⟩ := exec_answers hf s
    cases hnext.symm.trans h
  | some why =>
    cases (exec_fault i s why hf).symm.trans h
    rfl

/-! ### Dispatch and calls -/

/-- A request that is answered has ended in one of the two forms, and the framer's registers are left (R141, R150). -/
theorem dispatch_ended {s t : State} (h : dispatch s = .next t) :
    FramerKept s t ∧ ∃ status data, EndedFitting s t status data := by
  rw [dispatch] at h
  split at h
  · exact exec_ended h
  · rename_i x _
    cases x with
    | false =>
      obtain ⟨u, hnext, ⟨hframer, -⟩, hanswered⟩ := performUnknown_normal s
      cases hnext.symm.trans h
      exact ⟨hframer, .failed, [], .inl ⟨hanswered, Nat.zero_le _⟩⟩
    | true =>
      obtain ⟨u, hnext, ⟨hframer, -⟩, hanswered⟩ := performUnknown_xprog s
      cases hnext.symm.trans h
      exact ⟨hframer, .failed, [], .inr ⟨hanswered, Nat.zero_le _⟩⟩
  · cases h
  · cases h

/-- A call of the caller is performed first (R11, log 10). -/
theorem step_of_call {s : State} {c : PortCall} {rest : List PortCall} (hfault : s.faultMark = none)
    (hcalls : s.calls = c :: rest) : step s = portCall c { s with calls := rest } := by
  simp only [step, hfault, hcalls]

/-- A faulted engine stays faulted (R36). -/
theorem step_of_fault {s : State} {r : Fault} (h : s.faultMark = some r) : step s = .fault r := by
  simp only [step, h]

/-- Settles O18: `step` dispatches, and `dispatch` goes by what the request decodes to. -/
theorem stepRunsDecodedRequest : Obligations.StepRunsDecodedRequest := by
  intro s hfault hcalls hfs request
  rw [step_of_request hfault hcalls hfs]
  have hfetch : fetchRequest s = request := rfl
  exact ⟨rfl, fun i hi => by rw [dispatch, hfetch, hi], fun hshort => by rw [dispatch, hfetch, hshort],
    fun hexcess => by rw [dispatch, hfetch, hexcess]⟩

/-- Settles O19: the branches of `step` but the dispatch. -/
theorem stepOtherwise : Obligations.StepOtherwise := fun _ =>
  ⟨fun _ hr => step_of_fault hr, fun _ hfault hcalls => step_of_call hfault hcalls,
    fun _ _ _ hfault hcalls => step_of_call hfault hcalls, fun _ _ _ hfault hcalls => step_of_call hfault hcalls,
    fun hfault hcalls hfs => step_of_feeding hfault hcalls hfs⟩

/-! ### One response -/

/-- The response that a normal operation owes is the next step, and its message carries the status and the data (R80, R141). -/
theorem Answered.step_responds {s t : State} {status : Byte} {data : List Byte} (h : Answered s t status data)
    (hfits : data.length ≤ 274) (hfault : t.faultMark = none) (hcalls : s.calls = []) (hseq : t.seq = s.seq) :
    ∃ u, step t = .next u ∧
      u = { t with fs := .idle, calls := [], buf := u.buf, tx := s.tx ++ encodeMessage s.seq (status :: data) } ∧
      ∀ a, u.bodyByte a = if a = 0 then status else t.bodyByte a := by
  obtain ⟨m, hsend, hbytes⟩ := h.response hfits hseq []
  obtain ⟨-, -, htcalls, -⟩ := h
  rw [hcalls] at htcalls
  exact ⟨_, (step_of_call hfault htcalls).trans hsend, rfl, hbytes⟩

/-- The same of an XPROG operation, whose message begins with `Buf[0]` (R80, R141). -/
theorem AnsweredX.step_responds {s t : State} {status : Byte} {data : List Byte} (h : AnsweredX s t status data)
    (hfits : data.length ≤ 273) (hfault : t.faultMark = none) (hcalls : s.calls = []) (hseq : t.seq = s.seq) :
    ∃ u, step t = .next u ∧
      u = { t with
        fs := .idle, calls := [], buf := u.buf, tx := s.tx ++ encodeMessage s.seq (s.bodyByte 0 :: status :: data) } ∧
      ∀ a, u.bodyByte a = if a = 1 then status else t.bodyByte a := by
  obtain ⟨m, hsend, hbytes⟩ := h.response hfits hseq []
  obtain ⟨-, -, htcalls, -⟩ := h
  rw [hcalls] at htcalls
  exact ⟨_, (step_of_call hfault htcalls).trans hsend, rfl, hbytes⟩

/-- What the end of a held request's operation owes: one response, which the next step sends, or nothing after a timeout. -/
def OneResponse (s t : State) : Prop :=
  (t.fs = .complete ∧ t.tx = s.tx ∧ ∃ c u body, t.calls = [c] ∧ c ≠ .feedByte ∧ step t = .next u ∧
      1 ≤ body.length ∧ body.length ≤ 275 ∧
      u = { t with fs := .idle, calls := [], buf := u.buf, tx := s.tx ++ encodeMessage s.seq body }) ∨
    (t.fs = .idle ∧ t.calls = [] ∧ ∃ body, t.tx = s.tx ++ encodeMessage s.seq body ∧
      (body = [Config.stTimeout] ∨ body = [s.bodyByte 0, Config.xstTimeout]))

theorem Answered.oneResponse {s t : State} {status : Byte} {data : List Byte} (h : Answered s t status data)
    (hfits : data.length ≤ 274) (hfault : t.faultMark = none) (hcalls : s.calls = []) (hseq : t.seq = s.seq)
    (hfs : s.fs = .complete) : OneResponse s t := by
  obtain ⟨u, hstep, hu, -⟩ := h.step_responds hfits hfault hcalls hseq
  obtain ⟨htfs, htx, htcalls, -⟩ := h
  rw [hcalls] at htcalls
  exact .inl ⟨htfs.trans hfs, htx, _, u, status :: data, htcalls, nofun, hstep, Nat.le_add_left 1 _,
    Nat.succ_le_succ hfits, hu⟩

theorem AnsweredX.oneResponse {s t : State} {status : Byte} {data : List Byte} (h : AnsweredX s t status data)
    (hfits : data.length ≤ 273) (hfault : t.faultMark = none) (hcalls : s.calls = []) (hseq : t.seq = s.seq)
    (hfs : s.fs = .complete) : OneResponse s t := by
  obtain ⟨u, hstep, hu, -⟩ := h.step_responds hfits hfault hcalls hseq
  obtain ⟨htfs, htx, htcalls, -⟩ := h
  rw [hcalls] at htcalls
  exact .inl ⟨htfs.trans hfs, htx, _, u, _ :: status :: data, htcalls, nofun, hstep, Nat.le_add_left 1 _,
    Nat.succ_le_succ (Nat.succ_le_succ hfits), hu⟩

/-- Both forms of an end owe one response, or a timeout has sent it (R141, R142, R176). -/
theorem EndedFitting.oneResponse {s t : State} {status : Status} {data : List Byte} (h : EndedFitting s t status data)
    (hfault : t.faultMark = none) (hcalls : s.calls = []) (hseq : t.seq = s.seq) (hfs : s.fs = .complete) :
    OneResponse s t := by
  rcases h with ⟨h, hfits⟩ | ⟨h, hfits⟩ <;> cases status
  case inl.ok | inl.failed => exact Answered.oneResponse h hfits hfault hcalls hseq hfs
  case inr.ok | inr.failed => exact AnsweredX.oneResponse h hfits hfault hcalls hseq hfs
  case inl.timeout =>
    obtain ⟨htfs, htx, htcalls, -⟩ := h
    exact .inr ⟨htfs, htcalls.trans hcalls, _, htx, .inl rfl⟩
  case inr.timeout =>
    obtain ⟨htfs, htx, htcalls, -⟩ := h
    exact .inr ⟨htfs, htcalls.trans hcalls, _, htx, .inr rfl⟩

/-- Settles O22: a held request's step is its dispatch, whose end owes one response; the message of a response that an operation owes
is its status and its data. -/
theorem oneResponsePerRequest : Obligations.OneResponsePerRequest := by
  refine ⟨fun s t hfault hcalls hfs hstep => ?_,
    fun s t status data h hfits hfault hcalls hseq => h.step_responds hfits hfault hcalls hseq,
    fun s t status data h hfits hfault hcalls hseq => h.step_responds hfits hfault hcalls hseq⟩
  rw [step_of_request hfault hcalls hfs] at hstep
  obtain ⟨⟨-, -, -, -, hseq, -, hrx, hmark, -⟩, status, data, hends⟩ := dispatch_ended hstep
  exact ⟨hrx, hends.oneResponse (hmark.trans hfault) hcalls hseq hfs⟩

end Sys2Proof.Machine
end

section
/-! The invariants (10_state.md §2, §4, §5): what `FeedByte` does from a state whose framer registers fit, as one relation, and from it and
the inversion of the other steps the invariant of the machine, the receive checksum, the streams and the causes of faults. -/

namespace Sys2Proof.Machine

/-! ### `FeedByte` from a state with the invariant -/

/-- A message opened by its start marker (R114). -/
def State.opened (s : State) : State :=
  { s with hdr := s.hdr.set 0 Config.start, cks := Config.start, nread := 1#16, nwant := 5#16, fs := .header }

/-- A header accepted, and its body begun (R117). -/
def State.accepted (s : State) : State :=
  { s with seq := s.hdr.getD 1 0x00#8, len := s.announced, nread := 0#16, nwant := s.announced + 1#16, fs := .body }

/-- What `FeedByte` does with the byte `b`, from the state without it to the next state (R113 to R120). -/
inductive Takes (b : Byte) (s : State) : State → Prop
  | discarded (hfs : s.fs = .idle) : Takes b s (s.returning .headerError)
  | opened (hfs : s.fs = .idle) : Takes b s (s.opened.returning .incomplete)
  | header (hfs : s.fs = .header) (hread : s.nread.toNat < 4) : Takes b s ((s.storeHeader b).returning .incomplete)
  | rejected (hfs : s.fs = .header) : Takes b s (s.storeHeader b).rejected
  | accepted (hfs : s.fs = .header) (hread : s.nread.toNat = 4) (htoken : (s.storeHeader b).hdr.getD 4 0x00#8 = Config.token)
      (hlen : (s.storeHeader b).announced.toNat ≤ 275) : Takes b s ((s.storeHeader b).accepted.returning .incomplete)
  | body (hfs : s.fs = .body) (hread : s.nread.toNat < s.len.toNat) : Takes b s ((s.storeBody b).returning .incomplete)
  | completed (hfs : s.fs = .body) : Takes b s
      ({ s with cks := s.cks ^^^ b, nread := s.nread + 1#16, fs := .complete }.returning (.command (s.bodyByte 0)))
  | checksum (hfs : s.fs = .body) : Takes b s
      ((({ s with cks := s.cks ^^^ b, nread := s.nread + 1#16 } : State).sent 0 Config.stCksum Config.cksumRespLen).returning
        .checksumError)

/-- A byte in `Idle` (R113, R114). -/
theorem feedIdle_takes {b : Byte} {s : State} (hfs : s.fs = .idle) : ∃ t, feedIdle b s = .next t ∧ Takes b s t := by
  by_cases hb : b = Config.start
  · subst hb
    exact ⟨_, feedIdle_start s, .opened hfs⟩
  · exact ⟨_, feedIdle_of_ne_start s hb, .discarded hfs⟩

/-- A byte in `Header`, where the counts fit (R115 to R117). -/
theorem feedHeader_takes {b : Byte} {s : State} (hinv : FramerInv s) (hfs : s.fs = .header) :
    ∃ t, feedHeader b s = .next t ∧ Takes b s t := by
  obtain ⟨-, -, hheader, -⟩ := hinv
  obtain ⟨hwant, -, hread⟩ := hheader hfs
  have hwant' : s.nwant = 5#16 := BitVec.eq_of_toNat_eq hwant
  by_cases hfifth : s.nread.toNat = 4
  · rw [feedHeader_fifth b hwant' hfifth]
    by_cases htoken : (s.storeHeader b).hdr.getD 4 0x00#8 = Config.token
    · by_cases hlen : (s.storeHeader b).announced.toNat ≤ 275
      · exact ⟨_, acceptHeader_accepts htoken hlen, .accepted hfs hfifth htoken hlen⟩
      · exact ⟨_, acceptHeader_too_long htoken (Nat.lt_of_not_le hlen), .rejected hfs⟩
    · exact ⟨_, acceptHeader_wrong_token htoken, .rejected hfs⟩
  · exact ⟨_, feedHeader_before_fifth b hwant' (by omega), .header hfs (by omega)⟩

/-- A byte in `Body`, where the counts fit (R118 to R120). -/
theorem feedBody_takes {b : Byte} {s : State} (hinv : FramerInv s) (hfs : s.fs = .body) :
    ∃ t, feedBody b s = .next t ∧ Takes b s t := by
  obtain ⟨-, hlen, -, hbody⟩ := hinv
  obtain ⟨hwant, hread⟩ := hbody hfs
  have hwant' : s.nwant = s.len + 1#16 := by bv_omega
  by_cases hlast : s.nread = s.len
  · rw [feedBody_of_eq b hlen hwant' hlast]
    by_cases hcks : s.cks ^^^ b = 0x00#8
    · exact ⟨_, endBody_of_zero hcks, .completed hfs⟩
    · exact ⟨_, endBody_of_ne_zero hcks, .checksum hfs⟩
  · have hlt : s.nread.toNat < s.len.toNat := by bv_omega
    exact ⟨_, feedBody_of_lt b hlen hwant' hlt, .body hfs hlt⟩

/-- From a state whose framer registers fit and that holds no request `FeedByte` answers: it waits, or it takes the first byte. -/
theorem FramerInv.feedByte_answers {s : State} (hinv : FramerInv s) (hfs : s.fs ≠ .complete) :
    ∃ t, feedByte s = .next t ∧
      (s.rx = [] ∧ t = s.returning .incomplete ∨ ∃ b rest, s.rx = b :: rest ∧ Takes b { s with rx := rest } t) := by
  cases hrx : s.rx with
  | nil => exact ⟨_, feedByte_of_empty hfs hrx, .inl ⟨rfl, rfl⟩⟩
  | cons b rest =>
    have hphases : s.fs = .idle ∨ s.fs = .header ∨ s.fs = .body := by cases hphase : s.fs <;> simp_all
    obtain hphase | hphase | hphase := hphases
    · obtain ⟨t, hnext, htakes⟩ := feedIdle_takes (b := b) (s := { s with rx := rest }) hphase
      exact ⟨t, (feedByte_of_idle hphase hrx).trans hnext, .inr ⟨b, rest, rfl, htakes⟩⟩
    · obtain ⟨t, hnext, htakes⟩ := feedHeader_takes (b := b) (s := { s with rx := rest }) hinv hphase
      exact ⟨t, (feedByte_of_header hphase hrx).trans hnext, .inr ⟨b, rest, rfl, htakes⟩⟩
    · obtain ⟨t, hnext, htakes⟩ := feedBody_takes (b := b) (s := { s with rx := rest }) hinv hphase
      exact ⟨t, (feedByte_of_body hphase hrx).trans hnext, .inr ⟨b, rest, rfl, htakes⟩⟩

/-- What an answering `FeedByte` has done. -/
theorem FramerInv.feedByte_cases {s t : State} (hinv : FramerInv s) (h : feedByte s = .next t) :
    s.rx = [] ∧ t = s.returning .incomplete ∨ ∃ b rest, s.rx = b :: rest ∧ Takes b { s with rx := rest } t := by
  have hfs : s.fs ≠ .complete := fun hfs => by cases (feedByte_of_complete hfs).symm.trans h
  obtain ⟨u, hnext, hcases⟩ := hinv.feedByte_answers hfs
  cases hnext.symm.trans h
  exact hcases

/-! ### The framer's registers -/

/-- Outside `Header` and `Body` only the length of HDR and LEN are bound. -/
theorem FramerInv.of_other {s t : State} (hinv : FramerInv s) (hhdr : t.hdr.length = s.hdr.length) (hlen : t.len = s.len)
    (hfs : t.fs = .idle ∨ t.fs = .complete) : FramerInv t := by
  obtain ⟨hhdr5, hlen275, -, -⟩ := hinv
  refine ⟨hhdr.trans hhdr5, hlen ▸ hlen275, fun hfs' => ?_, fun hfs' => ?_⟩ <;>
    rcases hfs with hfs | hfs <;> cases hfs.symm.trans hfs'

/-- A byte keeps the framer's registers fitting (R114 to R118). -/
theorem Takes.framerInv {b : Byte} {s t : State} (h : Takes b s t) (hinv : FramerInv s) : FramerInv t := by
  obtain ⟨hhdr, hlen, hheader, hbody⟩ := id hinv
  have hset (i : Nat) (c : Byte) : (s.hdr.set i c).length = s.hdr.length := List.length_set
  cases h with
  | discarded hfs => exact hinv.of_other rfl rfl (.inl hfs)
  | opened => exact ⟨(hset _ _).trans hhdr, hlen, fun _ => ⟨rfl, Nat.le_refl 1, (by decide : 1 < 5)⟩, nofun⟩
  | header hfs hread =>
    obtain ⟨hwant, hpos, -⟩ := hheader hfs
    have hnext : (s.nread + 1#16).toNat = s.nread.toNat + 1 := by bv_omega
    refine ⟨(hset _ _).trans hhdr, hlen, fun _ => ⟨hwant, ?_, ?_⟩, fun hfs' => (by cases hfs.symm.trans hfs')⟩
    · exact hnext ▸ Nat.le_add_left 1 _
    · exact hnext ▸ Nat.succ_lt_succ hread
  | rejected => exact hinv.of_other (hset _ _) rfl (.inl rfl)
  | accepted hfs hread htoken hlen' =>
    refine ⟨(hset _ _).trans hhdr, hlen', nofun, fun _ => ⟨?_, Nat.zero_le _⟩⟩
    show ((s.storeHeader b).announced + 1#16).toNat = (s.storeHeader b).announced.toNat + 1
    bv_omega
  | body hfs hread =>
    obtain ⟨hwant, -⟩ := hbody hfs
    have hnext : (s.nread + 1#16).toNat ≤ s.len.toNat := by bv_omega
    rw [State.storeBody_of_lt b hread]
    exact ⟨hhdr, hlen, fun hfs' => (by cases hfs.symm.trans hfs'), fun _ => ⟨hwant, hnext⟩⟩
  | completed => exact hinv.of_other rfl rfl (.inr rfl)
  | checksum => exact hinv.of_other rfl rfl (.inl rfl)

/-- `FeedByte` keeps the framer's registers fitting. -/
theorem FramerInv.feedByte {s t : State} (hinv : FramerInv s) (h : feedByte s = .next t) : FramerInv t := by
  obtain ⟨-, rfl⟩ | ⟨b, rest, -, htakes⟩ := hinv.feedByte_cases h
  · exact hinv
  · exact htakes.framerInv hinv

/-! ### The other steps -/

/-- What a call that answers does: a `FeedByte`, or a response, which changes `FS`, the buffer and the transmit stream alone (R122,
R125). -/
theorem portCall_cases {c : PortCall} {s t : State} (h : portCall c s = .next t) :
    feedByte s = .next t ∨
      ∃ m x, t = { s with fs := .idle, buf := m, tx := x } ∧ s.tx <+: x ∧ (Memory.wf s.buf → Memory.wf m) := by
  cases c with
  | feedByte => exact .inl h
  | sendResponse status n => exact .inr (sendResponse_cases status n s t h)
  | sendXprogResponse status n => exact .inr (sendXprogResponse_cases status n s t h)

/-- What a step that answers does: a `FeedByte` or a response of a call, after taking the call; or the dispatch of a held request. -/
theorem step_does {s t : State} (h : step s = .next t) :
    s.faultMark = none ∧
      ((∃ rest, feedByte { s with calls := rest } = .next t) ∨
        (∃ rest m x, t = { s with calls := rest, fs := .idle, buf := m, tx := x } ∧ s.tx <+: x ∧
          (Memory.wf s.buf → Memory.wf m)) ∨
        (s.fs = .complete ∧ dispatch s = .next t)) := by
  obtain ⟨hfault, ⟨c, rest, -, hcall⟩ | ⟨-, hfs, hdispatch⟩ | ⟨hcalls, -, hfeed⟩⟩ := step_cases s t h
  · refine ⟨hfault, ?_⟩
    obtain hfeed | ⟨m, x, ht, htx, hwf⟩ := portCall_cases hcall
    · exact .inl ⟨rest, hfeed⟩
    · exact .inr (.inl ⟨rest, m, x, ht, htx, hwf⟩)
  · exact ⟨hfault, .inr (.inr ⟨hfs, hdispatch⟩)⟩
  · exact ⟨hfault, .inl ⟨s.calls, hfeed⟩⟩

/-- A request that is answered leaves the framer idle or still holding it (R142, R176). -/
theorem dispatch_fs {s t : State} (hfs : s.fs = .complete) (h : dispatch s = .next t) : t.fs = .idle ∨ t.fs = .complete := by
  obtain ⟨-, status, data, hends⟩ := dispatch_ended h
  obtain ⟨hkept, -⟩ | ⟨hidle, -⟩ := hends.fs_calls
  · exact .inr (hkept.trans hfs)
  · exact .inl hidle

/-! ### The invariant of the machine -/

/-- A paged read enters no family (R84). -/
theorem entersFamily_of_isPagedRead {i : Instr} (h : isPagedRead i = true) : entersFamily i = none :=
  match i, h with
  | .readFlashIsp _ _, _ | .readEepromIsp _ _, _ | .readFlashPp _, _ | .readEepromPp _, _ | .readFlashHvsp _, _
  | .readEepromHvsp _, _ => rfl

/-- An operation keeps the session registers in their ranges: a control stack has the length its check asks for, a rung
is one of the ladder, and only a paged read of an HV family caches a page (R31, R35, R170, R229). -/
theorem SessionInv.perform {s : State} (hinv : SessionInv s) {i : Instr} (hf : operandFault i = none) :
    SessionInv (perform i s).state := by
  obtain ⟨hstack, hrung, hpage⟩ := hinv
  obtain ⟨-, -, hstack', hrung', -, -, hinvalid, hread, -⟩ := performed i s
  obtain ⟨-, -, -, -, -, -, hfamily⟩ := perform_keeps i s
  refine ⟨?_, ?_, fun hcached => ?_⟩
  · obtain hkept | ⟨stack, rfl, hwritten⟩ := hstack'
    · rw [hkept, hstack]
    · rw [hwritten]
      simpa [operandFault] using hf
  · obtain hkept | ⟨-, htried⟩ := hrung'
    · rw [hkept]
      exact hrung
    · exact htried
  · have hisRead : isPagedRead i = true := by
      by_contra hne
      exact hcached (hinvalid (Bool.eq_false_of_not_eq_true hne))
    have hkept : (Machine.perform i s).state.activeFamily = s.activeFamily := by
      rw [hfamily, entersFamily_of_isPagedRead hisRead]
      rfl
    rw [hkept]
    by_contra hother
    exact hother (hpage (hread hisRead hother ▸ hcached))

/-- A request that is answered keeps the session registers in their ranges. -/
theorem SessionInv.dispatch {s t : State} (hinv : SessionInv s) (h : dispatch s = .next t) : SessionInv t := by
  obtain ⟨f, m, x, c, -, -, -, ⟨i, hf, rfl⟩ | rfl⟩ := dispatch_next s t h
  · exact hinv.perform hf
  · obtain ⟨hstack, hrung, -⟩ := hinv
    exact ⟨hstack, hrung, fun hcached => absurd rfl hcached⟩

theorem SessionInv.of_kept {s t : State} (hinv : SessionInv s) (hkept : SessionKept s t) (hpage : t.prevPage = s.prevPage) :
    SessionInv t := by
  obtain ⟨-, -, hstack, hfamily, -, hrung⟩ := hkept
  rw [SessionInv, hstack, hrung, hpage, hfamily]
  exact hinv

/-- Settles O23: the three parts of a step, each with the three parts of the invariant. -/
theorem stepKeepsInvariant : Obligations.StepKeepsInvariant := by
  rintro s t ⟨hbuf, hframer, hsession⟩ hstep
  obtain ⟨-, ⟨rest, hfeed⟩ | ⟨rest, m, x, rfl, -, hwf⟩ | ⟨hfs, hdispatch⟩⟩ := step_does hstep
  · obtain ⟨-, -, -, -, hkept, hpage, hwf⟩ := feedByte_keeps _ t hfeed
    exact ⟨hwf hbuf, FramerInv.feedByte (s := { s with calls := rest }) hframer hfeed,
      SessionInv.of_kept (s := { s with calls := rest }) hsession hkept hpage⟩
  · exact ⟨hwf hbuf, hframer.of_other rfl rfl (.inl rfl), hsession⟩
  · obtain ⟨⟨hhdr, -, -, -, -, hlen, -⟩, -⟩ := dispatch_ended hdispatch
    refine ⟨?_, hframer.of_other (by rw [hhdr]) hlen (dispatch_fs hfs hdispatch), hsession.dispatch hdispatch⟩
    obtain ⟨f, m, x, c, -, -, hwf, ⟨i, -, rfl⟩ | rfl⟩ := dispatch_next s t hdispatch
    · exact hwf hbuf
    · exact hwf hbuf

/-! ### The receive checksum -/

/-- Outside `Header` and `Body` the receive checksum is not spoken of. -/
theorem ChecksumInv.of_other {t : State} (hfs : t.fs = .idle ∨ t.fs = .complete) : ChecksumInv t := by
  have hheader : t.fs ≠ .header := by rcases hfs with hfs | hfs <;> rw [hfs] <;> nofun
  have hbody : t.fs ≠ .body := by rcases hfs with hfs | hfs <;> rw [hfs] <;> nofun
  exact ⟨fun h => absurd h hheader, fun h => absurd h hbody, fun h => absurd h hbody, fun h => absurd h hheader⟩

/-- The receive checksum is spoken of through these fields alone. -/
theorem ChecksumInv.congr {s t : State} (hsum : ChecksumInv s) (hfs : t.fs = s.fs) (hhdr : t.hdr = s.hdr)
    (hread : t.nread = s.nread) (hcks : t.cks = s.cks) (hseq : t.seq = s.seq) (hlen : t.len = s.len) (hbuf : t.buf = s.buf) :
    ChecksumInv t := by
  have hbytes : t.bodyFrom 0 s.nread.toNat = s.bodyFrom 0 s.nread.toNat :=
    State.bodyFrom_congr t s 0 _ fun a _ _ => by rw [State.bodyByte, State.bodyByte, hbuf]
  rw [ChecksumInv, hfs, hhdr, hread, hcks, hseq, hlen, hbytes]
  exact hsum

/-- The bytes of a list up to one just set are those before it and it. -/
theorem take_succ_set {l : List Byte} {n : Nat} (h : n < l.length) (b : Byte) :
    (l.set n b).take (n + 1) = l.take n ++ [b] := by
  rw [List.take_succ_eq_append_getElem (by rwa [List.length_set]), List.take_set_of_le (Nat.le_refl n), List.getElem_set_self]

/-- A header byte that arrives is folded into the checksum of those before it (R115). -/
theorem storeHeader_cks {s : State} (b : Byte) (hhdr : s.nread.toNat < s.hdr.length)
    (hcks : s.cks = xorAll 0#8 (s.hdr.take s.nread.toNat)) :
    (s.storeHeader b).cks = xorAll 0#8 ((s.storeHeader b).hdr.take (s.nread.toNat + 1)) := by
  show s.cks ^^^ b = xorAll 0#8 ((s.hdr.set s.nread.toNat b).take (s.nread.toNat + 1))
  rw [take_succ_set hhdr, xorAll_append, ← hcks, xorAll_cons, xorAll_nil]

/-- The start marker stands while the header goes on (R114, R115). -/
theorem storeHeader_head {s : State} (b : Byte) (hpos : 1 ≤ s.nread.toNat) :
    (s.storeHeader b).hdr.head? = s.hdr.head? := by
  rw [List.head?_eq_getElem?, List.head?_eq_getElem?]
  exact List.getElem?_set_ne (by omega)

/-- A body byte that arrives is folded into the checksum of the header and of those before it (R118). -/
theorem storeBody_cks {s : State} (b : Byte) (hread : s.nread.toNat < s.len.toNat)
    (hcks : s.cks = xorAll 0#8 (s.hdr ++ s.bodyFrom 0 s.nread.toNat)) :
    (s.storeBody b).cks = xorAll 0#8 (s.hdr ++ (s.storeBody b).bodyFrom 0 (s.nread.toNat + 1)) := by
  have hbyte (a : Nat) : (s.storeBody b).bodyByte a = if a = s.nread.toNat then b else s.bodyByte a := by
    rw [State.storeBody_of_lt b hread]
    exact s.bodyByte_writeBody s.nread.toNat b a
  have hbefore : (s.storeBody b).bodyFrom 0 s.nread.toNat = s.bodyFrom 0 s.nread.toNat :=
    State.bodyFrom_congr _ _ 0 _ fun a _ ha => by rw [hbyte, if_neg (by omega)]
  have hfold : (s.storeBody b).cks = s.cks ^^^ b := by rw [State.storeBody_of_lt b hread]
  rw [State.bodyFrom_succ, hbefore, hbyte, Nat.zero_add, if_pos rfl, ← List.append_assoc, xorAll_append, ← hcks, hfold,
    xorAll_cons, xorAll_nil]

/-- A byte keeps the receive checksum what the bytes so far make it (R25 to R27, R114 to R118). -/
theorem Takes.checksumInv {b : Byte} {s t : State} (h : Takes b s t) (hinv : FramerInv s) (hsum : ChecksumInv s) :
    ChecksumInv t := by
  obtain ⟨hhdr, -, hheader, -⟩ := hinv
  obtain ⟨hcksHeader, hcksBody, hfields, hmarker⟩ := hsum
  cases h with
  | discarded hfs => exact .of_other (.inl hfs)
  | opened =>
    match hlist : s.hdr, hhdr with
    | h0 :: rest, _ => exact ⟨fun _ => by simp [State.opened, hlist], nofun, nofun, fun _ => by simp [State.opened, hlist]⟩
  | header hfs hread =>
    obtain ⟨-, hpos, -⟩ := hheader hfs
    have hnext : (s.nread + 1#16).toNat = s.nread.toNat + 1 := by bv_omega
    refine ⟨fun _ => ?_, fun hfs' => (by cases hfs.symm.trans hfs'), fun hfs' => (by cases hfs.symm.trans hfs'),
      fun _ => (storeHeader_head b hpos).trans (hmarker hfs)⟩
    show (s.storeHeader b).cks = xorAll 0#8 ((s.storeHeader b).hdr.take (s.nread + 1#16).toNat)
    rw [hnext]
    exact storeHeader_cks b (by omega) (hcksHeader hfs)
  | rejected => exact .of_other (.inl rfl)
  | accepted hfs hread htoken hlen =>
    have hcks := storeHeader_cks b (by omega) (hcksHeader hfs)
    have hall : (s.storeHeader b).hdr.take (s.nread.toNat + 1) = (s.storeHeader b).hdr :=
      List.take_of_length_le (by rw [State.storeHeader, List.length_set]; omega)
    rw [hall] at hcks
    refine ⟨nofun, fun _ => ?_, fun _ => ⟨?_, rfl, rfl, htoken⟩, nofun⟩
    · exact hcks.trans (congrArg _ (List.append_nil _).symm)
    · exact (storeHeader_head b (by omega)).trans (hmarker hfs)
  | body hfs hread =>
    have hnext : (s.nread + 1#16).toNat = s.nread.toNat + 1 := by bv_omega
    have hcks := storeBody_cks b hread (hcksBody hfs)
    have hkept : (s.storeBody b).fs = s.fs ∧ (s.storeBody b).hdr = s.hdr ∧ (s.storeBody b).seq = s.seq ∧
        (s.storeBody b).len = s.len := by
      rw [State.storeBody_of_lt b hread]
      exact ⟨rfl, rfl, rfl, rfl⟩
    obtain ⟨hfs', hhdr', hseq', hlen'⟩ := hkept
    have hsum' : ChecksumInv (s.storeBody b) := by
      refine ⟨fun h => (by cases (hfs'.trans hfs).symm.trans h), fun _ => ?_, fun _ => ?_,
        fun h => (by cases (hfs'.trans hfs).symm.trans h)⟩
      · rw [State.storeBody_nread, hnext, hhdr', hcks]
      · rw [hhdr', hseq', hlen']
        exact hfields hfs
    exact hsum'.congr rfl rfl rfl rfl rfl rfl rfl
  | completed => exact .of_other (.inr rfl)
  | checksum => exact .of_other (.inl rfl)

/-- Settles O25: only `FeedByte` leaves the framer in `Header` or `Body`. -/
theorem stepKeepsChecksum : Obligations.StepKeepsChecksum := by
  rintro s t ⟨-, hframer, -⟩ hsum hstep
  obtain ⟨-, ⟨rest, hfeed⟩ | ⟨rest, m, x, rfl, -, -⟩ | ⟨hfs, hdispatch⟩⟩ := step_does hstep
  · obtain ⟨-, rfl⟩ | ⟨b, rx, -, htakes⟩ := FramerInv.feedByte_cases (s := { s with calls := rest }) hframer hfeed
    · exact hsum.congr rfl rfl rfl rfl rfl rfl rfl
    · exact htakes.checksumInv hframer (hsum.congr rfl rfl rfl rfl rfl rfl rfl)
  · exact .of_other (.inl rfl)
  · exact .of_other (dispatch_fs hfs hdispatch)

/-- Settles O24: after reset the buffer is empty and the framer idle. -/
theorem resetHasInvariant : Obligations.ResetHasInvariant :=
  ⟨⟨Memory.wf_reset, ⟨rfl, Nat.zero_le _, nofun, nofun⟩, List.length_replicate, Nat.zero_le _, fun h => absurd rfl h⟩,
    .of_other (.inl rfl)⟩

/-! ### Streams and faults -/

/-- Settles O26: `FeedByte` takes from the port, a response adds to the transmit stream, an operation adds to TRACE. -/
theorem streamsOnlyGrow : Obligations.StreamsOnlyGrow := by
  intro s t hstep
  obtain ⟨hfault, ⟨rest, hfeed⟩ | ⟨rest, m, x, rfl, htx, -⟩ | ⟨-, hdispatch⟩⟩ := step_does hstep
  · obtain ⟨htrace, htx, hrx, hmark, -⟩ := feedByte_keeps _ t hfeed
    exact ⟨htrace ▸ List.prefix_refl _, htx, hrx, hmark.trans hfault⟩
  · exact ⟨List.prefix_refl _, htx, List.suffix_refl _, hfault⟩
  · obtain ⟨⟨-, -, -, -, -, -, hrx, hmark, -⟩, -⟩ := dispatch_ended hdispatch
    obtain ⟨f, m, x, c, -, htx, -, ht⟩ := dispatch_next s t hdispatch
    refine ⟨?_, ?_, hrx ▸ List.suffix_refl _, hmark.trans hfault⟩
    · obtain ⟨i, -, rfl⟩ | rfl := ht
      · obtain ⟨-, -, -, -, -, htrace, -⟩ := perform_keeps i s
        exact htrace
      · exact List.prefix_refl _
    · obtain ⟨i, -, rfl⟩ | rfl := ht <;> exact htx

/-- A dispatch that stops has a request of one of the three causes (R151). -/
theorem dispatch_fault_cases {s : State} {r : Fault} (h : dispatch s = .fault r) :
    fetchRequest s = .shortRequest ∧ r = .shortRequest ∨ fetchRequest s = .countTooLarge ∧ r = .countTooLarge ∨
      ∃ i, fetchRequest s = .instr i ∧ operandFault i = some r := by
  cases hrequest : fetchRequest s with
  | instr i =>
    simp only [dispatch, hrequest] at h
    exact .inr (.inr ⟨i, rfl, operandFault_of_exec h⟩)
  | unknown x =>
    rw [dispatch_unknown hrequest] at h
    cases x with
    | false =>
      obtain ⟨t, hnext, -⟩ := performUnknown_normal s
      cases hnext.symm.trans h
    | true =>
      obtain ⟨t, hnext, -⟩ := performUnknown_xprog s
      cases hnext.symm.trans h
  | shortRequest =>
    simp only [dispatch, hrequest] at h
    cases h
    exact .inl ⟨rfl, rfl⟩
  | countTooLarge =>
    simp only [dispatch, hrequest] at h
    cases h
    exact .inr (.inl ⟨rfl, rfl⟩)

/-- `FeedByte` stops in `Complete` alone, where the framer's registers fit (R112). -/
theorem FramerInv.feedByte_fault {s : State} {r : Fault} (hinv : FramerInv s) (h : Machine.feedByte s = .fault r) :
    s.fs = .complete ∧ r = .feedWhileComplete := by
  by_cases hfs : s.fs = .complete
  · cases (feedByte_of_complete hfs).symm.trans h
    exact ⟨hfs, rfl⟩
  · obtain ⟨t, hnext, -⟩ := hinv.feedByte_answers hfs
    cases hnext.symm.trans h

/-- A response stops for its length alone (R124). -/
theorem response_fault {status : Byte} {n : Half} {s : State} {r : Fault}
    (h : sendResponse status n s = .fault r ∨ sendXprogResponse status n s = .fault r) :
    275 < n.toNat ∧ r = .responseTooLong := by
  by_cases hn : n.toNat ≤ Config.bodyMax
  · rw [sendResponse_next _ _ _ hn, sendXprogResponse_next _ _ _ hn] at h
    rcases h with h | h <;> cases h
  · have hlong : Config.bodyMax < n.toNat := Nat.lt_of_not_le hn
    rw [sendResponse_fault _ _ _ hlong, sendXprogResponse_fault _ _ _ hlong] at h
    rcases h with h | h <;> cases h <;> exact ⟨hlong, rfl⟩

/-- Settles O30: each part of a step stops for its own cause. -/
theorem faultsHaveCauses : Obligations.FaultsHaveCauses := by
  rintro s r ⟨-, hframer, -⟩ hfault hstep
  match hcalls : s.calls with
  | c :: rest =>
    rw [step_of_call hfault hcalls] at hstep
    cases c with
    | feedByte =>
      obtain ⟨hfs, hr⟩ := FramerInv.feedByte_fault (s := { s with calls := rest }) hframer hstep
      exact .inl ⟨rest, rfl, hfs, hr⟩
    | sendResponse status n =>
      obtain ⟨hlong, hr⟩ := response_fault (.inl hstep)
      exact .inr (.inl ⟨status, n, rest, .inl rfl, hlong, hr⟩)
    | sendXprogResponse status n =>
      obtain ⟨hlong, hr⟩ := response_fault (.inr hstep)
      exact .inr (.inl ⟨status, n, rest, .inr rfl, hlong, hr⟩)
  | [] =>
    by_cases hfs : s.fs = .complete
    · rw [step_of_request hfault hcalls hfs] at hstep
      exact .inr (.inr ⟨rfl, hfs, dispatch_fault_cases hstep⟩)
    · rw [step_of_feeding hfault hcalls hfs] at hstep
      exact absurd (hframer.feedByte_fault hstep).1 hfs

end Sys2Proof.Machine
end

section
/-! The paged commands of the ISP and HV drivers (42_driver_common.md R163, R164, R167, R178; 43_isp.md R198; 44_hv.md R228, R229): the
state before the poll of a committed write and the state after a read, then the statements, each said once for its three codes; and
the address after any paged command. -/

namespace Sys2Proof.Machine

/-! ### ISP flash write -/

/-- An even count of data is no fault of a write (R163). -/
theorem writeFault_eq_none {mem : Mem} {data : List Byte} (heven : mem = .flash → data.length % 2 = 0) :
    writeFault mem data = none :=
  if_neg fun ⟨hmem, hodd⟩ => by have := heven hmem; omega

/-- The state before the poll of a committed ISP flash write (R198). -/
theorem ispCommit_eachWord_ispLoadWord (data : List Byte) (s : State) :
    ispCommit Config.ispWriteFlashPage s.currentAddress (eachWord ispLoadWord data s) = { s with
      trace := s.trace ++ ispFlashUnits s.ispRung s.currentAddress data ++
        [.ispXfer s.ispRung ⟨Config.ispWriteFlashPage, byteOf s.currentAddress 1, byteOf s.currentAddress 0, 0x00#8⟩]
      currentAddress := ispFlashAddress (data.length / 2) s.currentAddress
      ispAnswers := s.ispAnswers.drop (ispFlashAnswers (data.length / 2) s.currentAddress + 1)
      drawn := s.drawn + (ispFlashAnswers (data.length / 2) s.currentAddress + 1) } := by
  rw [ispCommit_eq, eachWord_ispLoadWord, List.tail_drop]
  rfl

/-- Settles O41: the words are loaded, and the commit flag decides whether the page write and its poll follow. -/
theorem ispProgramFlashResult : Obligations.IspProgramFlashResult := by
  intro i s mode timeout data hwrite hisp heven a u n e
  obtain ⟨hf, hx, hp⟩ := perform_pagedWrite hwrite s
  rw [writeFault_eq_none fun _ => heven] at hf
  have hisp' : s.invalidatePage.activeFamily = .isp := hisp
  rw [routed_of_isp _ _ hisp', ispProgram] at hp
  refine ⟨fun hmode => ?_, fun hmode ready k hpoll => ?_⟩
  · rw [pagedWrite_of_not_commit _ _ _ _ hmode, eachWord_ispLoadWord] at hp
    exact exec_ends i s _ hf hx hp (Nat.zero_le _) rfl rfl rfl rfl rfl
  · rw [pagedWrite_of_commit _ _ _ _ hmode, ispCommit_eachWord_ispLoadWord] at hp
    exact exec_ends i s _ hf hx (hp.trans (pollThenOk_of_isp hisp hpoll)) (Nat.zero_le _) rfl rfl rfl rfl rfl

/-! ### HV writes -/

/-- The commit of an HV paged write is the high-order latches of the start address and the strobe (R228). -/
theorem hvCommit_eq (a : Word) (s : State) :
    hvCommit a s = { s with trace := s.trace ++ hvHighEvents (patternIn s.activeFamily s.controlStack) a ++
      [.hvStrobe .commit .low (patternIn s.activeFamily s.controlStack 3 0)] } := by
  simp only [hvCommit, hvLatchHigh_eq, hvStrobe_eq, Signal.number, Select.number]

/-- The state after the write command and the units of an HV flash write (R228). -/
theorem hvLoad_eachWord_hvLoadWord (data : List Byte) (s : State) :
    eachWord hvLoadWord data (hvLoad .loadCmd .low (hvWriteCmd .flash) s) = { s with
      trace := s.trace ++ .hvLoad .loadCmd .low Config.hvWriteFlash (patternIn s.activeFamily s.controlStack 2 0) ::
        hvFlashUnits (patternIn s.activeFamily s.controlStack) s.currentAddress data
      currentAddress := s.currentAddress + BitVec.ofNat 32 (data.length / 2) } := by
  simp only [eachWord_hvLoadWord, hvLoad_eq, Signal.number, Select.number, hvWriteCmd, List.append_assoc,
    List.singleton_append]

/-- The state after the write command and the units of an HV EEPROM write (R228). -/
theorem hvLoad_eachByte_hvLoadByte (data : List Byte) (s : State) :
    eachByte hvLoadByte data (hvLoad .loadCmd .low (hvWriteCmd .eeprom) s) = { s with
      trace := s.trace ++ .hvLoad .loadCmd .low Config.hvWriteEeprom (patternIn s.activeFamily s.controlStack 2 0) ::
        hvEepromUnits (patternIn s.activeFamily s.controlStack) s.currentAddress data
      currentAddress := s.currentAddress + BitVec.ofNat 32 data.length } := by
  simp only [eachByte_hvLoadByte, hvLoad_eq, Signal.number, Select.number, hvWriteCmd, List.append_assoc,
    List.singleton_append]

/-- An HV paged write whose units `load` are known by their events and the address after them: without the commit flag it ends ok
after them, with it after the commit as the poll does (R164, R228). -/
theorem exec_hvProgram {i : Instr} {s : State} {mode timeout : Byte} {load : State → State} {units : List Event} {a : Word}
    (hf : operandFault i = none) (hx : isXprog i = false) (hhv : HvActive s)
    (hp : perform i s = pagedWrite load hvCommit mode (timeoutOf timeout) s.invalidatePage)
    (hload : load s.invalidatePage = { s.invalidatePage with trace := s.trace ++ units, currentAddress := a }) :
    let p := patternIn s.activeFamily s.controlStack
    let e := { s with currentAddress := a, prevPage := none }
    (mode.getLsbD 7 = false → ∃ t, exec i s = .next t ∧ Answered s t Config.stOk [] ∧
      Kept { e with trace := s.trace ++ units } t) ∧
    (mode.getLsbD 7 = true → ∀ ready k, PollEnds s.hvReadies s.elapsed timeout.toNat ready k →
      ∃ t, exec i s = .next t ∧ Ended s t (if ready then .ok else .timeout) [] ∧
        Kept (afterPoll ready k { e with
          trace := s.trace ++ units ++ hvHighEvents p s.currentAddress ++ [.hvStrobe .commit .low (p 3 0)] }) t) := by
  refine ⟨fun hmode => ?_, fun hmode ready k hpoll => ?_⟩
  · rw [pagedWrite_of_not_commit _ _ _ _ hmode, hload] at hp
    exact exec_ends i s _ hf hx hp (Nat.zero_le _) rfl rfl rfl rfl rfl
  · rw [pagedWrite_of_commit _ _ _ _ hmode, hload, hvCommit_eq] at hp
    exact exec_ends i s _ hf hx (hp.trans (pollThenOk_of_hvActive hhv hpoll)) (Nat.zero_le _) rfl rfl rfl rfl rfl

/-- Settles O48: the units of a flash write are words. -/
theorem hvProgramFlashResult : Obligations.HvProgramFlashResult := by
  intro i s mode timeout data hwrite hhv heven
  obtain ⟨hf, hx, hp⟩ := perform_pagedWrite hwrite s
  rw [writeFault_eq_none fun _ => heven] at hf
  rw [routed_of_hvActive (s := s.invalidatePage) _ _ hhv, hvProgram] at hp
  exact exec_hvProgram hf hx hhv hp (hvLoad_eachWord_hvLoadWord data s.invalidatePage)

/-- Settles O49: the units of an EEPROM write are bytes. -/
theorem hvProgramEepromResult : Obligations.HvProgramEepromResult := by
  intro i s mode timeout data hwrite hhv
  obtain ⟨hf, hx, hp⟩ := perform_pagedWrite hwrite s
  rw [routed_of_hvActive (s := s.invalidatePage) _ _ hhv, hvProgram] at hp
  exact exec_hvProgram hf hx hhv hp (hvLoad_eachByte_hvLoadByte data s.invalidatePage)

/-! ### HV reads -/

/-- The read command of an HV paged read (R229). -/
theorem hvLoad_hvReadCmd (mem : Mem) (s : State) :
    hvLoad .loadCmd .low (hvReadCmd mem) s = { s with trace := s.trace ++
      [.hvLoad .loadCmd .low (hvReadCmd mem) (patternIn s.activeFamily s.controlStack 2 0)] } :=
  hvLoad_eq .loadCmd .low (hvReadCmd mem) s

/-- Settles O50: the units are words, two bytes each, and the bytes read stand in the target's in order. -/
theorem hvReadFlashResult : Obligations.HvReadFlashResult := by
  intro i s n hread hhv hfit heven p a u
  obtain ⟨hf, hx, hp⟩ := perform_pagedRead hread s
  rw [readFault_eq_none hfit fun _ => heven] at hf
  rw [routed_of_hvActive _ _ hhv, hvReadMem, hvLoad_hvReadCmd] at hp
  have hn : 2 * u = n.toNat := by omega
  obtain ⟨hstate, hlen, hdata⟩ := readWords_hvReadWord u { s with trace := s.trace ++
    [.hvLoad .loadCmd .low Config.hvReadFlash (p 2 0)] }
  rw [hn] at hstate hlen hdata
  obtain ⟨t, hnext, hanswered, hkept⟩ := exec_ends i s _ hf hx (hp.trans (congrArg (doneData _) hstate))
    (hlen.trans_le hfit) rfl rfl rfl rfl rfl
  refine ⟨_, t, hnext, hanswered, hlen, hdata, ?_⟩
  simp only [doneData, List.append_assoc, List.singleton_append] at hkept
  exact hkept

/-- Settles O51: the units are bytes, which stand in the target's in order. -/
theorem hvReadEepromResult : Obligations.HvReadEepromResult := by
  intro i s n hread hhv hfit p a u
  obtain ⟨hf, hx, hp⟩ := perform_pagedRead hread s
  rw [readFault_eq_none (mem := .eeprom) hfit nofun] at hf
  rw [routed_of_hvActive _ _ hhv, hvReadMem, hvLoad_hvReadCmd] at hp
  obtain ⟨hstate, hlen, hdata⟩ := readBytes_hvReadByte u { s with trace := s.trace ++
    [.hvLoad .loadCmd .low Config.hvReadEeprom (p 2 0)] }
  obtain ⟨t, hnext, hanswered, hkept⟩ := exec_ends i s _ hf hx (hp.trans (congrArg (doneData _) hstate))
    (hlen.trans_le hfit) rfl rfl rfl rfl rfl
  refine ⟨_, t, hnext, hanswered, hlen, hdata, ?_⟩
  simp only [doneData, List.append_assoc, List.singleton_append] at hkept
  exact hkept

/-! ### The address -/

/-- A paged write leaves the address that its units leave: neither a commit that only makes transactions nor the poll moves it
(R164, R178). -/
theorem pagedWrite_currentAddress {load : State → State} {commit : Word → State → State}
    (hcommit : ∀ a t, Drawn t (commit a t)) (mode : Byte) (timeout : Half) (s : State) :
    (pagedWrite load commit mode timeout s).state.currentAddress = (load s).currentAddress := by
  cases hmode : mode.getLsbD 7 with
  | false =>
    rw [pagedWrite_of_not_commit _ _ _ _ hmode]
    rfl
  | true =>
    obtain ⟨hstate, -⟩ := (hcommit s.currentAddress (load s)).trans (pollThenOk_drawn timeout _).1
    rw [pagedWrite_of_commit _ _ _ _ hmode, hstate]

/-- The address after `u` units of an ISP transfer: in flash each unit checks the extended byte (R192, R193). -/
def ispAddress (mem : Mem) (u : Nat) (a : Word) : Word :=
  match mem with
  | .flash => ispFlashAddress u a
  | .eeprom => a + BitVec.ofNat 32 u

theorem drawn_ispCommit (cmd : Byte) (a : Word) (s : State) : Drawn s (ispCommit cmd a s) :=
  drawn_ispXfer _ s

theorem ispProgram_currentAddress (mem : Mem) (mode : Byte) (timeout : Half) (data : List Byte) (s : State) :
    (ispProgram mem mode timeout data s).state.currentAddress = ispAddress mem (unitsOf mem data.length) s.currentAddress := by
  cases mem with
  | flash => rw [ispProgram, pagedWrite_currentAddress (drawn_ispCommit _), eachWord_ispLoadWord]; rfl
  | eeprom => rw [ispProgram, pagedWrite_currentAddress (drawn_ispCommit _), eachByte_ispLoadByte]; rfl

theorem hvProgram_currentAddress (mem : Mem) (mode : Byte) (timeout : Half) (data : List Byte) (s : State) :
    (hvProgram mem mode timeout data s).state.currentAddress
      = s.currentAddress + BitVec.ofNat 32 (unitsOf mem data.length) := by
  cases mem with
  | flash => rw [hvProgram, pagedWrite_currentAddress drawn_hvCommit, hvLoad_eachWord_hvLoadWord]; rfl
  | eeprom => rw [hvProgram, pagedWrite_currentAddress drawn_hvCommit, hvLoad_eachByte_hvLoadByte]; rfl

theorem ispRead_currentAddress (mem : Mem) (n : Nat) (s : State) :
    (ispRead mem n s).state.currentAddress = ispAddress mem (unitsOf mem n) s.currentAddress := by
  cases mem with
  | flash => exact congrArg State.currentAddress (readWords_ispReadWord _ s).1
  | eeprom => exact congrArg State.currentAddress (readBytes_ispReadByte _ s).1

theorem hvReadMem_currentAddress (mem : Mem) (n : Nat) (s : State) :
    (hvReadMem mem n s).state.currentAddress = s.currentAddress + BitVec.ofNat 32 (unitsOf mem n) := by
  cases mem with
  | flash => exact congrArg State.currentAddress (readWords_hvReadWord _ _).1
  | eeprom => exact congrArg State.currentAddress (readBytes_hvReadByte _ _).1

/-- `ExtCheck` leaves bits 23:0 (R192). -/
theorem extAddress_low (a : Word) : (extAddress a).extractLsb' 0 24 = a.extractLsb' 0 24 :=
  BitVec.extractLsb'_append_eq_right

/-- Bits 23:0 of a sum are those of the sum of bits 23:0. -/
theorem add_low_congr {a b : Word} (h : a.extractLsb' 0 24 = b.extractLsb' 0 24) (c : Word) :
    (a + c).extractLsb' 0 24 = (b + c).extractLsb' 0 24 := by
  have hnat := congrArg BitVec.toNat h
  apply BitVec.eq_of_toNat_eq
  simp only [BitVec.extractLsb'_toNat, Nat.shiftRight_zero, BitVec.toNat_add] at hnat ⊢
  omega

/-- Bits 23:0 of the address step by one with each word of an ISP flash transfer (R192, R193, R208). -/
theorem ispFlashAddress_low (u : Nat) (a : Word) :
    (ispFlashAddress u a).extractLsb' 0 24 = (a + BitVec.ofNat 32 u).extractLsb' 0 24 := by
  induction u generalizing a with
  | zero => rw [ispFlashAddress, BitVec.add_zero]
  | succ u ih =>
    rw [ispFlashAddress, ih, ← add_one_add a u]
    exact add_low_congr (add_low_congr (extAddress_low a) 1#32) (BitVec.ofNat 32 u)

theorem ispAddress_low (mem : Mem) (u : Nat) (a : Word) :
    (ispAddress mem u a).extractLsb' 0 24 = (a + BitVec.ofNat 32 u).extractLsb' 0 24 := by
  cases mem with
  | flash => exact ispFlashAddress_low u a
  | eeprom => rfl

/-- A paged command is a paged write of its data or a paged read of its count (R90, R92). -/
theorem pagedOf_cases {i : Instr} {mem : Mem} {n : Nat} (h : pagedOf i = some (mem, n)) :
    (∃ mode timeout data, pagedWriteOf i = some (mem, mode, timeout, data) ∧ data.length = n) ∨
      ∃ count, pagedReadOf i = some (mem, count) ∧ count.toNat = n := by
  unfold pagedOf at h
  split at h <;> cases h
  case h_1 | h_2 | h_3 | h_4 | h_5 | h_6 => exact .inl ⟨_, _, _, rfl, rfl⟩
  all_goals exact .inr ⟨_, rfl, rfl⟩

/-- The address after a paged command of a family that has it (R163, R178, R208). -/
theorem perform_paged_currentAddress {i : Instr} {mem : Mem} {n : Nat} (h : pagedOf i = some (mem, n)) {s : State}
    (htpi : s.activeFamily ≠ .tpi) :
    s.activeFamily = .isp ∧ (perform i s).state.currentAddress = ispAddress mem (unitsOf mem n) s.currentAddress ∨
      HvActive s ∧ (perform i s).state.currentAddress = s.currentAddress + BitVec.ofNat 32 (unitsOf mem n) := by
  by_cases hisp : s.activeFamily = .isp
  · refine .inl ⟨hisp, ?_⟩
    obtain ⟨mode, timeout, data, hwrite, rfl⟩ | ⟨count, hread, rfl⟩ := pagedOf_cases h
    · obtain ⟨-, -, hp⟩ := perform_pagedWrite hwrite s
      rw [hp, routed_of_isp (s := s.invalidatePage) _ _ hisp]
      exact ispProgram_currentAddress mem mode _ data _
    · obtain ⟨-, -, hp⟩ := perform_pagedRead hread s
      rw [hp, routed_of_isp _ _ hisp]
      exact ispRead_currentAddress mem _ s
  · have hhv := hvActive_of_ne hisp htpi
    refine .inr ⟨hhv, ?_⟩
    obtain ⟨mode, timeout, data, hwrite, rfl⟩ | ⟨count, hread, rfl⟩ := pagedOf_cases h
    · obtain ⟨-, -, hp⟩ := perform_pagedWrite hwrite s
      rw [hp, routed_of_hvActive (s := s.invalidatePage) _ _ hhv]
      exact hvProgram_currentAddress mem mode _ data _
    · obtain ⟨-, -, hp⟩ := perform_pagedRead hread s
      rw [hp, routed_of_hvActive _ _ hhv]
      exact hvReadMem_currentAddress mem _ s

/-- Settles O60: the HV drivers and EEPROM step the whole address, ISP flash through `ExtCheck`, which leaves bits 23:0. -/
theorem pagedAddressSteps : Obligations.PagedAddressSteps := by
  intro i s t mem n hpaged htpi hnext u
  obtain ⟨-, f, m, x, c, rfl, -⟩ := exec_next i s t hnext
  have hu : unitsOf mem n = u := by cases mem <;> rfl
  have haddress := perform_paged_currentAddress hpaged htpi
  rw [hu] at haddress
  obtain ⟨hisp, haddress⟩ | ⟨hhv, haddress⟩ := haddress
  · refine ⟨(congrArg _ haddress).trans (ispAddress_low mem u _), fun hall => haddress.trans ?_⟩
    obtain rfl | hhv := hall
    · rfl
    · rcases hhv with hfam | hfam <;> cases hisp.symm.trans hfam
  · exact ⟨congrArg _ haddress, fun _ => haddress⟩

end Sys2Proof.Machine
end

section
/-! The fuse, lock, signature and calibration commands of the HV drivers (44_hv.md R230 to R235): each code performs its driver's
operation, and one lemma each says how a write and how a read of one byte is answered. -/

namespace Sys2Proof.Machine

/-! ### Writes -/

/-- The fuses 0, 1 and 2 are written with the selects 0, 1 and 2 (R103). -/
theorem fuseWriteSelect_of_le {which : Byte} (h : which.toNat ≤ 2) :
    ∃ k : Select, fuseWriteSelect which = some k ∧ k.number = which.toNat ∧
      k = if which = 0x00#8 then .low else if which = 0x01#8 then .high else .ext := by
  obtain rfl | rfl | rfl : which = 0x00#8 ∨ which = 0x01#8 ∨ which = 0x02#8 := by bv_omega
  · exact ⟨.low, rfl, rfl, rfl⟩
  · exact ⟨.high, rfl, rfl, rfl⟩
  · exact ⟨.ext, rfl, rfl, rfl⟩

/-- There is no fuse past 2 to write (R103). -/
theorem fuseWriteSelect_of_lt {which : Byte} (h : 2 < which.toNat) : fuseWriteSelect which = none := by
  unfold fuseWriteSelect
  split
  case h_1 | h_2 | h_3 => omega
  case h_4 => rfl

/-- While an HV family is active the two codes of a fuse write are one operation (R230). -/
theorem perform_hvFuseWrite {i : Instr} {which value timeout : Byte} (h : hvFuseWriteOf i = some (which, value, timeout))
    {s : State} (hhv : HvActive s) :
    operandFault i = none ∧ isXprog i = false ∧ perform i s = hvProgramFuse which value (timeoutOf timeout) s.invalidatePage := by
  unfold hvFuseWriteOf at h
  split at h <;> cases h <;> exact ⟨rfl, rfl, routed_of_hvActive _ _ hhv⟩

/-- While an HV family is active the two codes of a lock write are one operation (R231). -/
theorem perform_hvLockWrite {i : Instr} {value timeout : Byte} (h : hvLockWriteOf i = some (value, timeout))
    {s : State} (hhv : HvActive s) :
    operandFault i = none ∧ isXprog i = false ∧ perform i s = hvProgramLock value (timeoutOf timeout) s.invalidatePage := by
  unfold hvLockWriteOf at h
  split at h <;> cases h <;> exact ⟨rfl, rfl, routed_of_hvActive _ _ hhv⟩

/-- The command load, the value load and the commit strobe of a fuse or lock write (R230, R231). -/
theorem hvStrobe_hvLoad_hvLoad (k : Select) (cmd value : Byte) (s : State) :
    hvStrobe .commit k (hvLoad .loadData .low value (hvLoad .loadCmd .low cmd s)) =
      let p := patternIn s.activeFamily s.controlStack
      { s with trace := s.trace ++
        [.hvLoad .loadCmd .low cmd (p 2 0), .hvLoad .loadData .low value (p 1 0), .hvStrobe .commit k (p 3 k.number)] } := by
  simp only [hvLoad_eq, hvStrobe_eq, Signal.number, Select.number, List.append_assoc, List.cons_append, List.nil_append]

/-- A fuse or lock write ends as its poll does (R230, R231). -/
theorem exec_hvWriteByte {i : Instr} {s : State} {k : Select} {cmd value timeout : Byte} {ready : Bool} {n : Nat}
    (hf : operandFault i = none) (hx : isXprog i = false) (hhv : HvActive s)
    (hp : perform i s = pollThenOk (timeoutOf timeout)
      (hvStrobe .commit k (hvLoad .loadData .low value (hvLoad .loadCmd .low cmd s.invalidatePage))))
    (hpoll : PollEnds s.hvReadies s.elapsed timeout.toNat ready n) :
    let p := patternIn s.activeFamily s.controlStack
    ∃ t, exec i s = .next t ∧ Ended s t (if ready then .ok else .timeout) [] ∧
      Kept (afterPoll ready n { s with
        prevPage := none
        trace := s.trace ++ [.hvLoad .loadCmd .low cmd (p 2 0), .hvLoad .loadData .low value (p 1 0),
          .hvStrobe .commit k (p 3 k.number)] }) t := by
  rw [hvStrobe_hvLoad_hvLoad] at hp
  exact exec_ends i s _ hf hx (hp.trans (pollThenOk_of_hvActive hhv hpoll)) (Nat.zero_le _) rfl rfl rfl rfl rfl

/-- A command that fails with no transaction has only invalidated the previous page (R292). -/
theorem exec_doneFailed {i : Instr} {s : State} (hf : operandFault i = none) (hx : isXprog i = false)
    (hp : perform i s = doneFailed s.invalidatePage) :
    ∃ t, exec i s = .next t ∧ Answered s t Config.stFailed [] ∧ Kept { s with prevPage := none } t :=
  exec_ends i s _ hf hx hp (Nat.zero_le _) rfl rfl rfl rfl rfl

/-- Settles O52: a fuse past 2 has no select, and every other write is the one of its select. -/
theorem hvWriteConfigResult : Obligations.HvWriteConfigResult := by
  intro i s hhv p
  refine ⟨fun which value timeout hfuse => ?_, fun value timeout ready k hlock hpoll => ?_⟩
  · obtain ⟨hf, hx, hp⟩ := perform_hvFuseWrite hfuse hhv
    refine ⟨fun hpast => ?_, fun ready n hwhich hpoll => ?_⟩
    · rw [hvProgramFuse, fuseWriteSelect_of_lt hpast] at hp
      exact exec_doneFailed hf hx hp
    · obtain ⟨k, hselect, hnumber, hk⟩ := fuseWriteSelect_of_le hwhich
      rw [hvProgramFuse, hselect] at hp
      rw [← hk, ← hnumber]
      exact exec_hvWriteByte hf hx hhv hp hpoll
  · obtain ⟨hf, hx, hp⟩ := perform_hvLockWrite hlock hhv
    exact exec_hvWriteByte hf hx hhv hp hpoll

/-! ### Reads -/

/-- There is no fuse past 2 to read (R103). -/
theorem fuseReadSelect_of_lt {which : Byte} (h : 2 < which.toNat) : fuseReadSelect which = none := by
  unfold fuseReadSelect
  split
  case h_1 | h_2 | h_3 => omega
  case h_4 => rfl

/-- While an HV family is active the two codes of a fuse read are one operation (R232). -/
theorem perform_hvFuseRead {i : Instr} {which : Byte} (h : hvFuseReadOf i = some which) {s : State} (hhv : HvActive s) :
    operandFault i = none ∧ isXprog i = false ∧ perform i s = hvReadFuse which s.invalidatePage := by
  unfold hvFuseReadOf at h
  split at h <;> cases h <;> exact ⟨rfl, rfl, routed_of_hvActive _ _ hhv⟩

/-- While an HV family is active the three codes of a lock read are one operation: it uses no operand of any layout (R153, R233). -/
theorem perform_lockRead {i : Instr} (h : isLockRead i = true) {s : State} (hhv : HvActive s) :
    isXprog i = false ∧ perform i s = hvReadLock s.invalidatePage := by
  unfold isLockRead at h
  split at h
  case h_1 | h_2 | h_3 => exact ⟨rfl, routed_of_hvActive _ _ hhv⟩
  case h_4 => cases h

/-- While an HV family is active the two codes of a signature read are one operation (R234). -/
theorem perform_hvSignatureRead {i : Instr} {which : Byte} (h : hvSignatureReadOf i = some which) {s : State}
    (hhv : HvActive s) :
    operandFault i = none ∧ isXprog i = false ∧ perform i s = hvReadSignature which s.invalidatePage := by
  unfold hvSignatureReadOf at h
  split at h <;> cases h <;> exact ⟨rfl, rfl, routed_of_hvActive _ _ hhv⟩

/-- While an HV family is active the two codes of a calibration read are one operation (R235). -/
theorem perform_hvOsccalRead {i : Instr} {which : Byte} (h : hvOsccalReadOf i = some which) {s : State} (hhv : HvActive s) :
    operandFault i = none ∧ isXprog i = false ∧ perform i s = hvReadOsccal which s.invalidatePage := by
  unfold hvOsccalReadOf at h
  split at h <;> cases h <;> exact ⟨rfl, rfl, routed_of_hvActive _ _ hhv⟩

/-- A command that makes the transactions `events` and reads one byte with the select `k` is answered with the byte that the target
returns (R232 to R235). -/
theorem exec_hvReadByte {i : Instr} {s : State} {k : Select} {events : List Event} (hf : operandFault i = none)
    (hx : isXprog i = false)
    (hp : perform i s = doneByte (hvRead k { s.invalidatePage with trace := s.trace ++ events })) :
    ∃ b t, exec i s = .next t ∧ Answered s t Config.stOk [b] ∧ (∀ v, s.hvBytes.head? = some v → b = v) ∧
      Kept { s with
        prevPage := none
        trace := s.trace ++ (events ++ [.hvRead k (patternIn s.activeFamily s.controlStack 4 k.number)])
        hvBytes := s.hvBytes.tail
        drawn := s.drawn + 1 } t := by
  rw [hvRead_eq] at hp
  obtain ⟨t, hnext, hanswered, hkept⟩ := exec_ends i s _ hf hx hp (by decide : 1 ≤ 274) rfl rfl rfl rfl rfl
  refine ⟨_, t, hnext, hanswered, fun v hv => ?_, ?_⟩
  · have hbyte : s.hvBytes.headD (Config.freeByte s.drawn) = v := by rw [List.headD_eq_head?_getD, hv, Option.getD_some]
    exact hbyte
  · rw [← List.append_assoc]
    exact hkept

/-- A fuse or lock read is the command load and the read of its select (R232, R233). -/
theorem exec_hvReadFuseLock {i : Instr} {s : State} {k : Select} (hf : operandFault i = none) (hx : isXprog i = false)
    (hp : perform i s = doneByte (hvRead k (hvLoad .loadCmd .low Config.hvReadFuseLock s.invalidatePage))) :
    let p := patternIn s.activeFamily s.controlStack
    ∃ b t, exec i s = .next t ∧ Answered s t Config.stOk [b] ∧ (∀ v, s.hvBytes.head? = some v → b = v) ∧
      Kept { s with
        prevPage := none
        trace := s.trace ++ [.hvLoad .loadCmd .low Config.hvReadFuseLock (p 2 0), .hvRead k (p 4 k.number)]
        hvBytes := s.hvBytes.tail
        drawn := s.drawn + 1 } t := by
  rw [hvLoad_eq] at hp
  exact exec_hvReadByte hf hx hp

/-- A signature or calibration read is the command load, the load of the index and the read of its select (R234, R235). -/
theorem exec_hvReadSigCal {i : Instr} {s : State} {k : Select} {which : Byte} (hf : operandFault i = none)
    (hx : isXprog i = false)
    (hp : perform i s = doneByte (hvRead k
      (hvLoad .loadAddr .low which (hvLoad .loadCmd .low Config.hvReadSigCal s.invalidatePage)))) :
    let p := patternIn s.activeFamily s.controlStack
    ∃ b t, exec i s = .next t ∧ Answered s t Config.stOk [b] ∧ (∀ v, s.hvBytes.head? = some v → b = v) ∧
      Kept { s with
        prevPage := none
        trace := s.trace ++ [.hvLoad .loadCmd .low Config.hvReadSigCal (p 2 0), .hvLoad .loadAddr .low which (p 0 0),
          .hvRead k (p 4 k.number)]
        hvBytes := s.hvBytes.tail
        drawn := s.drawn + 1 } t := by
  simp only [hvLoad_eq, List.append_assoc, List.cons_append, List.nil_append] at hp
  exact exec_hvReadByte hf hx hp

/-- Settles O53: a fuse past 2 has no select, and every other command is a read of one byte. -/
theorem hvReadConfigResult : Obligations.HvReadConfigResult := by
  intro i s hhv p reads
  refine ⟨fun which hfuse => ?_, fun hlock hf => ?_, fun which hsignature => ?_, fun which hosccal => ?_⟩
  · obtain ⟨hf, hx, hp⟩ := perform_hvFuseRead hfuse hhv
    refine ⟨fun hpast => ?_, ?_, ?_, ?_⟩
    · rw [hvReadFuse, fuseReadSelect_of_lt hpast] at hp
      exact exec_doneFailed hf hx hp
    · rintro rfl
      exact exec_hvReadFuseLock (k := .low) hf hx hp
    · rintro rfl
      exact exec_hvReadFuseLock (k := .ext2) hf hx hp
    · rintro rfl
      exact exec_hvReadFuseLock (k := .ext) hf hx hp
  · obtain ⟨hx, hp⟩ := perform_lockRead hlock hhv
    exact exec_hvReadFuseLock (k := .high) hf hx hp
  · obtain ⟨hf, hx, hp⟩ := perform_hvSignatureRead hsignature hhv
    exact exec_hvReadSigCal (k := .low) hf hx hp
  · obtain ⟨hf, hx, hp⟩ := perform_hvOsccalRead hosccal hhv
    exact exec_hvReadSigCal (k := .high) hf hx hp

end Sys2Proof.Machine
end

section
/-! The TPI driver's `XErase` and `XWriteMem` (45_tpi.md R269, R270), whose polls decide how they end. -/

namespace Sys2Proof.Machine

/-- The samples of a TPI poll are the ready bits of the target's frames (R173, R265). -/
theorem pollThenOk_of_tpi {s : State} {timeout : Half} {ready : Bool} {k : Nat} (htpi : s.activeFamily = .tpi)
    (h : PollEnds (s.tpiFrames.map tpiReadyBit) s.elapsed timeout.toNat ready k) :
    pollThenOk timeout s = ⟨if ready then .ok else .timeout, [], afterPoll ready k s⟩ :=
  pollThenOk_ends (by rwa [samplesOf_tpi s htpi])

/-- An erase is its NVM command and the write that starts it before the poll (R269). -/
theorem tpiErase_eq (eraseMode : Byte) (addr : Word) (s : State) :
    tpiErase eraseMode addr s = pollThenOk Config.tpiTimeout { s with
      trace := s.trace ++ [.tpiNvmCmd (eraseCmd eraseMode), .tpiWrite addr 0x00#8] } := by
  simp only [tpiErase, tpiWrite, tpiSetNvmCmd, State.log, List.append_assoc, List.cons_append, List.nil_append]

/-- Settles O54: the poll decides how the erase ends. -/
theorem xEraseResult : Obligations.XEraseResult := by
  intro s eraseMode addr ready k htpi hpoll
  have hp : perform (.xprgErase eraseMode addr) s = tpiErase eraseMode addr s.invalidatePage :=
    routedTpi_of_tpi (s := s.invalidatePage) _ htpi
  rw [tpiErase_eq] at hp
  exact exec_endsX _ s _ rfl rfl (hp.trans (pollThenOk_of_tpi htpi hpoll)) (Nat.zero_le _) rfl rfl rfl rfl rfl

/-- A write of which every poll ends ready (R270). -/
theorem tpiWriteMem_ready {s : State} {data : List Byte} {ks : List Nat} (addr : Word) (htpi : s.activeFamily = .tpi)
    (hlen : ks.length = tpiPolls data.length)
    (hready : PollsReady (s.tpiFrames.map tpiReadyBit) s.elapsed Config.tpiTimeout.toNat ks) :
    tpiWriteMem addr data s = doneOk { s with
      trace := s.trace ++ .tpiNvmCmd Config.nvmWordWrite :: tpiWriteEvents ks 0 addr data
      clock := s.clock + BitVec.ofNat 32 (msSum (s.elapsed.take ks.sum))
      elapsed := s.elapsed.drop ks.sum
      tpiFrames := s.tpiFrames.drop ks.sum
      drawn := s.drawn + 2 * ks.sum } := by
  have hfam : (tpiSetNvmCmd Config.nvmWordWrite s).activeFamily = .tpi := htpi
  have hready : PollsReady (samplesOf (tpiSetNvmCmd Config.nvmWordWrite s)) s.elapsed Config.tpiTimeout.toNat ks := by
    rwa [samplesOf_tpi _ hfam]
  rw [tpiWriteMem, tpiWriteLoop_ready addr 0 data ks _ hfam hlen hready]
  simp only [tpiSetNvmCmd, State.log, Nat.mul_zero, BitVec.add_zero, List.append_assoc, List.cons_append, List.nil_append]

/-- A write of which a poll times out after those that ended ready (R176, R270). -/
theorem tpiWriteMem_timeout {s : State} {data : List Byte} {ks : List Nat} {k : Nat} (addr : Word)
    (htpi : s.activeFamily = .tpi) (hlen : ks.length < tpiPolls data.length)
    (hready : PollsReady (s.tpiFrames.map tpiReadyBit) s.elapsed Config.tpiTimeout.toNat ks)
    (htimeout : PollEnds ((s.tpiFrames.drop ks.sum).map tpiReadyBit) (s.elapsed.drop ks.sum) Config.tpiTimeout.toNat false k) :
    tpiWriteMem addr data s = doneTimeout { s with
      trace := s.trace ++
        .tpiNvmCmd Config.nvmWordWrite :: tpiWriteEvents (ks ++ [k]) 0 addr (data.take (2 * (ks.length + 1)))
      clock := s.clock + BitVec.ofNat 32 (msSum (s.elapsed.take (ks.sum + k + 1)))
      elapsed := s.elapsed.drop (ks.sum + k + 1)
      tpiFrames := s.tpiFrames.drop (ks.sum + k)
      drawn := s.drawn + 2 * (ks.sum + k) + 1 } := by
  have hfam : (tpiSetNvmCmd Config.nvmWordWrite s).activeFamily = .tpi := htpi
  have hsamples : samplesOf (tpiSetNvmCmd Config.nvmWordWrite s) = s.tpiFrames.map tpiReadyBit := samplesOf_tpi _ hfam
  rw [← hsamples] at hready
  rw [List.map_drop, ← hsamples] at htimeout
  rw [tpiWriteMem, tpiWriteLoop_timeout addr 0 data ks k _ hfam hlen hready htimeout]
  simp only [tpiSetNvmCmd, State.log, Nat.mul_zero, BitVec.add_zero, List.append_assoc, List.cons_append, List.nil_append]

/-- Settles O55: the write goes on while its polls end ready, and the first that times out ends it. -/
theorem xWriteMemResult : Obligations.XWriteMemResult := by
  intro s memType pageMode addr data ks htpi hready i n
  have hp : perform i s = tpiWriteMem addr data s.invalidatePage := routedTpi_of_tpi (s := s.invalidatePage) _ htpi
  refine ⟨fun hlen => ?_, fun k hlen htimeout => ?_⟩
  · have hend := hp.trans (tpiWriteMem_ready (s := s.invalidatePage) addr htpi hlen hready)
    exact exec_endsX i s _ rfl rfl hend (Nat.zero_le _) rfl rfl rfl rfl rfl
  · have hend := hp.trans (tpiWriteMem_timeout (s := s.invalidatePage) addr htpi hlen hready htimeout)
    exact exec_endsX i s _ rfl rfl hend (Nat.zero_le _) rfl rfl rfl rfl rfl

end Sys2Proof.Machine
end

section
/-! The commands that the active family lacks, or whose layout does not carry what its driver uses (41_dispatch.md R145, R153). -/

namespace Sys2Proof.Machine

/-- TPI lacks every operation of the normal form (R145). -/
theorem routed_of_tpi (isp hv : State → Done) {s : State} (h : s.activeFamily = .tpi) : routed isp hv s = doneFailed s := by
  simp only [routed, h]

/-- Only TPI has the operations of the XPROG form (R145). -/
theorem routedTpi_of_ne_tpi (op : State → Done) {s : State} (h : s.activeFamily ≠ .tpi) : routedTpi op s = doneFailed s := by
  unfold routedTpi
  split
  case h_1 htpi => exact absurd htpi h
  all_goals rfl

/-- A command of the normal form that a driver performs is routed by the family, after R170 unless it is a paged read. -/
theorem perform_normalDriver {i : Instr} (h : isNormalDriver i = true) (s : State) :
    isXprog i = false ∧ ∃ isp hv, perform i s = routed isp hv (if isPagedRead i then s else s.invalidatePage) := by
  cases i
  case setParameter | loadAddress | setControlStack | enterProgmodeIsp | enterProgmodePp | enterProgmodeHvsp
    | xprgEnterProgmode | xprgLeaveProgmode | xprgErase | xprgWriteMem | xprgReadMem | xprgSetParam => cases h
  all_goals exact ⟨rfl, _, _, rfl⟩

/-- A command of the XPROG form but XEnter is routed to TPI after R170. -/
theorem perform_xprogDriver {i : Instr} (h : isXprogDriver i = true) (s : State) :
    isXprog i = true ∧ ∃ op, perform i s = routedTpi op s.invalidatePage := by
  cases i
  case xprgLeaveProgmode | xprgErase | xprgWriteMem | xprgReadMem | xprgSetParam => exact ⟨rfl, _, rfl⟩
  all_goals cases h

/-- Settles O58: each form is routed, and the family is not one that has the operation. -/
theorem familyLacksOperation : Obligations.FamilyLacksOperation := by
  intro i s hf
  refine ⟨fun hdriver htpi => ?_, fun hdriver htpi => ?_⟩
  · obtain ⟨hx, isp, hv, hp⟩ := perform_normalDriver hdriver s
    cases hread : isPagedRead i with
    | false =>
      rw [hread] at hp
      exact exec_ends i s _ hf hx (hp.trans (routed_of_tpi (s := s.invalidatePage) isp hv htpi)) (Nat.zero_le _)
        rfl rfl rfl rfl rfl
    | true =>
      rw [hread] at hp
      exact exec_ends i s _ hf hx (hp.trans (routed_of_tpi isp hv htpi)) (Nat.zero_le _) rfl rfl rfl rfl rfl
  · obtain ⟨hx, op, hp⟩ := perform_xprogDriver hdriver s
    exact exec_endsX i s _ hf hx (hp.trans (routedTpi_of_ne_tpi (s := s.invalidatePage) op htpi)) (Nat.zero_le _)
      rfl rfl rfl rfl rfl

/-- A command of an HV layout that lacks what ISP uses has no ISP operation (R153). -/
theorem perform_of_layoutMismatch_isp {i : Instr} (h : layoutMismatch .isp i = true) {s : State}
    (hisp : s.activeFamily = .isp) : isXprog i = false ∧ perform i s = doneFailed s.invalidatePage := by
  cases i
  case chipErasePp | chipEraseHvsp | programFusePp | programFuseHvsp | programLockPp | programLockHvsp | readFusePp
    | readFuseHvsp | readLockPp | readLockHvsp | readSignaturePp | readSignatureHvsp | readOsccalPp | readOsccalHvsp =>
    exact ⟨rfl, routed_of_isp (s := s.invalidatePage) _ _ hisp⟩
  all_goals cases h

/-- The two HV families lack the same operands (R153). -/
theorem layoutMismatch_hvpp (i : Instr) : layoutMismatch .hvpp i = layoutMismatch .hvsp i := by
  cases i <;> rfl

/-- A command of the ISP layout that lacks what the HV families use has no HV operation (R153). -/
theorem perform_of_layoutMismatch_hv {i : Instr} (h : layoutMismatch .hvsp i = true) {s : State} (hhv : HvActive s) :
    isXprog i = false ∧ perform i s = doneFailed s.invalidatePage := by
  cases i
  case programFuseIsp | programLockIsp | readFuseIsp | readSignatureIsp | readOsccalIsp =>
    exact ⟨rfl, routed_of_hvActive (s := s.invalidatePage) _ _ hhv⟩
  all_goals cases h

/-- No layout of a driver command is wrong for TPI, which lacks them all, so the rule names none (R145, R153). -/
theorem layoutMismatch_tpi (i : Instr) : layoutMismatch .tpi i = false := by
  cases i <;> rfl

/-- A command whose layout does not suit the active family fails with no transaction (R153). -/
theorem perform_of_layoutMismatch {i : Instr} {s : State} (h : layoutMismatch s.activeFamily i = true) :
    isXprog i = false ∧ perform i s = doneFailed s.invalidatePage := by
  cases hfam : s.activeFamily <;> rw [hfam] at h
  case isp => exact perform_of_layoutMismatch_isp h hfam
  case hvsp => exact perform_of_layoutMismatch_hv h (.inl hfam)
  case hvpp => exact perform_of_layoutMismatch_hv (layoutMismatch_hvpp i ▸ h) (.inr hfam)
  case tpi => cases (layoutMismatch_tpi i).symm.trans h

/-- Settles O59: the driver of the family that the command is routed to has no operation for its layout. -/
theorem layoutMismatchFails : Obligations.LayoutMismatchFails := by
  intro i s hmismatch hf
  obtain ⟨hx, hp⟩ := perform_of_layoutMismatch hmismatch
  exact exec_doneFailed hf hx hp

end Sys2Proof.Machine
end
